-- ==== Sys2Proof/Word.lean ====
section
/-! DEFINITION. The word types whose width the spec fixes, and their plainest arithmetic (00_scope.md R8).

Nothing is ever sign-extended (R8), so the only widening is by zeros. The registers, `pc` and `I` have the widths of R5 and are
natural numbers that their accessors truncate (Machine/Ops.lean). -/

namespace Sys2Proof

/-- A timer, a memory byte or an 8-bit field of an instruction: the spec's `u8` (R8). -/
abbrev Byte := BitVec 8

/-- An instruction word (R8, R65). -/
abbrev Word := BitVec 16

/-- A register number as an instruction's 4-bit field gives it (R12). -/
abbrev RegIdx := Fin 16

/-- A byte widened to 16 bits by zeros, `zext_16` of R8. -/
def Byte.toWord (b : Byte) : Word := b.setWidth 16

end Sys2Proof
end

