-- ==== Sys2Proof/Config.lean ====
section
/-! DEFINITION. What is fixed for a run: the parameters of 00_scope.md R5 with the document's defaults, and the one free
value, the host's random bytes (43_alu.md R118). -/

namespace Sys2Proof

namespace Config

/-! ### The document's defaults (R5). A step reads a parameter from `Params`, never from here. -/

/-- `NREGS`: 16 general registers (R20). -/
def nRegs : Nat := 16

/-- `REGW`: 8-bit registers (R20). -/
def regW : Nat := 8

/-- `PCW`: a 16-bit program counter (R23). -/
def pcW : Nat := 16

/-- `IW`: a 16-bit index register (R26). -/
def iW : Nat := 16

/-- `MEM_SIZE`: 4096 bytes of memory (R34). -/
def memSize : Nat := 4096

/-- `FONT_BASE`: the font atlas at 0x050 (R36). -/
def fontBase : Nat := 0x050

/-- `GLYPHS`: 16 glyphs (R36). -/
def glyphs : Nat := 16

/-- `GLYPH_BYTES`: 5 bytes a glyph (R36). -/
def glyphBytes : Nat := 5

/-- `PROG_BASE`: programs at 0x200 (R171). -/
def progBase : Nat := 0x200

/-- `FB_W`: 64 columns (R37). -/
def fbWidth : Nat := 64

/-- `FB_H`: 32 rows (R37). -/
def fbHeight : Nat := 32

/-- `STACK_DEPTH`: 16 entries (R27). -/
def stackDepth : Nat := 16

/-- `FLAGREG`: VF (R21). -/
def flagReg : Nat := 15

/-- `NKEYS`: 16 keys (R40). -/
def nKeys : Nat := 16

/-! ### What does not vary -/

/-- Nanoseconds in a second: the scheduler's time unit (R150). -/
def nsPerSecond : Nat := 1000000000

/-- The byte the host's random source delivers at the n-th draw of a run where State lists none: a free value under no law
(43_alu.md R118, R162; log entry 13). It has no body, so no proof can rest on what it is. -/
opaque freeByte : Nat → Byte

end Config

/-- `GROUP0_KEY`: what the second dispatch of group 0 compares (R5, R71). -/
inductive Group0Key where
  /-- The low byte `NN` alone: the default. -/
  | nn
  /-- The whole word. -/
  | fullWord
  deriving DecidableEq, Repr

/-- `OOB_POLICY`: what an access at or above `MEM_SIZE` does (R5, R57). -/
inductive OobPolicy where
  /-- It raises `MemOutOfRange`: the default. -/
  | fault
  /-- It uses the address modulo `MEM_SIZE`. -/
  | wrap
  deriving DecidableEq, Repr

/-- `VF_ORDER`: when 8XY5, 8XY6, 8XY7 and 8XYE write VF (R5, R106). -/
inductive VfOrder where
  /-- Operands read, then the result written, then VF: the default. -/
  | flagLast
  /-- VF written first, then the result computed from the registers as they then stand. -/
  | textOrder
  deriving DecidableEq, Repr

/-- `DRAW_ORDER`: when DXYN reads its coordinate registers (R5, R129). -/
inductive DrawOrder where
  /-- Where the text reads them, after VF is reset and V[X] again for each row: the default. -/
  | textOrder
  /-- Both before VF is reset. -/
  | latchFirst
  deriving DecidableEq, Repr

/-- The parameters of R5, fixed for the run (R32). `CLASSIC_MODE` and `INDEX_OVERFLOW_FLAG` have no default in the spec and
none here. `FONT` is an argument of the launch alone (log entry 16). -/
structure Params where
  /-- `CLASSIC_MODE`. -/
  classicMode : Bool
  /-- `INDEX_OVERFLOW_FLAG`. -/
  indexOverflowFlag : Bool
  /-- `GROUP0_KEY`. -/
  group0Key : Group0Key := .nn
  /-- `OOB_POLICY`. -/
  oobPolicy : OobPolicy := .fault
  /-- `VF_ORDER`. -/
  vfOrder : VfOrder := .flagLast
  /-- `DRAW_ORDER`. -/
  drawOrder : DrawOrder := .textOrder
  /-- `CPU_HZ`, firings of the cpu clock in a second. -/
  cpuHz : Nat := 700
  /-- `TIMER_HZ`, firings of the timer clock in a second. -/
  timerHz : Nat := 60
  /-- `FRAME_HZ`, firings of the frame clock in a second. -/
  frameHz : Nat := 60
  /-- `NREGS`, general registers. -/
  nRegs : Nat := Config.nRegs
  /-- `REGW`, bits of a general register. -/
  regW : Nat := Config.regW
  /-- `FLAGREG`, the register that doubles as the flag register. -/
  flagReg : Nat := Config.flagReg
  /-- `PCW`, bits of the program counter and of a stack entry, which holds one (R27). -/
  pcW : Nat := Config.pcW
  /-- `IW`, bits of the index register. -/
  iW : Nat := Config.iW
  /-- `STACK_DEPTH`, entries of the call stack. -/
  stackDepth : Nat := Config.stackDepth
  /-- `MEM_SIZE`, bytes of memory. -/
  memSize : Nat := Config.memSize
  /-- `FONT_BASE`, the first byte of the font atlas. -/
  fontBase : Nat := Config.fontBase
  /-- `GLYPHS`, glyphs in the atlas. -/
  glyphs : Nat := Config.glyphs
  /-- `GLYPH_BYTES`, bytes per glyph. -/
  glyphBytes : Nat := Config.glyphBytes
  /-- `PROG_BASE`, the load address of the program and the reset value of `pc`. -/
  progBase : Nat := Config.progBase
  /-- `FB_W`, the framebuffer's width in pixels. -/
  fbWidth : Nat := Config.fbWidth
  /-- `FB_H`, the framebuffer's height in pixels. -/
  fbHeight : Nat := Config.fbHeight
  /-- `NKEYS`, keys of the keypad. -/
  nKeys : Nat := Config.nKeys
  deriving DecidableEq, Repr

end Sys2Proof
end

