-- ==== Sys2Proof/Syntax.lean ====
section
/-! DEFINITION. The instruction set: one constructor for each of the 34 rows of spec/opcode_table.json, named by the
document's own instruction name (00_scope.md R13, 30_encoding.md R69). Its operands are the fields of the row. -/

namespace Sys2Proof

/-- An instruction. The operands `x`, `y` are register numbers, `nn` an 8-bit immediate, `nnn` a 12-bit
address and `n` a row count (R12, R67). -/
inductive Instr where
  /-- 00E0 clear-screen (R128). -/
  | clearScreen
  /-- 00EE return (R90). -/
  | ret
  /-- 1NNN jump (R91). -/
  | jump (nnn : BitVec 12)
  /-- 2NNN call (R92). -/
  | call (nnn : BitVec 12)
  /-- 3XNN skip-eq-imm (R97). -/
  | skipEqImm (x : RegIdx) (nn : Byte)
  /-- 4XNN skip-neq-imm (R98). -/
  | skipNeqImm (x : RegIdx) (nn : Byte)
  /-- 5XYN skip-eq-reg, N not decoded (R99, R72). -/
  | skipEqReg (x y : RegIdx)
  /-- 6XNN set-imm (R107). -/
  | setImm (x : RegIdx) (nn : Byte)
  /-- 7XNN add-imm (R108). -/
  | addImm (x : RegIdx) (nn : Byte)
  /-- 8XY0 set-reg (R109). -/
  | setReg (x y : RegIdx)
  /-- 8XY1 or (R110). -/
  | orReg (x y : RegIdx)
  /-- 8XY2 and (R111). -/
  | andReg (x y : RegIdx)
  /-- 8XY3 xor (R112). -/
  | xorReg (x y : RegIdx)
  /-- 8XY4 add-reg (R113). -/
  | addReg (x y : RegIdx)
  /-- 8XY5 sub-reg (R114). -/
  | subReg (x y : RegIdx)
  /-- 8XY6 shift-right (R115). -/
  | shiftRight (x y : RegIdx)
  /-- 8XY7 sub-reg reversed (R116). -/
  | subRegReversed (x y : RegIdx)
  /-- 8XYE shift-left (R117). -/
  | shiftLeft (x y : RegIdx)
  /-- 9XYN skip-neq-reg, N not decoded (R100, R72). -/
  | skipNeqReg (x y : RegIdx)
  /-- ANNN set-index (R120). -/
  | setIndex (nnn : BitVec 12)
  /-- BNNN jump-offset (R93): the row's fields `NNN` and `X` overlap, so `x` is the top nibble of `nnn` in a
  well-formed term. -/
  | jumpOffset (nnn : BitVec 12) (x : RegIdx)
  /-- CXNN random (R118). -/
  | random (x : RegIdx) (nn : Byte)
  /-- DXYN draw (R129). -/
  | draw (x y : RegIdx) (n : Fin 16)
  /-- EX9E skip-if-key-down (R101). -/
  | skipIfKeyDown (x : RegIdx)
  /-- EXA1 skip-if-key-up (R102). -/
  | skipIfKeyUp (x : RegIdx)
  /-- FX07 get-delay (R131). -/
  | getDelay (x : RegIdx)
  /-- FX0A wait-key (R134). -/
  | waitKey (x : RegIdx)
  /-- FX15 set-delay (R132). -/
  | setDelay (x : RegIdx)
  /-- FX18 set-sound (R133). -/
  | setSound (x : RegIdx)
  /-- FX1E add-index (R121). -/
  | addIndex (x : RegIdx)
  /-- FX29 font-char (R122). -/
  | fontChar (x : RegIdx)
  /-- FX33 bcd (R123). -/
  | bcd (x : RegIdx)
  /-- FX55 store-regs (R124). -/
  | storeRegs (x : RegIdx)
  /-- FX65 load-regs (R125). -/
  | loadRegs (x : RegIdx)
  deriving DecidableEq, Repr

end Sys2Proof
end

