-- ==== Sys2Proof/WellFormed.lean ====
section
/-! DEFINITION. Which instruction terms stand for a word. The operands' types already bound every field to its
width in 30_encoding.md R65; the one relation between two fields is that of BNNN, whose X is the top nibble of its own
NNN (41_flow.md R93). -/

namespace Sys2Proof

/-- The register number in bits 11:8 of a BNNN word, the top nibble of `NNN` (R93, R12). -/
def topNibble (nnn : BitVec 12) : RegIdx := (nnn.extractLsb' 8 4).toFin

/-- Does the term stand for an instruction word? -/
def Instr.wellFormed : Instr → Bool
  | .clearScreen => true
  | .ret => true
  | .jump _ => true
  | .call _ => true
  | .skipEqImm _ _ => true
  | .skipNeqImm _ _ => true
  | .skipEqReg _ _ => true
  | .setImm _ _ => true
  | .addImm _ _ => true
  | .setReg _ _ => true
  | .orReg _ _ => true
  | .andReg _ _ => true
  | .xorReg _ _ => true
  | .addReg _ _ => true
  | .subReg _ _ => true
  | .shiftRight _ _ => true
  | .subRegReversed _ _ => true
  | .shiftLeft _ _ => true
  | .skipNeqReg _ _ => true
  | .setIndex _ => true
  | .jumpOffset nnn x => x == topNibble nnn
  | .random _ _ => true
  | .draw _ _ _ => true
  | .skipIfKeyDown _ => true
  | .skipIfKeyUp _ => true
  | .getDelay _ => true
  | .waitKey _ => true
  | .setDelay _ => true
  | .setSound _ => true
  | .addIndex _ => true
  | .fontChar _ => true
  | .bcd _ => true
  | .storeRegs _ => true
  | .loadRegs _ => true

end Sys2Proof
end

