-- ==== Sys2Proof/Decode.lean ====
section
/-! DEFINITION. The decoder, total on every word, and the encoder (30_encoding.md R65 to R74).

Decoding is the two-level switch of R68: on the top nibble, and again on N for group 8 and on NN for groups 0, E and F.
A word no row of R69 assigns is rejected under the name of its group; the machine runs it as a no-op (R73). -/

namespace Sys2Proof

/-- Why a word stands for no instruction: the group whose second dispatch has no member for it (R74). -/
inductive Unassigned where
  /-- Group 0 with another key than E0 and EE. -/
  | group0
  /-- Group 8 with N in 8 to D, or F. -/
  | group8
  /-- Group E with NN other than 9E and A1. -/
  | groupE
  /-- Group F with NN outside its nine members. -/
  | groupF
  deriving DecidableEq, Repr

/-- What decoding a word answers. Decoding never fails otherwise (R73, R80). -/
inductive Decoded where
  /-- The word of an instruction. -/
  | instr (i : Instr)
  /-- An unassigned word, rejected by name. -/
  | unassigned (u : Unassigned)
  deriving DecidableEq, Repr

/-- `G = w[15:12]` (R12). -/
def fieldG (w : Word) : Fin 16 := (w.extractLsb' 12 4).toFin

/-- `X = w[11:8]` (R12). -/
def fieldX (w : Word) : RegIdx := (w.extractLsb' 8 4).toFin

/-- `Y = w[7:4]` (R12). -/
def fieldY (w : Word) : RegIdx := (w.extractLsb' 4 4).toFin

/-- `N = w[3:0]` (R12). -/
def fieldN (w : Word) : Fin 16 := (w.extractLsb' 0 4).toFin

/-- `NN = w[7:0]` (R12). -/
def fieldNN (w : Word) : Byte := w.extractLsb' 0 8

/-- `NNN = w[11:0]` (R12). -/
def fieldNNN (w : Word) : BitVec 12 := w.extractLsb' 0 12

/-- Group 0, keyed by NN or by the whole word (R71). -/
def decodeGroup0 (key : Group0Key) (w : Word) : Decoded :=
  let k : Word := match key with
    | .nn => (fieldNN w).toWord
    | .fullWord => w
  if k = 0x00E0 then .instr .clearScreen
  else if k = 0x00EE then .instr .ret
  else .unassigned .group0

/-- Group 8, keyed by N (R68, R69). -/
def decodeGroup8 (w : Word) : Decoded :=
  let x := fieldX w
  let y := fieldY w
  match fieldN w with
  | 0x0 => .instr (.setReg x y)
  | 0x1 => .instr (.orReg x y)
  | 0x2 => .instr (.andReg x y)
  | 0x3 => .instr (.xorReg x y)
  | 0x4 => .instr (.addReg x y)
  | 0x5 => .instr (.subReg x y)
  | 0x6 => .instr (.shiftRight x y)
  | 0x7 => .instr (.subRegReversed x y)
  | 0xE => .instr (.shiftLeft x y)
  | _ => .unassigned .group8

/-- Group E, keyed by NN (R68, R69). -/
def decodeGroupE (w : Word) : Decoded :=
  let nn := fieldNN w
  if nn = 0x9E then .instr (.skipIfKeyDown (fieldX w))
  else if nn = 0xA1 then .instr (.skipIfKeyUp (fieldX w))
  else .unassigned .groupE

/-- Group F, keyed by NN (R68, R69). -/
def decodeGroupF (w : Word) : Decoded :=
  let x := fieldX w
  let nn := fieldNN w
  if nn = 0x07 then .instr (.getDelay x)
  else if nn = 0x0A then .instr (.waitKey x)
  else if nn = 0x15 then .instr (.setDelay x)
  else if nn = 0x18 then .instr (.setSound x)
  else if nn = 0x1E then .instr (.addIndex x)
  else if nn = 0x29 then .instr (.fontChar x)
  else if nn = 0x33 then .instr (.bcd x)
  else if nn = 0x55 then .instr (.storeRegs x)
  else if nn = 0x65 then .instr (.loadRegs x)
  else .unassigned .groupF

/-- The instruction a word stands for (R68, R69). It reads no state but `GROUP0_KEY` (R77). The last arm is group F,
the one value of the nibble the arms before it leave. -/
def decode (key : Group0Key) (w : Word) : Decoded :=
  match fieldG w with
  | 0x0 => decodeGroup0 key w
  | 0x1 => .instr (.jump (fieldNNN w))
  | 0x2 => .instr (.call (fieldNNN w))
  | 0x3 => .instr (.skipEqImm (fieldX w) (fieldNN w))
  | 0x4 => .instr (.skipNeqImm (fieldX w) (fieldNN w))
  | 0x5 => .instr (.skipEqReg (fieldX w) (fieldY w))
  | 0x6 => .instr (.setImm (fieldX w) (fieldNN w))
  | 0x7 => .instr (.addImm (fieldX w) (fieldNN w))
  | 0x8 => decodeGroup8 w
  | 0x9 => .instr (.skipNeqReg (fieldX w) (fieldY w))
  | 0xA => .instr (.setIndex (fieldNNN w))
  | 0xB => .instr (.jumpOffset (fieldNNN w) (fieldX w))
  | 0xC => .instr (.random (fieldX w) (fieldNN w))
  | 0xD => .instr (.draw (fieldX w) (fieldY w) (fieldN w))
  | 0xE => decodeGroupE w
  | _ => decodeGroupF w

/-- The instruction word of two bytes in memory, the byte at the lower address in bits 15:8 (20_memory.md R53). -/
def wordOfBytes (hi lo : Byte) : Word := hi ++ lo

/-- Decoding two bytes in the order they lie in memory. -/
def decodeBytes (key : Group0Key) (hi lo : Byte) : Decoded := decode key (wordOfBytes hi lo)

/-- A word of format A (R66). -/
def packA (g : BitVec 4) (nnn : BitVec 12) : Word := g ++ nnn

/-- A word of format XK (R66), or of format X with the selector as `nn`. -/
def packXK (g : BitVec 4) (x : RegIdx) (nn : Byte) : Word := g ++ (BitVec.ofFin (w := 4) x ++ nn)

/-- A word of format XYN (R66), or of format XY with the selector, or 0 where N is not decoded, as `n`. -/
def packXYN (g : BitVec 4) (x y : RegIdx) (n : Fin 16) : Word :=
  g ++ (BitVec.ofFin (w := 4) x ++ (BitVec.ofFin (w := 4) y ++ BitVec.ofFin (w := 4) n))

/-- The word of a well-formed instruction (R69). Bits no row decodes are written 0: X of 00E0 and 00EE, N of 5XY0
and 9XY0 (R72). -/
def encode : Instr → Word
  | .clearScreen => 0x00E0
  | .ret => 0x00EE
  | .jump nnn => packA 0x1 nnn
  | .call nnn => packA 0x2 nnn
  | .skipEqImm x nn => packXK 0x3 x nn
  | .skipNeqImm x nn => packXK 0x4 x nn
  | .skipEqReg x y => packXYN 0x5 x y 0
  | .setImm x nn => packXK 0x6 x nn
  | .addImm x nn => packXK 0x7 x nn
  | .setReg x y => packXYN 0x8 x y 0x0
  | .orReg x y => packXYN 0x8 x y 0x1
  | .andReg x y => packXYN 0x8 x y 0x2
  | .xorReg x y => packXYN 0x8 x y 0x3
  | .addReg x y => packXYN 0x8 x y 0x4
  | .subReg x y => packXYN 0x8 x y 0x5
  | .shiftRight x y => packXYN 0x8 x y 0x6
  | .subRegReversed x y => packXYN 0x8 x y 0x7
  | .shiftLeft x y => packXYN 0x8 x y 0xE
  | .skipNeqReg x y => packXYN 0x9 x y 0
  | .setIndex nnn => packA 0xA nnn
  | .jumpOffset nnn _ => packA 0xB nnn
  | .random x nn => packXK 0xC x nn
  | .draw x y n => packXYN 0xD x y n
  | .skipIfKeyDown x => packXK 0xE x 0x9E
  | .skipIfKeyUp x => packXK 0xE x 0xA1
  | .getDelay x => packXK 0xF x 0x07
  | .waitKey x => packXK 0xF x 0x0A
  | .setDelay x => packXK 0xF x 0x15
  | .setSound x => packXK 0xF x 0x18
  | .addIndex x => packXK 0xF x 0x1E
  | .fontChar x => packXK 0xF x 0x29
  | .bcd x => packXK 0xF x 0x33
  | .storeRegs x => packXK 0xF x 0x55
  | .loadRegs x => packXK 0xF x 0x65

/-- The instruction the decoder reads, at the default `GROUP0_KEY`, from the word that spec/opcode_table.json
numbers `w`: one 16-bit word whose bits above `nbits` are 0. `none` where no row assigns the word. -/
def decodeTableWord (nbits w : Nat) : Option Instr :=
  match decode .nn (BitVec.ofNat 16 (w % 2 ^ nbits)) with
  | .instr i => some i
  | .unassigned _ => none

end Sys2Proof
end

