-- ==== Sys2Proof/Machine/State.lean ====
section
/-! DEFINITION. The state of the block (10_state.md R20 to R45), the reasons a step can stop (60_exceptions.md R141) and
the state after construction (R45, 70_reset_and_hazards.md R170). Plain data throughout. -/

namespace Sys2Proof.Machine

/-- Memory: the bytes that differ from what an unlisted address reads as, at strictly rising addresses
(Ops.lean `initialByte`, `Memory.wf`). -/
abbrev Memory := List Host.Cell

/-- The framebuffer, `FB_H` rows of `FB_W` pixels, row-major as the host is handed it (R37, R38); `true` is 1, on. -/
abbrev Framebuffer := List (List Bool)

/-- What an access to memory is for (R57). -/
inductive AccessKind where
  /-- The fetch of an instruction's byte. -/
  | fetch
  /-- A sprite row of DXYN or a register load of FX65. -/
  | read
  /-- A byte of FX33 or FX55. -/
  | write
  deriving DecidableEq, Repr

/-- The model faults of R141: the hardware has no trap (R140), and each of these marks behaviour the document
leaves undefined, so each is safe. `ia` is the address of the instruction and `w` its word: `none` for a fetch
fault, which has no word, and in what a meaning answers before the tick that fetched the word fills it in
(Scheduler.lean `tick`). -/
inductive Fault where
  /-- An access at or above `MEM_SIZE` under `OOB_POLICY` = `FAULT`: raised by every tick's fetch, by DXYN and FX65
  (read), by FX33 and FX55 (write) (R57, R80). Safe. -/
  | memOutOfRange (kind : AccessKind) (a : Nat) (ia : Nat) (w : Option Word)
  /-- A call with every entry in use, `sp` = `STACK_DEPTH`: raised by 2NNN (R92). Safe. -/
  | stackOverflow (ia : Nat) (w : Option Word)
  /-- A return with `sp` = 0: raised by 00EE (R90). Safe. -/
  | stackUnderflow (ia : Nat) (w : Option Word)
  /-- A key number at or above `NKEYS`: raised by EX9E and EXA1 (R101, R102). Safe. -/
  | keyIndexOutOfRange (k : Nat) (ia : Nat) (w : Option Word)
  deriving DecidableEq, Repr

/-- Why a step answers with no meaning. -/
inductive Refusal where
  /-- An instruction without a meaning: raised by no arm, every instruction has its own. Safe. -/
  | notModelled (mnemonic : String)
  /-- The host supplied a time below the previous poll's: raised by a poll. The host never does (R160). Safe. -/
  | hostTimeDecreased (now last : Nat)
  /-- The host sent a key number at or above `NKEYS`: raised by the step that takes that input. The host never does (R161).
  Safe. -/
  | keyNotOnKeypad (k : Nat)
  /-- A word whose instruction names a register at or above `NREGS`: raised by a tick, never at the default of 16. The spec states
  no rule there (log entry 32). Safe. -/
  | noSuchRegister (i : Instr)
  deriving DecidableEq, Repr

/-- An input of the host (R15, R159): it falls between polls, except the poll itself. -/
inductive HostInput where
  /-- `press(k)` (R41). -/
  | press (k : Nat)
  /-- `release(k)` (R41). -/
  | release (k : Nat)
  /-- One poll at host time `now`, in nanoseconds (R150, R151). -/
  | poll (now : Nat)
  deriving DecidableEq, Repr

/-- The state of the block. The sizes of its arrays and the widths of its registers are parameters of R5. A register is a natural
number that its accessors (Ops.lean) read and write modulo 2 to its width (00_scope.md R9); `Inv` (Safety.lean) says that sizes
and widths are kept. -/
structure State where
  /-- The `NREGS` general registers, V0 to VF, where VF is also the flag (R20, R21): `State.reg`. -/
  v : List Nat
  /-- The program counter (R23): `State.pc`. -/
  pcBits : Nat
  /-- The index register `I` (R26): `State.index`. -/
  indexBits : Nat
  /-- The entries of the call stack in use, 0 to `STACK_DEPTH` (R27). -/
  sp : Nat
  /-- The call stack's `STACK_DEPTH` entries (R27): `State.stackAt`. -/
  stack : List Nat
  /-- The delay timer `DT` (R30). -/
  dt : Byte
  /-- The sound timer `ST` (R31). -/
  st : Byte
  /-- Memory (R34). -/
  mem : Memory
  /-- The framebuffer (R37). -/
  fb : Framebuffer
  /-- The framebuffer's dirty flag (R39). -/
  dirty : Bool
  /-- The keys currently pressed, one entry a key (R40). -/
  down : List Bool
  /-- The keys that went down since the last cycle tick (R40, R42). -/
  pressedEdge : List Bool
  /-- The keys that went up since the last cycle tick (R40, R42). -/
  releasedEdge : List Bool
  /-- The cpu clock's firing count (R43). -/
  kCpu : Nat
  /-- The timer clock's firing count (R43). -/
  kTimer : Nat
  /-- The frame clock's firing count (R43). -/
  kFrame : Nat
  /-- The host's time at construction, in nanoseconds (R43, R157). -/
  t0 : Nat
  /-- The time of the previous poll, `t0` before the first: what R151 and R160 compare a poll's time with. -/
  lastNow : Nat
  /-- The fault the run ended in, if any (R44). -/
  fault : Option Fault
  /-- The parameters, fixed for the run (R5, R32). -/
  cfg : Params
  /-- The model's own: the host's inputs still to come, oldest first (R15; log entry 11). -/
  hostInputs : List HostInput
  /-- The model's own: the random bytes drawn so far (R118; log entry 13). -/
  draws : Nat
  /-- The model's own: the random bytes the host has supplied and no instruction has drawn, oldest first (R15, R162; log entry
  13). -/
  hostBytes : List Byte
  /-- The model's own: the `Repaint` event the latest step emitted, with the framebuffer it handed over (R154; log
  entry 15). -/
  repaint : Option Framebuffer
  deriving DecidableEq, Repr

/-- The parameters at reset: the spec's defaults, and `false` for the two switches the spec leaves open (R5; log
entry 4). -/
def resetParams : Params := { classicMode := false, indexOverflowFlag := false }

/-- The registers and arrays after construction (R45, R170): `pc` at `PROG_BASE`, every other register 0, the screen off, no
key down, no clock fired; nothing listed in memory. `t0` is the host's; log entry 9 names the 0 here. -/
def State.constructed (cfg : Params) : State where
  v := List.replicate cfg.nRegs 0
  pcBits := cfg.progBase % 2 ^ cfg.pcW
  indexBits := 0
  sp := 0
  stack := List.replicate cfg.stackDepth 0
  dt := 0
  st := 0
  mem := []
  fb := List.replicate cfg.fbHeight (List.replicate cfg.fbWidth false)
  dirty := false
  down := List.replicate cfg.nKeys false
  pressedEdge := List.replicate cfg.nKeys false
  releasedEdge := List.replicate cfg.nKeys false
  kCpu := 0
  kTimer := 0
  kFrame := 0
  t0 := 0
  lastNow := 0
  fault := none
  cfg := cfg
  hostInputs := []
  draws := 0
  hostBytes := []
  repaint := none

/-- The state after construction at the default parameters with no image loaded: memory is font-only (R45, R170, R172). -/
def State.reset : State := State.constructed resetParams

end Sys2Proof.Machine
end

