-- ==== Sys2Proof/Machine/Ops.lean ====
section
/-! DEFINITION. The named operations over memory, registers, the call stack and the framebuffer, and the one way a fault
is raised.

The hardware takes no exception and has no return from one (60_exceptions.md R140, R145), so there is no entry operation:
`raise` of R11 is the constructor of `Fault` with the address `State.ia`, and `finish` ends a meaning with it. -/

namespace Sys2Proof.Machine

/-! ## Memory -/

/-- `FONT` at its default, the 80 bytes of the atlas (10_state.md R36). -/
def fontAtlas : List Byte :=
  [0xF0, 0x90, 0x90, 0x90, 0xF0] ++ [0x20, 0x60, 0x20, 0x20, 0x70] ++
  [0xF0, 0x10, 0xF0, 0x80, 0xF0] ++ [0xF0, 0x10, 0xF0, 0x10, 0xF0] ++
  [0x90, 0x90, 0xF0, 0x10, 0x10] ++ [0xF0, 0x80, 0xF0, 0x10, 0xF0] ++
  [0xF0, 0x80, 0xF0, 0x90, 0xF0] ++ [0xF0, 0x10, 0x20, 0x40, 0x40] ++
  [0xF0, 0x90, 0xF0, 0x90, 0xF0] ++ [0xF0, 0x90, 0xF0, 0x10, 0xF0] ++
  [0xF0, 0x90, 0xF0, 0x90, 0x90] ++ [0xE0, 0x90, 0xE0, 0x90, 0xE0] ++
  [0xF0, 0x80, 0x80, 0x80, 0xF0] ++ [0xE0, 0x90, 0x90, 0x90, 0xE0] ++
  [0xF0, 0x80, 0xF0, 0x80, 0xF0] ++ [0xF0, 0x80, 0xF0, 0x80, 0x80]

/-- What an unlisted address reads as: memory with the font at its default place and no image, 0 elsewhere (R35, R59). A launch
with other parameters writes what differs (log entry 18). -/
def initialByte (a : Nat) : Byte :=
  if Config.fontBase ≤ a ∧ a < Config.fontBase + Config.glyphs * Config.glyphBytes then
    fontAtlas.getD (a - Config.fontBase) 0
  else 0

/-- The byte at an address (R34, R60). -/
def Memory.read : Memory → Nat → Byte
  | [], a => initialByte a
  | (k, b) :: m, a => if k = a then b else Memory.read m a

/-- The memory without an entry at `a`, where it then reads as it did at reset. -/
def Memory.erase : Memory → Nat → Memory
  | [], _ => []
  | (k, b) :: m, a => if k = a then Memory.erase m a else (k, b) :: Memory.erase m a

/-- The memory with the entry `(a, b)` in its place. -/
def Memory.insert : Memory → Nat → Byte → Memory
  | [], a, b => [(a, b)]
  | (k, c) :: m, a, b =>
    if a < k then (a, b) :: (k, c) :: m
    else if a = k then (a, b) :: m
    else (k, c) :: Memory.insert m a b

/-- The memory after byte `b` is written at `a` (R34, R60), in canonical form. -/
def Memory.write (m : Memory) (a : Nat) (b : Byte) : Memory :=
  if b = initialByte a then Memory.erase m a else Memory.insert m a b

/-- The memory after a list of bytes is written at `a`, `a + 1`, … in ascending order. -/
def Memory.writeAll : Memory → Nat → List Byte → Memory
  | m, _, [] => m
  | m, a, b :: bs => Memory.writeAll (Memory.write m a b) (a + 1) bs

/-- Every address of the memory is at least `lo`, they rise strictly and are below `size`, and no entry is what an unlisted
address reads as. -/
def Memory.wfFrom (size : Nat) : Nat → Memory → Bool
  | _, [] => true
  | lo, (k, b) :: m =>
    decide (lo ≤ k) && decide (k < size) && decide (b ≠ initialByte k) && Memory.wfFrom size (k + 1) m

/-- A memory of `size` bytes is in canonical form. -/
def Memory.wf (m : Memory) (size : Nat) : Bool := Memory.wfFrom size 0 m

/-! ## Arrays -/

/-- The array with `a` at place `n`; a place past its end is made, the places before it filled with `d`. Within its size, which
`Inv` says an array of State keeps, this is an assignment. -/
def writeAt {α : Type} (d : α) : List α → Nat → α → List α
  | [], 0, a => [a]
  | [], n + 1, a => d :: writeAt d [] n a
  | _ :: l, 0, a => a :: l
  | b :: l, n + 1, a => b :: writeAt d l n a

/-! ## Registers

A write truncates to the register's width and so does a read (00_scope.md R9): a number of State above that width, which `Inv`
rules out, is its low bits. -/

/-- `V[x]` (R9). -/
def State.reg (s : State) (x : Nat) : Nat := s.v.getD x 0 % 2 ^ s.cfg.regW

/-- `V[x] <- n` (R9). -/
def State.setReg (s : State) (x n : Nat) : State := { s with v := writeAt 0 s.v x (n % 2 ^ s.cfg.regW) }

/-- `V[x]` as a byte for memory or a timer, truncated to its 8 bits (R8). -/
def State.regByte (s : State) (x : Nat) : Byte := BitVec.ofNat 8 (s.reg x)

/-- `pc` (R9). -/
def State.pc (s : State) : Nat := s.pcBits % 2 ^ s.cfg.pcW

/-- `pc <- a` (R9). -/
def State.setPc (s : State) (a : Nat) : State := { s with pcBits := a % 2 ^ s.cfg.pcW }

/-- `I` (R9). -/
def State.index (s : State) : Nat := s.indexBits % 2 ^ s.cfg.iW

/-- `I <- a` (R9). -/
def State.setIndex (s : State) (a : Nat) : State := { s with indexBits := a % 2 ^ s.cfg.iW }

/-- `DT <- b` (R9). -/
def State.setDt (s : State) (b : Byte) : State := { s with dt := b }

/-- `ST <- b` (R9). -/
def State.setSt (s : State) (b : Byte) : State := { s with st := b }

/-- `sp <- n` (R9). -/
def State.setSp (s : State) (n : Nat) : State := { s with sp := n }

/-- `pc <- pc + 2`: the advance of every tick and of a skip (30_encoding.md R78, 42_skips.md). -/
def State.advance (s : State) : State := s.setPc (s.pc + 2)

/-- The address of the instruction that is executing, `pc - 2` modulo 2 to the width of `pc`: `pc` already stands past it (R78). -/
def State.ia (s : State) : Nat := (s.pc + 2 ^ s.cfg.pcW - 2) % 2 ^ s.cfg.pcW

/-! ## Faults -/

/-- The fault with the word of the instruction that raised it (R141); a fetch fault has none. -/
def Fault.withWord : Fault → Word → Fault
  | .memOutOfRange .fetch a ia w, _ => .memOutOfRange .fetch a ia w
  | .memOutOfRange .read a ia _, w => .memOutOfRange .read a ia (some w)
  | .memOutOfRange .write a ia _, w => .memOutOfRange .write a ia (some w)
  | .stackOverflow ia _, w => .stackOverflow ia (some w)
  | .stackUnderflow ia _, w => .stackUnderflow ia (some w)
  | .keyIndexOutOfRange k ia _, w => .keyIndexOutOfRange k ia (some w)

/-- A meaning's outcome: the state it reached, or the fault it raised (R11). -/
def finish : Except Fault State → Host.Outcome State Fault Refusal
  | .ok s => .next s
  | .error f => .fault f

/-- An outcome whose next state is carried on by `g`; a fault or a refusal ends there. -/
def mapNext (g : State → State) : Host.Outcome State Fault Refusal → Host.Outcome State Fault Refusal
  | .next s => .next (g s)
  | .fault f => .fault f
  | .refused r => .refused r

/-! ## The host's side and the scheduler -/

/-- The state with the inputs still to come. -/
def State.setInputs (s : State) (inputs : List HostInput) : State := { s with hostInputs := inputs }

/-- The state at the start of a step, which has emitted no repaint event yet. -/
def State.clearRepaint (s : State) : State := { s with repaint := none }

/-- The state after a poll at time `now`. -/
def State.setLastNow (s : State) (now : Nat) : State := { s with lastNow := now }

/-- The cpu clock has fired once more (R151). -/
def State.countCpu (s : State) : State := { s with kCpu := s.kCpu + 1 }

/-- The timer clock has fired once more (R151). -/
def State.countTimer (s : State) : State := { s with kTimer := s.kTimer + 1 }

/-- The frame clock has fired once more (R151). -/
def State.countFrame (s : State) : State := { s with kFrame := s.kFrame + 1 }

/-! ## Keypad -/

/-- `down[k]` (R9, R40). -/
def State.keyDown (s : State) (k : Nat) : Bool := s.down.getD k false

/-- `pressedEdge[k]` (R9, R40). -/
def State.keyPressed (s : State) (k : Nat) : Bool := s.pressedEdge.getD k false

/-- `releasedEdge[k]`: `wasReleasedThisTick(k)` of the keypad's interface, which nothing in the block reads (R9, R40). -/
def State.keyReleased (s : State) (k : Nat) : Bool := s.releasedEdge.getD k false

/-! ## Call stack -/

/-- `stack[j]`, a pushed `pc` (R9, R27). -/
def State.stackAt (s : State) (j : Nat) : Nat := s.stack.getD j 0 % 2 ^ s.cfg.pcW

/-- `stack[j] <- a` (R9, R27). -/
def State.setStack (s : State) (j a : Nat) : State := { s with stack := writeAt 0 s.stack j (a % 2 ^ s.cfg.pcW) }

/-- Push, "write-then-increment" (R28): `stack[sp] <- pc; sp <- sp + 1`, where an entry is free. -/
def State.push (s : State) : Except Fault State :=
  if s.sp < s.cfg.stackDepth then .ok ((s.setStack s.sp s.pc).setSp (s.sp + 1))
  else .error (.stackOverflow s.ia none)

/-- Pop, "decrement-then-read" (R28): `sp <- sp - 1; pc <- stack[sp]`, where an entry is in use. The entry is not
cleared (R90). -/
def State.pop (s : State) : Except Fault State :=
  match s.sp with
  | 0 => .error (.stackUnderflow s.ia none)
  | n + 1 => .ok ((s.setSp n).setPc (s.stackAt n))

/-! ## Memory accesses of a state -/

/-- The byte that memory holds at address `a`. -/
def State.byteAt (s : State) (a : Nat) : Byte := s.mem.read a

/-- The state with byte `b` stored at address `a`. -/
def State.setByte (s : State) (a : Nat) (b : Byte) : State := { s with mem := s.mem.write a b }

/-- The address an access to `a` reaches: `a` below `MEM_SIZE`; above it, a fault or `a` modulo `MEM_SIZE` by
`OOB_POLICY` (20_memory.md R57). -/
def State.resolve (s : State) (kind : AccessKind) (ia a : Nat) : Except Fault Nat :=
  if a < s.cfg.memSize then .ok a
  else match s.cfg.oobPolicy with
    | .fault => .error (.memOutOfRange kind a ia none)
    | .wrap => .ok (a % s.cfg.memSize)

/-- `MemRead(a, 1)` (R10, R57). -/
def State.memRead (s : State) (kind : AccessKind) (ia a : Nat) : Except Fault Byte :=
  match s.resolve kind ia a with
  | .ok k => .ok (s.byteAt k)
  | .error f => .error f

/-- `MemWrite(a, 1, b)` (R10, R57). -/
def State.memWrite (s : State) (a : Nat) (b : Byte) : Except Fault State :=
  match s.resolve .write s.ia a with
  | .ok k => .ok (s.setByte k b)
  | .error f => .error f

/-- Bytes stored at `a`, `a + 1`, … one access each in ascending order (R54); the first out of range faults. -/
def State.storeBytes : State → Nat → List Byte → Except Fault State
  | s, _, [] => .ok s
  | s, a, b :: bs =>
    match s.memWrite a b with
    | .ok s' => State.storeBytes s' (a + 1) bs
    | .error f => .error f

/-- Registers loaded from `a`, `a + 1`, … one access each in ascending order (R54); the first out of range faults. -/
def State.loadBytes : State → Nat → List Nat → Except Fault State
  | s, _, [] => .ok s
  | s, a, x :: xs =>
    match s.memRead .read s.ia a with
    | .ok b => State.loadBytes (s.setReg x b.toNat) (a + 1) xs
    | .error f => .error f

/-- The instruction word at `pc`: its two bytes big-endian, the byte at `pc` checked first (R53, R57, R76). -/
def State.fetch (s : State) : Except Fault Word :=
  match s.memRead .fetch s.pc s.pc with
  | .error f => .error f
  | .ok hi =>
    match s.memRead .fetch s.pc (s.pc + 1) with
    | .error f => .error f
    | .ok lo => .ok (wordOfBytes hi lo)

/-! ## Framebuffer -/

/-- The pixel at column `x` of row `y` of a framebuffer; off outside it. -/
def Framebuffer.pixel (fb : Framebuffer) (x y : Nat) : Bool := (fb.getD y []).getD x false

/-- `FB[x][y]` (R37). -/
def State.pixel (s : State) (x y : Nat) : Bool := Framebuffer.pixel s.fb x y

/-- The state after `togglePixel(x, y)`; the value that call returns is the new `pixel x y` (45_display.md R127). -/
def State.togglePixel (s : State) (x y : Nat) : State :=
  { s with fb := writeAt [] s.fb y (writeAt false (s.fb.getD y []) x (!s.pixel x y)), dirty := true }

/-- `clear()` (R127). -/
def State.clearFrame (s : State) : State :=
  { s with fb := List.replicate s.cfg.fbHeight (List.replicate s.cfg.fbWidth false), dirty := true }

/-- The framebuffer as the host is handed it: `FB_W` × `FB_H` cells, row-major, each all zeros or all ones (R38). -/
def exportedCells (cfg : Params) (fb : Framebuffer) : List (BitVec 32) :=
  (List.range cfg.fbHeight).flatMap fun y =>
    (List.range cfg.fbWidth).map fun x => if Framebuffer.pixel fb x y then 0xFFFFFFFF else 0

/-- Whether the sound timer is running, as the host is told (R165). -/
def State.soundOn (s : State) : Bool := decide (0 < s.st.toNat)

end Sys2Proof.Machine
end

