-- ==== Sys2Proof/Machine/Operands.lean ====
section
/-! DEFINITION. The operand forms: the index-relative address of every data access (44_index_memory.md R126), the register
lists of FX55 and FX65, the sources `CLASSIC_MODE` selects, the decimal digits of FX33, the coordinates of DXYN, and the
registers an instruction names. -/

namespace Sys2Proof.Machine

/-- The effective address `I + k`, a natural number without truncation (20_memory.md R56, R126). -/
def State.indexPlus (s : State) (k : Nat) : Nat := s.index + k

/-- V0 to V[x] in ascending order, the operand of FX55 and FX65 (R124, R125). -/
def regsUpTo (x : RegIdx) : List Nat := List.range (x.val + 1)

/-- The state a shift works on: in classic mode V[x] is overwritten by V[y] first (43_alu.md R115, R117). -/
def State.shiftCopy (s : State) (x y : RegIdx) : State :=
  if s.cfg.classicMode then s.setReg x (s.reg y) else s

/-- The register a jump-offset adds: V0 in classic mode, else V[x] (41_flow.md R93). -/
def State.jumpRegister (s : State) (x : RegIdx) : Nat := if s.cfg.classicMode then 0 else x

/-- The state after FX55 or FX65 has moved its bytes: in classic mode `I` advances by x + 1 (R124, R125). -/
def State.classicAdvance (s : State) (x : RegIdx) : State :=
  if s.cfg.classicMode then s.setIndex (s.index + (x.val + 1)) else s

/-- The hundreds, tens and units of a register's value, each as a byte (R123). -/
def decimalDigits (v : Nat) : List Byte :=
  [BitVec.ofNat 8 (v / 100), BitVec.ofNat 8 (v / 10 % 10), BitVec.ofNat 8 (v % 10)]

/-- A sprite's starting column, V[x] masked to the framebuffer's width (45_display.md R129). -/
def State.startX (s : State) (x : RegIdx) : Nat := s.reg x &&& (s.cfg.fbWidth - 1)

/-- A sprite's starting row, V[y] masked to the framebuffer's height (R129). -/
def State.startY (s : State) (y : RegIdx) : Nat := s.reg y &&& (s.cfg.fbHeight - 1)

/-- The registers an instruction reads or writes by a number of its own (10_state.md R22); of V0 to V[x] the highest stands for
all. -/
def namedRegs (cfg : Params) : Instr → List RegIdx
  | .clearScreen => []
  | .ret => []
  | .jump _ => []
  | .call _ => []
  | .skipEqImm x _ => [x]
  | .skipNeqImm x _ => [x]
  | .skipEqReg x y => [x, y]
  | .setImm x _ => [x]
  | .addImm x _ => [x]
  | .setReg x y => [x, y]
  | .orReg x y => [x, y]
  | .andReg x y => [x, y]
  | .xorReg x y => [x, y]
  | .addReg x y => [x, y]
  | .subReg x y => [x, y]
  | .shiftRight x y => if cfg.classicMode then [x, y] else [x]
  | .subRegReversed x y => [x, y]
  | .shiftLeft x y => if cfg.classicMode then [x, y] else [x]
  | .skipNeqReg x y => [x, y]
  | .setIndex _ => []
  | .jumpOffset _ x => if cfg.classicMode then [0] else [x]
  | .random x _ => [x]
  | .draw x y _ => [x, y]
  | .skipIfKeyDown x => [x]
  | .skipIfKeyUp x => [x]
  | .getDelay x => [x]
  | .waitKey x => [x]
  | .setDelay x => [x]
  | .setSound x => [x]
  | .addIndex x => [x]
  | .fontChar x => [x]
  | .bcd x => [x]
  | .storeRegs x => [x]
  | .loadRegs x => [x]

/-- The block has every register the instruction names: always so with the default 16 (R5, R20). -/
def registersPresent (cfg : Params) (i : Instr) : Bool := (namedRegs cfg i).all fun r => decide (r.val < cfg.nRegs)

end Sys2Proof.Machine
end

