-- ==== Sys2Proof/Machine/Flags.lean ====
section
/-! DEFINITION. The flag computations of 10_state.md R29 and the two orders in which a result and its flag are written
(43_alu.md R106). The machine has one flag, VF. -/

namespace Sys2Proof.Machine

/-- `VF <- 1` or `VF <- 0` (R29). -/
def State.setFlag (s : State) (b : Bool) : State := s.setReg s.cfg.flagReg b.toNat

/-- Carry of an addition of `w`-bit registers: the exact sum is above the greatest value, 255 (R105, R113). -/
def carry (w a b : Nat) : Bool := decide (2 ^ w - 1 < a + b)

/-- No-borrow of `a - b`: `a ≥ b` (R105, R114, R116). -/
def noBorrow (a b : Nat) : Bool := decide (b ≤ a)

/-- `a - b` of `w`-bit registers, modulo 2 to their width (R105, R114, R116). -/
def difference (w a b : Nat) : Nat := (a + 2 ^ w - b) % 2 ^ w

/-- The bit a right shift moves out, bit 0 (R115). -/
def bitOutRight (a : Nat) : Bool := a.testBit 0

/-- The bit a left shift moves out of a `w`-bit register, its highest, bit 7 (R117). -/
def bitOutLeft (w a : Nat) : Bool := a.testBit (w - 1)

/-- Whether an index lies above the 12-bit addressable range (44_index_memory.md R121). -/
def aboveRange (a : Nat) : Bool := decide (0xFFF < a)

/-- A result written to V[x] and a flag to VF, by `VF_ORDER` (R106): `FLAG_LAST` computes both from the state as it
is; `TEXT_ORDER` writes the flag, then computes the result from the state that leaves. -/
def State.writeFlagged (s : State) (x : RegIdx) (result : State → Nat) (flag : State → Bool) : State :=
  match s.cfg.vfOrder with
  | .flagLast => (s.setReg x (result s)).setFlag (flag s)
  | .textOrder =>
    let s1 := s.setFlag (flag s)
    s1.setReg x (result s1)

end Sys2Proof.Machine
end

