-- ==== Sys2Proof/Machine/Alu.lean ====
section
/-! DEFINITION. Register arithmetic, logic, shifts and random (43_alu.md R105 to R119). No meaning here faults or
touches `pc`. -/

namespace Sys2Proof.Machine

/-- 6XNN: `V[X] <- NN` (R107). -/
def execSetImm (x : RegIdx) (nn : Byte) (s : State) : Host.Outcome State Fault Refusal :=
  .next (s.setReg x nn.toNat)

/-- 7XNN: `V[X] <- (V[X] + NN) mod 256`, 256 being 2 to the register's width here and below (R5); the carry is discarded (R108). -/
def execAddImm (x : RegIdx) (nn : Byte) (s : State) : Host.Outcome State Fault Refusal :=
  .next (s.setReg x (s.reg x + nn.toNat))

/-- 8XY0: `V[X] <- V[Y]` (R109). -/
def execSetReg (x y : RegIdx) (s : State) : Host.Outcome State Fault Refusal :=
  .next (s.setReg x (s.reg y))

/-- 8XY1: `V[X] <- V[X] | V[Y]` (R110). -/
def execOr (x y : RegIdx) (s : State) : Host.Outcome State Fault Refusal :=
  .next (s.setReg x (s.reg x ||| s.reg y))

/-- 8XY2: `V[X] <- V[X] & V[Y]` (R111). -/
def execAnd (x y : RegIdx) (s : State) : Host.Outcome State Fault Refusal :=
  .next (s.setReg x (s.reg x &&& s.reg y))

/-- 8XY3: `V[X] <- V[X] ^ V[Y]` (R112). -/
def execXor (x y : RegIdx) (s : State) : Host.Outcome State Fault Refusal :=
  .next (s.setReg x (s.reg x ^^^ s.reg y))

/-- 8XY4: `V[X] <- (V[X] + V[Y]) mod 256`, then VF <- carry, last whatever `VF_ORDER` is (R113). -/
def execAddReg (x y : RegIdx) (s : State) : Host.Outcome State Fault Refusal :=
  .next ((s.setReg x (s.reg x + s.reg y)).setFlag (carry s.cfg.regW (s.reg x) (s.reg y)))

/-- 8XY5: `V[X] <- (V[X] - V[Y]) mod 256` with VF the no-borrow, in `VF_ORDER` (R114). -/
def execSubReg (x y : RegIdx) (s : State) : Host.Outcome State Fault Refusal :=
  .next (s.writeFlagged x (fun t => difference t.cfg.regW (t.reg x) (t.reg y)) (fun t => noBorrow (t.reg x) (t.reg y)))

/-- 8XY6: the operand shifted right by one with VF the bit moved out, in `VF_ORDER`; in classic mode V[X] is V[Y]
first (R115). -/
def execShiftRight (x y : RegIdx) (s : State) : Host.Outcome State Fault Refusal :=
  .next ((s.shiftCopy x y).writeFlagged x (fun t => t.reg x >>> 1) (fun t => bitOutRight (t.reg x)))

/-- 8XY7: `V[X] <- (V[Y] - V[X]) mod 256` with VF the no-borrow, in `VF_ORDER` (R116). -/
def execSubRegReversed (x y : RegIdx) (s : State) : Host.Outcome State Fault Refusal :=
  .next (s.writeFlagged x (fun t => difference t.cfg.regW (t.reg y) (t.reg x)) (fun t => noBorrow (t.reg y) (t.reg x)))

/-- 8XYE: the operand shifted left by one with VF the bit moved out, in `VF_ORDER`; in classic mode V[X] is V[Y]
first (R117). -/
def execShiftLeft (x y : RegIdx) (s : State) : Host.Outcome State Fault Refusal :=
  .next ((s.shiftCopy x y).writeFlagged x (fun t => t.reg x <<< 1) (fun t => bitOutLeft t.cfg.regW (t.reg x)))

/-- The byte the host's random source delivers next: the oldest it has supplied, or a free value where State lists none (R118,
R162; log entry 13). -/
def State.nextByte (s : State) : Byte := s.hostBytes.headD (Config.freeByte s.draws)

/-- The state that has drawn that byte (R118). -/
def State.countDraw (s : State) : State := { s with draws := s.draws + 1, hostBytes := s.hostBytes.tail }

/-- CXNN: `V[X] <- r & NN` for a drawn byte r (R118). -/
def execRandom (x : RegIdx) (nn : Byte) (s : State) : Host.Outcome State Fault Refusal :=
  .next (s.countDraw.setReg x (s.nextByte &&& nn).toNat)

end Sys2Proof.Machine
end

