-- ==== Sys2Proof/Machine/Display.lean ====
section
/-! DEFINITION. Clear-screen and the sprite rasterizer (45_display.md R127 to R130). -/

namespace Sys2Proof.Machine

/-- 00E0: `clear()`; VF is unchanged (R128). -/
def execClearScreen (s : State) : Host.Outcome State Fault Refusal := .next s.clearFrame

/-- One set sprite bit: toggle the pixel; if that turned it off, VF <- 1 (R129). -/
def State.plot (s : State) (x y : Nat) : State :=
  let s1 := s.togglePixel x y
  if s1.pixel x y then s1 else s1.setFlag true

/-- The `k` low bits of a sprite byte drawn from column `x` of row `y`, most significant first; a column at or past
the framebuffer's width stops the row (R129). -/
def State.drawBits (b : Byte) (y : Nat) : Nat → Nat → State → State
  | 0, _, s => s
  | k + 1, x, s =>
    if x < s.cfg.fbWidth then State.drawBits b y k (x + 1) (if b.getLsbD k then s.plot x y else s)
    else s

/-- `n` sprite rows from sprite row `r` at framebuffer row `y`. `col` gives a row's starting column in the state that
row starts from; a row at or past the framebuffer's height ends the instruction before its byte is read (R129). -/
def State.drawRows (col : State → Nat) : Nat → Nat → Nat → State → Except Fault State
  | 0, _, _, s => .ok s
  | n + 1, r, y, s =>
    if y < s.cfg.fbHeight then
      match s.memRead .read s.ia (s.indexPlus r) with
      | .ok b => State.drawRows col n (r + 1) (y + 1) (State.drawBits b y 8 (col s) s)
      | .error f => .error f
    else .ok s

/-- DXYN: draws N sprite rows from memory at I. `TEXT_ORDER` resets VF and then reads V[Y], and V[X] again for each
row; `LATCH_FIRST` reads both coordinates before the reset (R129). -/
def execDraw (x y : RegIdx) (n : Fin 16) (s : State) : Host.Outcome State Fault Refusal :=
  let s0 := s.setFlag false
  finish (match s.cfg.drawOrder with
    | .textOrder => State.drawRows (fun t => t.startX x) n.val 0 (s0.startY y) s0
    | .latchFirst => State.drawRows (fun _ => s.startX x) n.val 0 (s.startY y) s0)

end Sys2Proof.Machine
end

