-- ==== Sys2Proof/Machine/Flow.lean ====
section
/-! DEFINITION. Control transfer: return, jump, call, jump-offset (41_flow.md R90 to R94). Each meaning starts from the
state whose `pc` already stands past the instruction (30_encoding.md R78). -/

namespace Sys2Proof.Machine

/-- 00EE: pops the return address into `pc`; an empty stack faults (R90). -/
def execRet (s : State) : Host.Outcome State Fault Refusal := finish s.pop

/-- 1NNN: `pc <- zext_16(NNN)` (R91). -/
def execJump (nnn : BitVec 12) (s : State) : Host.Outcome State Fault Refusal :=
  .next (s.setPc nnn.toNat)

/-- 2NNN: pushes the address of the next instruction, then jumps; a full stack faults (R92). -/
def execCall (nnn : BitVec 12) (s : State) : Host.Outcome State Fault Refusal :=
  finish (match s.push with
    | .ok s' => .ok (s'.setPc nnn.toNat)
    | .error f => .error f)

/-- BNNN: `pc <- zext_16(NNN) + V[0]` in classic mode, `+ V[X]` otherwise, not truncated to 12 bits (R93). -/
def execJumpOffset (nnn : BitVec 12) (x : RegIdx) (s : State) : Host.Outcome State Fault Refusal :=
  .next (s.setPc (nnn.toNat + s.reg (s.jumpRegister x)))

end Sys2Proof.Machine
end

