-- ==== Sys2Proof/Machine/IndexMemory.lean ====
section
/-! DEFINITION. The index register and the memory transfers (44_index_memory.md R120 to R126). -/

namespace Sys2Proof.Machine

/-- ANNN: `I <- zext_16(NNN)` (R120). -/
def execSetIndex (nnn : BitVec 12) (s : State) : Host.Outcome State Fault Refusal :=
  .next (s.setIndex nnn.toNat)

/-- FX1E: `I <- (I + V[X]) mod 2^16`; with `INDEX_OVERFLOW_FLAG`, VF <- 1 if the new `I` is above 0xFFF, and VF is
never cleared (R121). -/
def execAddIndex (x : RegIdx) (s : State) : Host.Outcome State Fault Refusal :=
  let a := (s.index + s.reg x) % 2 ^ s.cfg.iW
  .next (if s.cfg.indexOverflowFlag && aboveRange a then (s.setIndex a).setFlag true else s.setIndex a)

/-- FX29: `I <- FONT_BASE + V[X] * GLYPH_BYTES`, V[X] not masked (R122). -/
def execFontChar (x : RegIdx) (s : State) : Host.Outcome State Fault Refusal :=
  .next (s.setIndex (s.cfg.fontBase + s.reg x * s.cfg.glyphBytes))

/-- FX33: the decimal digits of V[X] stored at I, I + 1, I + 2 (R123). -/
def execBcd (x : RegIdx) (s : State) : Host.Outcome State Fault Refusal :=
  finish (s.storeBytes (s.indexPlus 0) (decimalDigits (s.reg x)))

/-- FX55: V0 to V[X] stored from I; in classic mode `I` advances by X + 1 (R124). -/
def execStoreRegs (x : RegIdx) (s : State) : Host.Outcome State Fault Refusal :=
  finish (match s.storeBytes (s.indexPlus 0) ((regsUpTo x).map s.regByte) with
    | .ok s' => .ok (s'.classicAdvance x)
    | .error f => .error f)

/-- FX65: V0 to V[X] loaded from I; in classic mode `I` advances by X + 1 (R125). -/
def execLoadRegs (x : RegIdx) (s : State) : Host.Outcome State Fault Refusal :=
  finish (match s.loadBytes (s.indexPlus 0) (regsUpTo x) with
    | .ok s' => .ok (s'.classicAdvance x)
    | .error f => .error f)

end Sys2Proof.Machine
end

