-- ==== Sys2Proof/Machine/Skips.lean ====
section
/-! DEFINITION. The conditional skips (42_skips.md R97 to R103): each adds 2 to the `pc` that already stands past it. -/

namespace Sys2Proof.Machine

/-- A skip taken or not (R103). -/
def State.skipIf (s : State) (c : Bool) : State := if c then s.advance else s

/-- 3XNN: skips if V[X] = NN (R97). -/
def execSkipEqImm (x : RegIdx) (nn : Byte) (s : State) : Host.Outcome State Fault Refusal :=
  .next (s.skipIf (s.reg x == nn.toNat))

/-- 4XNN: skips if V[X] ≠ NN (R98). -/
def execSkipNeqImm (x : RegIdx) (nn : Byte) (s : State) : Host.Outcome State Fault Refusal :=
  .next (s.skipIf (s.reg x != nn.toNat))

/-- 5XYN: skips if V[X] = V[Y] (R99). -/
def execSkipEqReg (x y : RegIdx) (s : State) : Host.Outcome State Fault Refusal :=
  .next (s.skipIf (s.reg x == s.reg y))

/-- 9XYN: skips if V[X] ≠ V[Y] (R100). -/
def execSkipNeqReg (x y : RegIdx) (s : State) : Host.Outcome State Fault Refusal :=
  .next (s.skipIf (s.reg x != s.reg y))

/-- The key the register numbers, or the fault of a number at or above `NKEYS` (R101). -/
def State.keyOf (s : State) (x : RegIdx) : Except Fault Nat :=
  if s.reg x < s.cfg.nKeys then .ok (s.reg x)
  else .error (.keyIndexOutOfRange (s.reg x) s.ia none)

/-- EX9E: skips if the key numbered V[X] is down; it reads `down`, not an edge flag (R101). -/
def execSkipIfKeyDown (x : RegIdx) (s : State) : Host.Outcome State Fault Refusal :=
  finish (match s.keyOf x with
    | .ok k => .ok (s.skipIf (s.keyDown k))
    | .error f => .error f)

/-- EXA1: skips if the key numbered V[X] is not down (R102). -/
def execSkipIfKeyUp (x : RegIdx) (s : State) : Host.Outcome State Fault Refusal :=
  finish (match s.keyOf x with
    | .ok k => .ok (s.skipIf (!s.keyDown k))
    | .error f => .error f)

end Sys2Proof.Machine
end

