-- ==== Sys2Proof/Machine/TimersKeys.lean ====
section
/-! DEFINITION. The timer instructions, the key wait, the timers' decay (46_timers_keys.md R131 to R135) and the keypad
(10_state.md R40 to R42). -/

namespace Sys2Proof.Machine

/-- FX07: `V[X] <- DT` (R131). -/
def execGetDelay (x : RegIdx) (s : State) : Host.Outcome State Fault Refusal := .next (s.setReg x s.dt.toNat)

/-- FX15: `DT <- V[X]` (R132). -/
def execSetDelay (x : RegIdx) (s : State) : Host.Outcome State Fault Refusal := .next (s.setDt (s.regByte x))

/-- FX18: `ST <- V[X]` (R133). -/
def execSetSound (x : RegIdx) (s : State) : Host.Outcome State Fault Refusal := .next (s.setSt (s.regByte x))

/-- The least key whose pressed edge is set (R134). -/
def State.leastPressed (s : State) : Option Nat := (List.range s.cfg.nKeys).find? s.keyPressed

/-- FX0A: V[X] <- the least key with a pressed edge; with none, `pc` goes back to this instruction (R134). -/
def execWaitKey (x : RegIdx) (s : State) : Host.Outcome State Fault Refusal :=
  .next (match s.leastPressed with
    | some k => s.setReg x k
    | none => s.setPc s.ia)

/-- A timer one tick later: down by 1 while above 0 (R135, R30). -/
def decayed (b : Byte) : Byte := if b = 0 then 0 else b - 1

/-- `decayTimers()` (R135). -/
def State.decayTimers (s : State) : State := { s with dt := decayed s.dt, st := decayed s.st }

/-- `press(k)`: an edge only on a real change of the key (R41). -/
def State.press (s : State) (k : Nat) : State :=
  if s.keyDown k then s
  else { s with down := writeAt false s.down k true, pressedEdge := writeAt false s.pressedEdge k true }

/-- `release(k)`: an edge only on a real change of the key (R41). -/
def State.release (s : State) (k : Nat) : State :=
  if s.keyDown k then
    { s with down := writeAt false s.down k false, releasedEdge := writeAt false s.releasedEdge k true }
  else s

/-- `resetEdges()`: every edge flag false, `down` unchanged (R42). -/
def State.resetEdges (s : State) : State :=
  { s with pressedEdge := List.replicate s.cfg.nKeys false, releasedEdge := List.replicate s.cfg.nKeys false }

end Sys2Proof.Machine
end

