-- ==== Sys2Proof/Machine/Scheduler.lean ====
section
/-! DEFINITION. The tick, the poll over the three clocks and the host's inputs (30_encoding.md R75 to R80, 60_exceptions.md
R150 to R161). -/

namespace Sys2Proof.Machine

/-! ## The tick -/

/-- The outcome with the fetched word filled into a fault (R141). -/
def recordWord (w : Word) : Host.Outcome State Fault Refusal → Host.Outcome State Fault Refusal
  | .next s => .next s
  | .fault f => .fault (f.withWord w)
  | .refused r => .refused r

/-- One tick: fetch, advance `pc` by 2, decode, execute (R75 to R79). An unassigned word changes nothing else (R73). An instruction
that names a register the block does not have is refused, never at the default `NREGS` (log entry 32). -/
def tick (s : State) : Host.Outcome State Fault Refusal :=
  match s.fetch with
  | .error f => .fault f
  | .ok w =>
    match decode s.cfg.group0Key w with
    | .instr i =>
      if registersPresent s.cfg i then recordWord w (exec i s.advance) else .refused (.noSuchRegister i)
    | .unassigned _ => .next s.advance

/-! ## The three clocks -/

/-- `due(c, now)` for a clock of rate `hz` that has fired `k` times since `t0` (R150). -/
def due (hz k t0 now : Nat) : Bool := decide ((k + 1) * Config.nsPerSecond ≤ (now - t0) * hz)

/-- What follows the tick in the cycle action: `resetEdges()`, and the cpu clock has fired (R151, R152). -/
def State.endCycle (s : State) : State := s.resetEdges.countCpu

/-- The cycle action: one tick, then `resetEdges()`; a fault ends the poll (R151, R152, R142). -/
def cycleAction (s : State) : Host.Outcome State Fault Refusal := mapNext State.endCycle (tick s)

/-- The cpu clock's part of a poll (R151). -/
def cpuPhase (now : Nat) (s : State) : Host.Outcome State Fault Refusal :=
  if due s.cfg.cpuHz s.kCpu s.t0 now then cycleAction s else .next s

/-- The timer clock's part of a poll (R151, R153). -/
def timerPhase (now : Nat) (s : State) : State :=
  if due s.cfg.timerHz s.kTimer s.t0 now then s.decayTimers.countTimer else s

/-- The frame action: a repaint if the framebuffer is dirty, which clears the flag (R154). -/
def State.frameAction (s : State) : State :=
  if s.dirty then { s with repaint := some s.fb, dirty := false } else s

/-- The frame clock's part of a poll (R151, R154). -/
def framePhase (now : Nat) (s : State) : State :=
  if due s.cfg.frameHz s.kFrame s.t0 now then s.frameAction.countFrame else s

/-- One poll at host time `now`, in the order cycle, timer, frame; each clock fires at most once (R151, R155). A time
below the previous poll's is refused: the host never supplies one (R160). -/
def poll (now : Nat) (s : State) : Host.Outcome State Fault Refusal :=
  if now < s.lastNow then .refused (.hostTimeDecreased now s.lastNow)
  else mapNext (fun t => (framePhase now (timerPhase now t)).setLastNow now) (cpuPhase now s.clearRepaint)

/-! ## The host's inputs -/

/-- The least time, not before the previous poll, at which the cpu clock is due (R150). -/
def State.nextCpuTime (s : State) : Nat :=
  max s.lastNow (s.t0 + ((s.kCpu + 1) * Config.nsPerSecond + (s.cfg.cpuHz - 1)) / s.cfg.cpuHz)

/-- A key event of the host: a number the keypad does not have is refused, the host never sends one (R161). -/
def keyEvent (event : State → Nat → State) (k : Nat) (s : State) : Host.Outcome State Fault Refusal :=
  if k < s.cfg.nKeys then .next (event s.clearRepaint k) else .refused (.keyNotOnKeypad k)

/-- The oldest input that is waiting; with none waiting, a poll at the time the cpu clock next falls due (R15, R159;
log entries 10 and 11). -/
def hostStep (s : State) : Host.Outcome State Fault Refusal :=
  match s.hostInputs with
  | [] => poll s.nextCpuTime s
  | .press k :: rest => keyEvent State.press k (s.setInputs rest)
  | .release k :: rest => keyEvent State.release k (s.setInputs rest)
  | .poll now :: rest => poll now (s.setInputs rest)

end Sys2Proof.Machine
end

