-- ==== Sys2Proof/Machine/Step.lean ====
section
/-! DEFINITION. One step of the machine: the host's next input, a poll or a key event. A faulted state stays faulted
(60_exceptions.md R142). -/

namespace Sys2Proof.Machine

/-- One step. No step leaves a state that records a fault (R142, R16). -/
def step (s : State) : Host.Outcome State Fault Refusal :=
  match s.fault with
  | some f => .fault f
  | none => hostStep s

/-- The state with the instruction word `w` of the opcode table stored at `pc`, big-endian, no input waiting and no fault
recorded, so that the next step polls when the cpu clock is due and fetches that word (log entries 10 and 12). -/
def State.withFetchWord (s : State) (nbits w : Nat) : State :=
  let word : Word := BitVec.ofNat 16 (w % 2 ^ nbits)
  let a := s.pc % s.cfg.memSize
  let a1 := (s.pc + 1) % s.cfg.memSize
  { s with
    mem := (s.mem.write a (word.extractLsb' 8 8)).write a1 (word.extractLsb' 0 8)
    hostInputs := []
    fault := none }

end Sys2Proof.Machine
end

