-- ==== Sys2Proof/Machine/Launch.lean ====
section
/-! DEFINITION. The launch: what the host supplies before the first poll (60_exceptions.md R164, 70_reset_and_hazards.md
R170, R173). -/

namespace Sys2Proof.Machine

/-- Why a launch is refused. -/
inductive LaunchRefusal where
  /-- The image is longer than `MEM_SIZE - PROG_BASE` bytes (R173). -/
  | imageTooLong (len : Nat)
  /-- `FONT` is not `GLYPHS * GLYPH_BYTES` bytes (R36). -/
  | fontLength (len : Nat)
  /-- The atlas does not end inside memory: the spec states no such case (log entry 23). -/
  | fontOutsideMemory (len : Nat)
  /-- `MEM_SIZE` is 0: the spec states no such case (log entry 23). -/
  | noMemory
  /-- `FLAGREG` is no register of the `NREGS`: the spec states no such case (log entry 23). -/
  | noFlagRegister
  deriving DecidableEq, Repr

/-- Zeroed memory (R170): an unlisted address of the default atlas reads as a font byte, so each gets the entry 0. -/
def zeroedMemory (cfg : Params) : Memory :=
  Memory.writeAll [] Config.fontBase
    (List.replicate (min (Config.glyphs * Config.glyphBytes) (cfg.memSize - Config.fontBase)) 0)

/-- The state after construction with the parameters, the font, the host's time and the image the host supplies:
registers as at reset, memory zeroed, then the font at `FONT_BASE`, then the image verbatim at `PROG_BASE` (R164, R170, R45). -/
def launch (cfg : Params) (font : List Byte) (t0 : Nat) (image : List Byte) : Except LaunchRefusal State :=
  if cfg.nRegs ≤ cfg.flagReg then .error .noFlagRegister
  else if cfg.memSize = 0 then .error .noMemory
  else if font.length ≠ cfg.glyphs * cfg.glyphBytes then .error (.fontLength font.length)
  else if cfg.memSize < cfg.fontBase + font.length then .error (.fontOutsideMemory font.length)
  else if cfg.memSize - cfg.progBase < image.length then .error (.imageTooLong image.length)
  else .ok { State.constructed cfg with
    t0 := t0
    lastNow := t0
    mem := Memory.writeAll (Memory.writeAll (zeroedMemory cfg) cfg.fontBase font) cfg.progBase image }

end Sys2Proof.Machine
end

