-- ==== Sys2Proof/Machine/Run.lean ====
section
/-! DEFINITION. A run as 60_exceptions.md R142 pictures it: states all the way, where a fault is recorded in the state, what
the faulting instruction had done stays in place, and nothing moves after it. -/

namespace Sys2Proof.Machine

/-- The state reached, or the given one. -/
def kept (s : State) : Except Fault State → State
  | .ok t => t
  | .error _ => s

/-- The state reached, or the given one. -/
def keptOutcome (s : State) : Host.Outcome State Fault Refusal → State
  | .next t => t
  | .fault _ => s
  | .refused _ => s

/-- How many addresses from `I` on are below `MEM_SIZE`. -/
def State.inRange (s : State) : Nat := s.cfg.memSize - s.indexPlus 0

/-- What a faulting instruction leaves in place (R142). Accesses are made in ascending order (20_memory.md R54, 45_display.md
R129), so those before the faulting one are those below `MEM_SIZE`: the instruction has done what it does when cut off
there. The other instructions raise their fault before they write anything. -/
def State.leftBy (s : State) : Instr → State
  | .clearScreen => s
  | .ret => s
  | .jump _ => s
  | .call _ => s
  | .skipEqImm _ _ => s
  | .skipNeqImm _ _ => s
  | .skipEqReg _ _ => s
  | .setImm _ _ => s
  | .addImm _ _ => s
  | .setReg _ _ => s
  | .orReg _ _ => s
  | .andReg _ _ => s
  | .xorReg _ _ => s
  | .addReg _ _ => s
  | .subReg _ _ => s
  | .shiftRight _ _ => s
  | .subRegReversed _ _ => s
  | .shiftLeft _ _ => s
  | .skipNeqReg _ _ => s
  | .setIndex _ => s
  | .jumpOffset _ _ => s
  | .random _ _ => s
  | .draw x y n => keptOutcome s (execDraw x y ⟨min n.val s.inRange, (Nat.min_le_left ..).trans_lt n.isLt⟩ s)
  | .skipIfKeyDown _ => s
  | .skipIfKeyUp _ => s
  | .getDelay _ => s
  | .waitKey _ => s
  | .setDelay _ => s
  | .setSound _ => s
  | .addIndex _ => s
  | .fontChar _ => s
  | .bcd x => kept s (s.storeBytes (s.indexPlus 0) ((decimalDigits (s.reg x)).take s.inRange))
  | .storeRegs x => kept s (s.storeBytes (s.indexPlus 0) (((regsUpTo x).map s.regByte).take s.inRange))
  | .loadRegs x => kept s (s.loadBytes (s.indexPlus 0) ((regsUpTo x).take s.inRange))

/-- The state in which a faulting tick stands: `pc` advanced if a word was fetched, and what its instruction left (R78, R142). -/
def State.faultingTick (s : State) : State :=
  match s.fetch with
  | .error _ => s
  | .ok w =>
    match decode s.cfg.group0Key w with
    | .instr i => s.advance.leftBy i
    | .unassigned _ => s.advance

/-- The state a step leaves. A next state is itself. A fault is recorded for good, with what the poll did before it: the
input is consumed, the tick stands where it faulted, and no clock has counted (R142, R151). A faulted state stays as it is, and
so does one that is given an input the host never sends (R142, R160). -/
def State.afterStep (s : State) : State :=
  match step s with
  | .next t => t
  | .refused _ => s
  | .fault f =>
    match s.fault with
    | some _ => s
    | none => { ((s.setInputs s.hostInputs.tail).clearRepaint).faultingTick with fault := some f }

/-- The state that `n` steps leave. -/
def State.afterSteps : Nat → State → State
  | 0, s => s
  | n + 1, s => State.afterSteps n s.afterStep

end Sys2Proof.Machine
end

