-- ==== Sys2Proof/Safety.lean ====
section
/-! DEFINITION. What counts as a safe run, and the terms in which claims about the machine are stated: the parts an
instruction leaves alone, the pixels a sprite covers (45_display.md R129, R130), the invariant of the machine, the end points of
a run (70_reset_and_hazards.md R181) and what it is for a claim to hold (R185). -/

namespace Sys2Proof.Machine

/-! ## Frames -/

/-- A part of the state that a frame can leave open. -/
inductive Part where
  /-- The program counter. -/
  | pc
  /-- The index register. -/
  | index
  /-- The stack pointer and the stack's entries. -/
  | stack
  /-- The delay timer. -/
  | delay
  /-- The sound timer. -/
  | sound
  /-- The bytes of memory. -/
  | memory
  /-- The pixels and the dirty flag. -/
  | display
  /-- The random bytes drawn and still to be drawn. -/
  | draws
  deriving DecidableEq, Repr

/-- Every register outside `regs` reads as before. -/
def SameRegsExcept (regs : List Nat) (s t : State) : Prop := ∀ r, r ∉ regs → t.reg r = s.reg r

/-- Every byte of memory outside `addrs` reads as before. -/
def SameBytesExcept (addrs : List Nat) (s t : State) : Prop := ∀ a, a ∉ addrs → t.byteAt a = s.byteAt a

/-- What no instruction writes: the keypad, the scheduler's counts and times, the fault record, the parameters, the
host's inputs and the repaint event (10_state.md R33). -/
def SameHidden (s t : State) : Prop :=
  t.down = s.down ∧ t.pressedEdge = s.pressedEdge ∧ t.releasedEdge = s.releasedEdge ∧
  t.kCpu = s.kCpu ∧ t.kTimer = s.kTimer ∧ t.kFrame = s.kFrame ∧ t.t0 = s.t0 ∧ t.lastNow = s.lastNow ∧
  t.fault = s.fault ∧ t.cfg = s.cfg ∧ t.hostInputs = s.hostInputs ∧ t.repaint = s.repaint

/-- Everything is as before except the parts in `parts` and the registers in `regs`. Memory is compared byte by byte,
the framebuffer pixel by pixel. -/
def Frame (parts : List Part) (regs : List Nat) (s t : State) : Prop :=
  SameRegsExcept regs s t ∧
  (Part.pc ∉ parts → t.pc = s.pc) ∧
  (Part.index ∉ parts → t.index = s.index) ∧
  (Part.stack ∉ parts → t.sp = s.sp ∧ t.stack = s.stack) ∧
  (Part.delay ∉ parts → t.dt = s.dt) ∧
  (Part.sound ∉ parts → t.st = s.st) ∧
  (Part.memory ∉ parts → SameBytesExcept [] s t) ∧
  (Part.display ∉ parts → (∀ px py, t.pixel px py = s.pixel px py) ∧ t.dirty = s.dirty) ∧
  (Part.draws ∉ parts → t.draws = s.draws ∧ t.hostBytes = s.hostBytes) ∧
  SameHidden s t

/-! ## Accesses -/

/-- An access to address `a` does not fault: `a` is in range, or `OOB_POLICY` is `WRAP` (20_memory.md R57). -/
def Accessible (s : State) (a : Nat) : Prop := a < s.cfg.memSize ∨ s.cfg.oobPolicy = .wrap

/-- Every one of the `n` addresses from `I` is accessible. -/
def AccessibleFromIndex (s : State) (n : Nat) : Prop := ∀ k, k < n → Accessible s (s.indexPlus k)

/-- The address of memory that an accessible access to `I + k` reaches: `a` itself in range, `a mod MEM_SIZE` under
`WRAP` (R57). -/
def State.reached (s : State) (k : Nat) : Nat := s.indexPlus k % s.cfg.memSize

/-! ## Which registers an instruction may write -/

/-- The registers an instruction may write, the flag register `flag` included where it has a flag outcome (10_state.md R22,
R29). -/
def writtenRegs (flag : Nat) : Instr → List Nat
  | .clearScreen => []
  | .ret => []
  | .jump _ => []
  | .call _ => []
  | .skipEqImm _ _ => []
  | .skipNeqImm _ _ => []
  | .skipEqReg _ _ => []
  | .setImm x _ => [x]
  | .addImm x _ => [x]
  | .setReg x _ => [x]
  | .orReg x _ => [x]
  | .andReg x _ => [x]
  | .xorReg x _ => [x]
  | .addReg x _ => [x, flag]
  | .subReg x _ => [x, flag]
  | .shiftRight x _ => [x, flag]
  | .subRegReversed x _ => [x, flag]
  | .shiftLeft x _ => [x, flag]
  | .skipNeqReg _ _ => []
  | .setIndex _ => []
  | .jumpOffset _ _ => []
  | .random x _ => [x]
  | .draw _ _ _ => [flag]
  | .skipIfKeyDown _ => []
  | .skipIfKeyUp _ => []
  | .getDelay x => [x]
  | .waitKey x => [x]
  | .setDelay _ => []
  | .setSound _ => []
  | .addIndex _ => [flag]
  | .fontChar _ => []
  | .bcd _ => []
  | .storeRegs _ => []
  | .loadRegs x => regsUpTo x

/-! ## Sprites -/

/-- The framebuffer row of sprite row 0: V[y] masked to the framebuffer's height, where `TEXT_ORDER` reads VF after its reset
(R129). -/
def spriteTop (s : State) (y : RegIdx) : Nat :=
  match s.cfg.drawOrder with
  | .textOrder => if y = s.cfg.flagReg then 0 else s.startY y
  | .latchFirst => s.startY y

/-- Sprite row `r`'s byte (R129). -/
def spriteByte (s : State) (r : Nat) : Byte := s.byteAt (s.reached r)

/-- A sprite byte drawn from column `left` has a set bit at column `px`: bit 7 is the leftmost (R129, R130). -/
def spriteCovers (b : Byte) (left px : Nat) : Bool :=
  decide (left ≤ px) && decide (px < left + 8) && b.getLsbD (7 - (px - left))

/-- Sprite row `r`, drawn from column `left`, covers a pixel that is on (R129). -/
def spriteRowCollides (s : State) (top r left : Nat) : Bool :=
  decide (top + r < s.cfg.fbHeight) &&
    (List.range s.cfg.fbWidth).any fun px => spriteCovers (spriteByte s r) left px && s.pixel px (top + r)

/-- The column a flag value of 0 or 1 gives, masked to the framebuffer's width (R129). -/
def flagColumn (s : State) (flag : Bool) : Nat := (flag.toNat % 2 ^ s.cfg.regW) &&& (s.cfg.fbWidth - 1)

/-- Whether VF is 1 when sprite row `r` of a `TEXT_ORDER` draw with X the flag register starts, which gives that row's starting
column: it is from the first row after a collision on (R129). -/
def spriteFlagBefore (s : State) (top : Nat) : Nat → Bool
  | 0 => false
  | r + 1 => spriteFlagBefore s top r || spriteRowCollides s top r (flagColumn s (spriteFlagBefore s top r))

/-- The starting column of sprite row `r`: V[x] masked to the framebuffer's width, where `TEXT_ORDER` reads the register again
for each row if it is the flag register (R129). -/
def spriteLeft (s : State) (x : RegIdx) (top r : Nat) : Nat :=
  match s.cfg.drawOrder with
  | .textOrder =>
    if x = s.cfg.flagReg then flagColumn s (spriteFlagBefore s top r) else s.startX x
  | .latchFirst => s.startX x

/-- The draw's touch set: pixel (px, py) of the framebuffer lies under a set sprite bit of one of the N rows (R130). What the
draw clips, columns past the width and rows past the height, is outside it. -/
def spriteTouches (s : State) (x y : RegIdx) (n : Fin 16) (px py : Nat) : Prop :=
  px < s.cfg.fbWidth ∧ py < s.cfg.fbHeight ∧ spriteTop s y ≤ py ∧ py < spriteTop s y + n.val ∧
  spriteCovers (spriteByte s (py - spriteTop s y)) (spriteLeft s x (spriteTop s y) (py - spriteTop s y)) px = true

/-- How many sprite rows the draw reads: min(N, FB_H - top) (R130). -/
def spriteRowsRead (s : State) (y : RegIdx) (n : Fin 16) : Nat := min n.val (s.cfg.fbHeight - spriteTop s y)

/-! ## The scheduler -/

/-- `floor((now - t0) · hz / 10^9)`, the firings an exact clock has made by `now` (60_exceptions.md R156). -/
def exactFirings (hz t0 now : Nat) : Nat := (now - t0) * hz / Config.nsPerSecond

/-! ## The invariant -/

/-- The key edges fit the key: a key with a pressed edge is down, or has been released since; and the other way round
(10_state.md R41, R42). -/
def EdgesFit (s : State) : Prop :=
  ∀ k,
    (s.keyPressed k = true → s.keyDown k = false → s.keyReleased k = true) ∧
    (s.keyReleased k = true → s.keyDown k = true → s.keyPressed k = true)

/-- Every array has the size R5 gives it (10_state.md R20, R27, R37, R40). -/
structure Sized (s : State) : Prop where
  v : s.v.length = s.cfg.nRegs
  stack : s.stack.length = s.cfg.stackDepth
  rows : s.fb.length = s.cfg.fbHeight
  columns : ∀ row ∈ s.fb, row.length = s.cfg.fbWidth
  down : s.down.length = s.cfg.nKeys
  pressed : s.pressedEdge.length = s.cfg.nKeys
  released : s.releasedEdge.length = s.cfg.nKeys

/-- Every register holds a value of its width (00_scope.md R8, 10_state.md R20, R23, R26, R27). -/
structure InRange (s : State) : Prop where
  v : ∀ n ∈ s.v, n < 2 ^ s.cfg.regW
  pc : s.pcBits < 2 ^ s.cfg.pcW
  index : s.indexBits < 2 ^ s.cfg.iW
  stack : ∀ n ∈ s.stack, n < 2 ^ s.cfg.pcW

/-- What every step keeps: memory is in canonical form and inside the address space, which is not empty (R34), the arrays keep
their sizes, the registers their widths and `sp` its range (R20, R23, R26, R27, R37, R40), the flag register is one of the
registers (R21), time does not run backwards (R160), no clock has fired more often than its rate
allows (R156), the key edges fit the keys, and a repaint event shows the framebuffer as it stands with the dirty flag cleared
(R154). -/
structure Inv (s : State) : Prop where
  memSize : 0 < s.cfg.memSize
  mem : s.mem.wf s.cfg.memSize = true
  sized : Sized s
  inRange : InRange s
  flagReg : s.cfg.flagReg < s.cfg.nRegs
  sp : s.sp ≤ s.cfg.stackDepth
  time : s.t0 ≤ s.lastNow
  cpu : s.kCpu ≤ exactFirings s.cfg.cpuHz s.t0 s.lastNow
  timer : s.kTimer ≤ exactFirings s.cfg.timerHz s.t0 s.lastNow
  frame : s.kFrame ≤ exactFirings s.cfg.frameHz s.t0 s.lastNow
  edges : EdgesFit s
  repaint : ∀ f, s.repaint = some f → f = s.fb ∧ s.dirty = false

/-! ## Runs and their end points -/

/-- `n` steps from `s` end in `t` without a fault or a refusal: a safe run (R185). -/
def SafeRun (n : Nat) (s t : State) : Prop := Host.Core.run Sys2Proof.core n s = .next t

/-- `Parked(a)`: `pc` is at a jump to itself (R181 b). -/
def Parked (a : BitVec 12) (s : State) : Prop := s.pc = a.toNat ∧ s.fetch = .ok (packA 0x1 a)

/-- `AfterTicks(n)`: the n-th CPU tick has run and the next has not (R181 c). DESIGN CHOICE (log entry 30): R181 leaves open
whether the observation falls before or after the timer and frame actions of the tick's own poll. The states of the model lie
between polls, so this takes any of them from the end of that poll up to the next tick. -/
def AfterTicks (n : Nat) (s : State) : Prop := s.kCpu = n

/-- The end point that a claim names (R181). R181 (a), a fault, is a failure of every claim and no end point of one. -/
inductive EndPoint where
  /-- `Parked(a)`. -/
  | parked (a : BitVec 12)
  /-- `AfterTicks(n)`. -/
  | afterTicks (n : Nat)
  deriving DecidableEq, Repr

/-- The state is at the end point. -/
def EndPoint.reachedIn : EndPoint → State → Prop
  | .parked a, s => Parked a s
  | .afterTicks n, s => AfterTicks n s

/-! ## Claims -/

/-- What a launch is given (R185, 60_exceptions.md R164). -/
structure Launch where
  /-- The parameters. -/
  cfg : Params
  /-- The parameter `FONT`. -/
  font : List Byte
  /-- The host's time at construction. -/
  t0 : Nat
  /-- The image. -/
  image : List Byte
  deriving DecidableEq, Repr

/-- The state the launch gives. -/
def Launch.start (l : Launch) : Except LaunchRefusal State := launch l.cfg l.font l.t0 l.image

/-- What the host does after a launch: its polls and key events in order, and with the k-th the random byte for a draw it may
make, of which a tick makes at most one (R185, 60_exceptions.md R159, R162). -/
structure HostRun where
  /-- The k-th poll or key event. -/
  input : Nat → HostInput
  /-- The random byte it goes with. -/
  byte : Nat → Byte

/-- The state with one input and one random byte supplied. -/
def State.supplied (s : State) (input : HostInput) (byte : Byte) : State :=
  { s with hostInputs := [input], hostBytes := [byte] }

/-- Where the host's first `n` inputs lead from `s`; a fault or a refusal ends the run (R142). -/
def HostRun.outcome (h : HostRun) (s : State) : Nat → Host.Outcome State Fault Refusal
  | 0 => .next s
  | n + 1 =>
    match HostRun.outcome h s n with
    | .next t => step (t.supplied (h.input n) (h.byte n))
    | .fault f => .fault f
    | .refused r => .refused r

/-- The run is at the end point after `n` inputs. -/
def HostRun.atEnd (h : HostRun) (s : State) (e : EndPoint) (n : Nat) : Prop := ∃ t, h.outcome s n = .next t ∧ e.reachedIn t

/-- A refusal that says the host did what R160 and R161 say it never does: such a run is none of the host's. -/
def Refusal.ofHost : Refusal → Bool
  | .hostTimeDecreased _ _ => true
  | .keyNotOnKeypad _ => true
  | _ => false

/-- A claim about the runs of a launched program (R185). -/
structure Claim where
  /-- The launches it is about: images, parameters and start times. -/
  pre : Launch → Prop
  /-- Where it observes a run. -/
  endPoint : EndPoint
  /-- What it says of the state there. -/
  post : Launch → State → Prop
  /-- What it says of every state of a run on which the end point is never reached; `none` where it says nothing and does not
  cover such a run. A claim that says `False` claims that every run reaches its end point. -/
  never : Option (Launch → State → Prop)

/-- A run from the launched state `s` bears the claim out (R185): wherever it is at the end point, the state meets the
postcondition; it does not fault before it has been at the end point, nor stop for want of a rule; and where it goes on for ever
and is never at the end point, it is as the claim says of such a run, if it says anything (log entry 33). -/
structure Claim.HoldsOn (c : Claim) (l : Launch) (s : State) (h : HostRun) : Prop where
  post : ∀ n t, h.outcome s n = .next t → c.endPoint.reachedIn t → c.post l t
  noFault : ∀ n f, h.outcome s n = .fault f → ∃ m, m < n ∧ h.atEnd s c.endPoint m
  noRefusal : ∀ n r, h.outcome s n = .refused r → r.ofHost = false → ∃ m, m < n ∧ h.atEnd s c.endPoint m
  never : ∀ p, c.never = some p → (∀ n, (∃ t, h.outcome s n = .next t) ∧ ¬ h.atEnd s c.endPoint n) →
    ∀ n t, h.outcome s n = .next t → p l t

/-- The claim holds: every launch that meets the precondition and is not refused, with every sequence of polls, key events and
random draws, bears it out (R185). -/
def Claim.Holds (c : Claim) : Prop :=
  ∀ (l : Launch) (s : State) (h : HostRun), c.pre l → l.start = .ok s → c.HoldsOn l s h

end Sys2Proof.Machine
end

