-- ==== Sys2Proof/Certificates/Slice0/Obligations.lean ====
section
/-! DEFINITION. The statements for the provers. Each docstring names the rules of spec/ it formalises. The numeric encodings
are the spec's own general knowledge (30_encoding.md R69), so every statement about them is derived. A clause that rests on a
decision of spec/92_eei_decisions.md (D<n>) says so. A meaning runs in the state whose `pc` already stands past the instruction
(30_encoding.md R78): in a statement about `exec`, `s.pc` is the instruction's address + 2 and `s.ia`, 2 less modulo 2 to the
width of `pc`, the address. The sizes, widths and addresses of R5 are the fields of `s.cfg` (log entry 16); the rules of spec/ are
each statement's case at the defaults, where 2 ^ `s.cfg.regW` is 256 and 2 ^ `s.cfg.pcW` and 2 ^ `s.cfg.iW` are 65536. VF is the
register `s.cfg.flagReg`. -/

open Sys2Proof Sys2Proof.Machine

/-! ## Encoding, decoding and fetching -/

/-- Every well-formed instruction's word decodes to that instruction, every operand at every value, under either
`GROUP0_KEY` (R65 to R72). -/
def Obligations.DecodeOfEncodeIsTheInstruction : Prop :=
  ∀ (key : Group0Key) (i : Instr), i.wellFormed = true → decode key (encode i) = .instr i

/-- A word that decodes to an instruction is that instruction's own word, but for the bits the spec does not decode: X of
group 0 under `GROUP0_KEY` = `NN` (R71), N of groups 5 and 9 (R72). What the decoder answers is well formed. -/
def Obligations.DecodedWordIsEncodedButForUndecodedBits : Prop :=
  ∀ (key : Group0Key) (w : Word) (i : Instr), decode key w = .instr i →
    i.wellFormed = true ∧
    (encode i = w ∨
      (key = .nn ∧ (i = .clearScreen ∨ i = .ret) ∧ encode i = w &&& 0xF0FF) ∨
      ((∃ x y, i = .skipEqReg x y ∨ i = .skipNeqReg x y) ∧ encode i = w &&& 0xFFF0))

/-- The unassigned words are exactly those R74 lists, by G = w / 4096, NN = w mod 256 and N = w mod 16. -/
def Obligations.UnassignedWordsAreThoseListed : Prop :=
  ∀ (key : Group0Key) (w : Word),
    (∃ u, decode key w = .unassigned u) ↔
      (w.toNat / 4096 = 0 ∧ key = .nn ∧ w.toNat % 256 ≠ 0xE0 ∧ w.toNat % 256 ≠ 0xEE) ∨
      (w.toNat / 4096 = 0 ∧ key = .fullWord ∧ w.toNat ≠ 0x00E0 ∧ w.toNat ≠ 0x00EE) ∨
      (w.toNat / 4096 = 8 ∧ w.toNat % 16 ∈ [8, 9, 0xA, 0xB, 0xC, 0xD, 0xF]) ∨
      (w.toNat / 4096 = 0xE ∧ w.toNat % 256 ∉ [0x9E, 0xA1]) ∨
      (w.toNat / 4096 = 0xF ∧ w.toNat % 256 ∉ [0x07, 0x0A, 0x15, 0x18, 0x1E, 0x29, 0x33, 0x55, 0x65])

/-- Words written out from the spec's encodings decode to what they stand for (R69, and the words of 95_test_vectors.md). -/
def Obligations.WrittenOutWordsDecode : Prop :=
  decode .nn 0x01E0 = .instr .clearScreen ∧ decode .fullWord 0x01E0 = .unassigned .group0 ∧
  decode .nn 0x2ABC = .instr (.call 0xABC) ∧ decode .nn 0xB2F0 = .instr (.jumpOffset 0x2F0 2) ∧
  decode .nn 0x512F = .instr (.skipEqReg 1 2) ∧ decode .nn 0x6A2B = .instr (.setImm 0xA 0x2B) ∧
  decode .nn 0x8126 = .instr (.shiftRight 1 2) ∧ decode .nn 0x812F = .unassigned .group8 ∧
  decode .nn 0xD015 = .instr (.draw 0 1 5) ∧ decode .nn 0xE3A1 = .instr (.skipIfKeyUp 3) ∧
  decode .nn 0xF30A = .instr (.waitKey 3) ∧ decode .nn 0xF265 = .instr (.loadRegs 2) ∧
  decode .nn 0x0000 = .unassigned .group0

/-- The fetch reads the two bytes at `pc` and `pc + 1`, at any alignment, the one at the lower address in bits 15:8
(R53, R55, R76). -/
def Obligations.FetchIsBigEndianAtAnyAddress : Prop :=
  ∀ s : State, s.pc + 1 < s.cfg.memSize →
    ∃ w, s.fetch = .ok w ∧ w.toNat = (s.byteAt s.pc).toNat * 256 + (s.byteAt (s.pc + 1)).toNat

/-- A tick whose `pc` or `pc + 1` is at or above `MEM_SIZE` raises `MemOutOfRange(fetch, a)` for the first of the two that is,
under `OOB_POLICY` = `FAULT`; under `WRAP` every fetch answers the two bytes at the wrapped addresses (R80, R57; decision D3).
-/
def Obligations.FetchOutOfRangeFaultsOrWraps : Prop :=
  ∀ s : State,
    (s.cfg.oobPolicy = .fault → s.cfg.memSize ≤ s.pc →
      tick s = .fault (.memOutOfRange .fetch s.pc s.pc none)) ∧
    (s.cfg.oobPolicy = .fault → s.pc + 1 = s.cfg.memSize →
      tick s = .fault (.memOutOfRange .fetch s.cfg.memSize s.pc none)) ∧
    (s.cfg.oobPolicy = .wrap →
      s.fetch = .ok (wordOfBytes (s.byteAt (s.pc % s.cfg.memSize)) (s.byteAt ((s.pc + 1) % s.cfg.memSize))))

/-- A step runs the decoded instruction: with the cpu clock due at the next poll, and the word at `pc` decoding to `i`, the
step is `exec i` in the state with `pc` past the word, followed by the end of the cycle action (edges cleared, the cpu count
up by 1) and the timer's and the frame clock's parts of the poll; a fault gets the word and ends the poll (R75 to R79, R151).
With no input waiting the poll is at the time the cpu clock falls due: that is the model's choice (log entry 10). So is the
refusal of an instruction that names a register the block does not have, which no block of 16 registers meets (log entry 32). -/
def Obligations.StepRunsTheDecodedInstruction : Prop :=
  ∀ (s : State) (now : Nat) (rest : List HostInput) (w : Word) (i : Instr),
    s.fault = none →
    (s.hostInputs = .poll now :: rest ∨ (s.hostInputs = [] ∧ rest = [] ∧ now = s.nextCpuTime)) →
    s.lastNow ≤ now → due s.cfg.cpuHz s.kCpu s.t0 now = true →
    s.fetch = .ok w → decode s.cfg.group0Key w = .instr i →
    ((16 ≤ s.cfg.nRegs ∨ registersPresent s.cfg i = true) →
      step s =
        mapNext (fun t => (framePhase now (timerPhase now t.endCycle)).setLastNow now)
          (recordWord w (exec i ((s.setInputs rest).clearRepaint.setPc (s.pc + 2))))) ∧
    (registersPresent s.cfg i = false → step s = .refused (.noSuchRegister i))

/-- A step is the waiting poll: with no fault recorded and a poll at `now` the oldest input, the step is `poll now` in the
state with that input taken from the queue, whether or not a clock is due and whatever word stands at `pc`. With no input
waiting it is a poll at the model's own time. Both are the form of the model's host (R15, R159; log entries 10 and 11). -/
def Obligations.StepIsTheWaitingPoll : Prop :=
  ∀ s : State, s.fault = none →
    (∀ (now : Nat) (rest : List HostInput), s.hostInputs = .poll now :: rest → step s = poll now (s.setInputs rest)) ∧
    (s.hostInputs = [] → step s = poll s.nextCpuTime s)

/-- A fault that an instruction raises in a tick records the instruction's address, the `pc` of its fetch, and the word that
was fetched, beside what R141 lists for it: nothing for the stack faults, the key number, or the kind and the address of the
access (R141; decisions D3 to D6). The block has the registers the instruction names, as any block of 16 registers does. -/
def Obligations.FaultRecordsItsAddressAndWord : Prop :=
  ∀ (s : State) (w : Word) (i : Instr) (f : Fault), s.fetch = .ok w → decode s.cfg.group0Key w = .instr i →
    (16 ≤ s.cfg.nRegs ∨ registersPresent s.cfg i = true) →
    exec i (s.setPc (s.pc + 2)) = .fault f →
    (f = .stackOverflow s.pc none ∧ tick s = .fault (.stackOverflow s.pc (some w))) ∨
    (f = .stackUnderflow s.pc none ∧ tick s = .fault (.stackUnderflow s.pc (some w))) ∨
    (∃ k, f = .keyIndexOutOfRange k s.pc none ∧ tick s = .fault (.keyIndexOutOfRange k s.pc (some w))) ∨
    (∃ kind a, kind ≠ .fetch ∧ f = .memOutOfRange kind a s.pc none ∧
      tick s = .fault (.memOutOfRange kind a s.pc (some w)))

/-- An unassigned word takes its tick, advances `pc` by 2 and changes nothing else (R73). -/
def Obligations.UnassignedWordIsANoOp : Prop :=
  ∀ (s : State) (w : Word) (u : Unassigned), s.fetch = .ok w → decode s.cfg.group0Key w = .unassigned u →
    ∃ t, tick s = .next t ∧ t.pc = (s.pc + 2) % 2 ^ s.cfg.pcW ∧ Frame [.pc] [] s t

/-- With no input waiting, the model's own choice of a poll time (log entry 10) is one at which the cpu clock is due, not
before the previous poll, and no earlier time would do (R150, R160). -/
def Obligations.IdleHostPollsWhenTheCpuFallsDue : Prop :=
  ∀ s : State, 0 < s.cfg.cpuHz → s.t0 ≤ s.lastNow →
    s.lastNow ≤ s.nextCpuTime ∧ due s.cfg.cpuHz s.kCpu s.t0 s.nextCpuTime = true ∧
    ∀ now, s.lastNow ≤ now → now < s.nextCpuTime → due s.cfg.cpuHz s.kCpu s.t0 now = false

/-! ## Register arithmetic, logic, shifts and random -/

/-- set-imm and add-imm: V[X] is NN, or V[X] + NN mod 256 with the carry discarded; nothing else changes, VF included unless X
is VF (R107, R108, at the default REGW of 8). What the statement says at another REGW is the model's choice (log entry 16, on R5
and R9): NN is truncated where a register is narrower than 8 bits, and the sum is taken mod 2 to the width of a register. -/
def Obligations.SetImmAndAddImm : Prop :=
  ∀ (x : RegIdx) (nn : Byte) (s : State),
    (∃ t, exec (.setImm x nn) s = .next t ∧ t.reg x = nn.toNat % 2 ^ s.cfg.regW ∧
      (8 ≤ s.cfg.regW → t.reg x = nn.toNat) ∧ Frame [] [x] s t) ∧
    (∃ t, exec (.addImm x nn) s = .next t ∧ t.reg x = (s.reg x + nn.toNat) % 2 ^ s.cfg.regW ∧ Frame [] [x] s t)

/-- set-reg, or, and, xor: V[X] is the result, computed before the write, and nothing else changes (R109 to R112). -/
def Obligations.MoveAndLogic : Prop :=
  ∀ (x y : RegIdx) (s : State),
    (∃ t, exec (.setReg x y) s = .next t ∧ t.reg x = s.reg y ∧ Frame [] [x] s t) ∧
    (∃ t, exec (.orReg x y) s = .next t ∧ t.reg x = s.reg x ||| s.reg y ∧ Frame [] [x] s t) ∧
    (∃ t, exec (.andReg x y) s = .next t ∧ t.reg x = s.reg x &&& s.reg y ∧ Frame [] [x] s t) ∧
    (∃ t, exec (.xorReg x y) s = .next t ∧ t.reg x = s.reg x ^^^ s.reg y ∧ Frame [] [x] s t)

/-- add-reg: the sum mod 256 in V[X] and then the carry in VF, the flag written last, so that for X = VF the carry stands
(R113). -/
def Obligations.AddRegWritesSumThenCarry : Prop :=
  ∀ (x y : RegIdx) (s : State), ∃ t, exec (.addReg x y) s = .next t ∧
    (x ≠ s.cfg.flagReg → t.reg x = (s.reg x + s.reg y) % 2 ^ s.cfg.regW) ∧
    t.reg s.cfg.flagReg = (if 2 ^ s.cfg.regW - 1 < s.reg x + s.reg y then 1 else 0) ∧
    Frame [] [x, s.cfg.flagReg] s t

/-- sub-reg: V[X] - V[Y] mod 256 with VF the no-borrow. `FLAG_LAST` takes both from the registers as they were and writes
VF last; `TEXT_ORDER` writes VF first and then reads the operands, so an operand that is VF is the flag (R114; decision D9). -/
def Obligations.SubRegInBothOrders : Prop :=
  ∀ (x y : RegIdx) (s : State),
    let m := 2 ^ s.cfg.regW
    let a := s.reg x
    let b := s.reg y
    let flag := (if b ≤ a then 1 else 0) % m
    ∃ t, exec (.subReg x y) s = .next t ∧ Frame [] [x, s.cfg.flagReg] s t ∧
      (s.cfg.vfOrder = .flagLast →
        t.reg s.cfg.flagReg = flag ∧ (x ≠ s.cfg.flagReg → t.reg x = (a + m - b) % m)) ∧
      (s.cfg.vfOrder = .textOrder →
        (x ≠ s.cfg.flagReg → t.reg s.cfg.flagReg = flag) ∧
        t.reg x = ((if x = s.cfg.flagReg then flag else a) + m - (if y = s.cfg.flagReg then flag else b)) % m)

/-- sub-reg reversed: V[Y] - V[X] mod 256 with VF the no-borrow, in `VF_ORDER` (R116; decision D9). -/
def Obligations.SubRegReversedInBothOrders : Prop :=
  ∀ (x y : RegIdx) (s : State),
    let m := 2 ^ s.cfg.regW
    let a := s.reg x
    let b := s.reg y
    let flag := (if a ≤ b then 1 else 0) % m
    ∃ t, exec (.subRegReversed x y) s = .next t ∧ Frame [] [x, s.cfg.flagReg] s t ∧
      (s.cfg.vfOrder = .flagLast →
        t.reg s.cfg.flagReg = flag ∧ (x ≠ s.cfg.flagReg → t.reg x = (b + m - a) % m)) ∧
      (s.cfg.vfOrder = .textOrder →
        (x ≠ s.cfg.flagReg → t.reg s.cfg.flagReg = flag) ∧
        t.reg x = ((if y = s.cfg.flagReg then flag else b) + m - (if x = s.cfg.flagReg then flag else a)) % m)

/-- shift-right: the operand, V[Y] in classic mode and V[X] otherwise, halved into V[X] with VF the bit moved out. For
X = VF, `FLAG_LAST` leaves the bit in VF and `TEXT_ORDER` leaves the bit shifted right, 0 (R115; decisions D7, D9). -/
def Obligations.ShiftRightInBothModesAndOrders : Prop :=
  ∀ (x y : RegIdx) (s : State),
    let v := if s.cfg.classicMode then s.reg y else s.reg x
    ∃ t, exec (.shiftRight x y) s = .next t ∧ Frame [] [x, s.cfg.flagReg] s t ∧
      (x ≠ s.cfg.flagReg → t.reg x = v / 2 ∧ t.reg s.cfg.flagReg = v % 2) ∧
      (x = s.cfg.flagReg → s.cfg.vfOrder = .flagLast → t.reg s.cfg.flagReg = v % 2) ∧
      (x = s.cfg.flagReg → s.cfg.vfOrder = .textOrder → t.reg s.cfg.flagReg = 0)

/-- shift-left: the operand doubled mod 256 into V[X] with VF the bit moved out, the highest, bit 7. For X = VF, `FLAG_LAST` leaves the
bit in VF and `TEXT_ORDER` leaves the bit shifted left, 0 or 2 (R117; decisions D7, D9). -/
def Obligations.ShiftLeftInBothModesAndOrders : Prop :=
  ∀ (x y : RegIdx) (s : State),
    let v := if s.cfg.classicMode then s.reg y else s.reg x
    ∃ t, exec (.shiftLeft x y) s = .next t ∧ Frame [] [x, s.cfg.flagReg] s t ∧
      (x ≠ s.cfg.flagReg → t.reg x = 2 * v % 2 ^ s.cfg.regW ∧ t.reg s.cfg.flagReg = v / 2 ^ (s.cfg.regW - 1)) ∧
      (x = s.cfg.flagReg → s.cfg.vfOrder = .flagLast → t.reg s.cfg.flagReg = v / 2 ^ (s.cfg.regW - 1)) ∧
      (x = s.cfg.flagReg → s.cfg.vfOrder = .textOrder →
        t.reg s.cfg.flagReg = 2 * (v / 2 ^ (s.cfg.regW - 1)) % 2 ^ s.cfg.regW)

/-- random: V[X] is a drawn byte AND NN, one byte is drawn, and nothing else changes. The byte is the oldest of those the host
has supplied, or a free value where State lists none: it is under no law, so this holds for every list of them and for every number
of draws before (R118, R162; decision D23; log entry 13). -/
def Obligations.RandomMasksOneFreeByte : Prop :=
  ∀ (x : RegIdx) (nn : Byte) (s : State), ∃ t, exec (.random x nn) s = .next t ∧
    (∀ b rest, s.hostBytes = b :: rest → t.reg x = (b &&& nn).toNat % 2 ^ s.cfg.regW ∧ t.hostBytes = rest) ∧
    (s.hostBytes = [] → t.reg x = (Config.freeByte s.draws &&& nn).toNat % 2 ^ s.cfg.regW ∧ t.hostBytes = []) ∧
    t.draws = s.draws + 1 ∧ Frame [.draws] [x] s t

/-! ## Control transfer -/

/-- jump: `pc` is the 12-bit target, and nothing else changes (R91, at the default PCW of 16). That the target is truncated
where `pc` is narrower than 12 bits is the model's choice (log entry 16, on R5 and R9). -/
def Obligations.JumpSetsPc : Prop :=
  ∀ (nnn : BitVec 12) (s : State), ∃ t, exec (.jump nnn) s = .next t ∧
    t.pc = nnn.toNat % 2 ^ s.cfg.pcW ∧ (12 ≤ s.cfg.pcW → t.pc = nnn.toNat) ∧ Frame [.pc] [] s t

/-- call: with an entry free, the next instruction's address goes into the entry at `sp`, `sp` rises by 1, `pc` is the
target, and the other entries and everything else stay; with every entry in use, `sp` = 16 at the defaults, it raises
`StackOverflow` at its own address (R92, R28; decision D4). -/
def Obligations.CallPushesOrOverflows : Prop :=
  ∀ (nnn : BitVec 12) (s : State),
    (s.sp < s.cfg.stackDepth → ∃ t, exec (.call nnn) s = .next t ∧
      t.pc = nnn.toNat % 2 ^ s.cfg.pcW ∧ t.sp = s.sp + 1 ∧ t.stackAt s.sp = s.pc ∧
      (∀ j, j ≠ s.sp → t.stackAt j = s.stackAt j) ∧ Frame [.pc, .stack] [] s t) ∧
    (s.cfg.stackDepth ≤ s.sp → exec (.call nnn) s = .fault (.stackOverflow s.ia none))

/-- return: with an entry in use, `sp` falls by 1, `pc` is the entry it then points at, the entries stay as they were and
so does everything else; with `sp` = 0 it raises `StackUnderflow` at its own address (R90, R28; decision D5). -/
def Obligations.ReturnPopsOrUnderflows : Prop :=
  ∀ s : State,
    (0 < s.sp → ∃ t, exec .ret s = .next t ∧ t.sp + 1 = s.sp ∧ t.pc = s.stackAt (s.sp - 1) ∧ t.stack = s.stack ∧
      Frame [.pc, .stack] [] s t) ∧
    (s.sp = 0 → exec .ret s = .fault (.stackUnderflow s.ia none))

/-- jump-offset: `pc` is NNN + V[0] in classic mode and NNN + V[X] otherwise, X the top nibble of NNN, not truncated to 12
bits (R93; decision D7). -/
def Obligations.JumpOffsetAddsTheSelectedRegister : Prop :=
  ∀ (nnn : BitVec 12) (x : RegIdx) (s : State), (Instr.jumpOffset nnn x).wellFormed = true →
    x.val = nnn.toNat / 256 ∧
    ∃ t, exec (.jumpOffset nnn x) s = .next t ∧
      t.pc = (nnn.toNat + if s.cfg.classicMode then s.reg 0 else s.reg x) % 2 ^ s.cfg.pcW ∧ Frame [.pc] [] s t

/-- A call and the return that finds the stack as the call left it come back to the instruction after the call, with `sp`
as before (R28, R90, R92; 90_conflicts.md C12), whatever else ran in between; the width of `pc` is fixed for a run. -/
def Obligations.ReturnComesBackAfterTheCall : Prop :=
  ∀ (nnn : BitVec 12) (s t u : State), exec (.call nnn) s = .next t → u.sp = t.sp → u.stack = t.stack →
    u.cfg.pcW = t.cfg.pcW →
    ∃ r, exec .ret u = .next r ∧ r.pc = s.pc ∧ r.sp = s.sp

/-! ## Skips -/

/-- The skips on an immediate: `pc` goes 2 further if V[X] = NN, or if V[X] ≠ NN, and nothing else changes (R97, R98). -/
def Obligations.SkipsOnAnImmediate : Prop :=
  ∀ (x : RegIdx) (nn : Byte) (s : State),
    (∃ t, exec (.skipEqImm x nn) s = .next t ∧
      t.pc = (if s.reg x = nn.toNat then (s.pc + 2) % 2 ^ s.cfg.pcW else s.pc) ∧ Frame [.pc] [] s t) ∧
    (∃ t, exec (.skipNeqImm x nn) s = .next t ∧
      t.pc = (if s.reg x = nn.toNat then s.pc else (s.pc + 2) % 2 ^ s.cfg.pcW) ∧ Frame [.pc] [] s t)

/-- The skips on two registers: `pc` goes 2 further if V[X] = V[Y], or if V[X] ≠ V[Y], and nothing else changes
(R99, R100). -/
def Obligations.SkipsOnTwoRegisters : Prop :=
  ∀ (x y : RegIdx) (s : State),
    (∃ t, exec (.skipEqReg x y) s = .next t ∧
      t.pc = (if s.reg x = s.reg y then (s.pc + 2) % 2 ^ s.cfg.pcW else s.pc) ∧ Frame [.pc] [] s t) ∧
    (∃ t, exec (.skipNeqReg x y) s = .next t ∧
      t.pc = (if s.reg x = s.reg y then s.pc else (s.pc + 2) % 2 ^ s.cfg.pcW) ∧ Frame [.pc] [] s t)

/-- The skips on a key: for a key number below `NKEYS`, 0 to 15 at the defaults, `pc` goes 2 further if the key is down, or if
it is not, and nothing else changes; any other number raises `KeyIndexOutOfRange` (R101, R102; decision D6). -/
def Obligations.SkipsOnAKey : Prop :=
  ∀ (x : RegIdx) (s : State),
    (s.reg x < s.cfg.nKeys →
      (∃ t, exec (.skipIfKeyDown x) s = .next t ∧
        t.pc = (if s.keyDown (s.reg x) = true then (s.pc + 2) % 2 ^ s.cfg.pcW else s.pc) ∧ Frame [.pc] [] s t) ∧
      (∃ t, exec (.skipIfKeyUp x) s = .next t ∧
        t.pc = (if s.keyDown (s.reg x) = true then s.pc else (s.pc + 2) % 2 ^ s.cfg.pcW) ∧ Frame [.pc] [] s t)) ∧
    (s.cfg.nKeys ≤ s.reg x →
      exec (.skipIfKeyDown x) s = .fault (.keyIndexOutOfRange (s.reg x) s.ia none) ∧
      exec (.skipIfKeyUp x) s = .fault (.keyIndexOutOfRange (s.reg x) s.ia none))

/-! ## The index register and memory transfers -/

/-- set-index and font-char: `I` is NNN, or 0x050 + 5 · V[X] with V[X] not masked; nothing else changes (R120, R122, at the
defaults). What the statement says away from them is the model's choice (log entry 16, on R5 and R9): NNN is truncated where `I`
is narrower than 12 bits, and font-char gives `FONT_BASE` + `GLYPH_BYTES` · V[X] mod 2 to the width of `I`. -/
def Obligations.SetIndexAndFontChar : Prop :=
  (∀ (nnn : BitVec 12) (s : State), ∃ t, exec (.setIndex nnn) s = .next t ∧ t.index = nnn.toNat % 2 ^ s.cfg.iW ∧
    (12 ≤ s.cfg.iW → t.index = nnn.toNat) ∧ Frame [.index] [] s t) ∧
  (∀ (x : RegIdx) (s : State), ∃ t, exec (.fontChar x) s = .next t ∧
    t.index = (s.cfg.fontBase + s.reg x * s.cfg.glyphBytes) % 2 ^ s.cfg.iW ∧
    (s.cfg.fontBase = 0x050 → s.cfg.glyphBytes = 5 → s.cfg.regW = 8 → s.cfg.iW = 16 → t.index = 0x050 + s.reg x * 5) ∧
    Frame [.index] [] s t)

/-- add-index: `I` is `I` + V[X] mod 2^16; VF becomes 1 with `INDEX_OVERFLOW_FLAG` on and the new `I` above 0xFFF, and is
unchanged otherwise (R121; decisions D8, D18). -/
def Obligations.AddIndexWrapsAndFlagsAboveRange : Prop :=
  ∀ (x : RegIdx) (s : State), ∃ t, exec (.addIndex x) s = .next t ∧
    t.index = (s.index + s.reg x) % 2 ^ s.cfg.iW ∧
    t.reg s.cfg.flagReg =
      (if s.cfg.indexOverflowFlag = true ∧ 0xFFF < t.index then 1 % 2 ^ s.cfg.regW else s.reg s.cfg.flagReg) ∧
    Frame [.index] [s.cfg.flagReg] s t

/-- bcd: with the three addresses from `I` accessible, they hold the hundreds, tens and units of V[X], and every other byte
and everything else is as before (R123, R57). The hundreds are a byte in any case, and less than 256 for registers of 8 bits. The
three reach different bytes in any memory of 3 bytes or more. -/
def Obligations.BcdStoresThreeDigits : Prop :=
  ∀ (x : RegIdx) (s : State), AccessibleFromIndex s 3 → ∃ t, exec (.bcd x) s = .next t ∧
    (3 ≤ s.cfg.memSize → (t.byteAt (s.reached 0)).toNat = s.reg x / 100 % 256 ∧
      (t.byteAt (s.reached 1)).toNat = s.reg x / 10 % 10 ∧ (t.byteAt (s.reached 2)).toNat = s.reg x % 10) ∧
    SameBytesExcept [s.reached 0, s.reached 1, s.reached 2] s t ∧ Frame [.memory] [] s t

/-- store-regs: with the X + 1 addresses from `I` accessible, they hold V[0] to V[X], every other byte is as before, and `I`
rises by X + 1 mod 2^16 in classic mode and stays otherwise (R124, R57; decision D7). The addresses reach different bytes in
any memory of more than X bytes. -/
def Obligations.StoreRegsStoresV0ToVX : Prop :=
  ∀ (x : RegIdx) (s : State), AccessibleFromIndex s (x.val + 1) → ∃ t, exec (.storeRegs x) s = .next t ∧
    (x.val < s.cfg.memSize → ∀ j, j ≤ x.val → (t.byteAt (s.reached j)).toNat = s.reg j % 256) ∧
    SameBytesExcept ((List.range (x.val + 1)).map s.reached) s t ∧
    t.index = (if s.cfg.classicMode then (s.index + x.val + 1) % 2 ^ s.cfg.iW else s.index) ∧
    Frame [.memory, .index] [] s t

/-- load-regs: with the X + 1 addresses from `I` accessible, V[0] to V[X] hold their bytes, memory is as before, and `I`
rises by X + 1 mod 2^16 in classic mode and stays otherwise (R125, R57; decision D7). -/
def Obligations.LoadRegsLoadsV0ToVX : Prop :=
  ∀ (x : RegIdx) (s : State), AccessibleFromIndex s (x.val + 1) → ∃ t, exec (.loadRegs x) s = .next t ∧
    (∀ j, j ≤ x.val → t.reg j = (s.byteAt (s.reached j)).toNat % 2 ^ s.cfg.regW) ∧
    (∀ j, x.val < j → t.reg j = s.reg j) ∧
    t.index = (if s.cfg.classicMode then (s.index + x.val + 1) % 2 ^ s.cfg.iW else s.index) ∧
    Frame [.index] (regsUpTo x) s t

/-- The transfers out of range: under `OOB_POLICY` = `FAULT`, bcd, store-regs and load-regs whose addresses reach `MEM_SIZE`,
0x1000 at the defaults, raise `MemOutOfRange` with the first address that does, the greater of `I` and it (R123 to R125, R57,
R143; decision D3). -/
def Obligations.TransfersOutOfRangeFault : Prop :=
  ∀ (x : RegIdx) (s : State), s.cfg.oobPolicy = .fault →
    (s.cfg.memSize < s.index + 3 →
      exec (.bcd x) s = .fault (.memOutOfRange .write (max s.index s.cfg.memSize) s.ia none)) ∧
    (s.cfg.memSize < s.index + (x.val + 1) →
      exec (.storeRegs x) s = .fault (.memOutOfRange .write (max s.index s.cfg.memSize) s.ia none) ∧
      exec (.loadRegs x) s = .fault (.memOutOfRange .read (max s.index s.cfg.memSize) s.ia none))

/-! ## Display -/

/-- clear-screen: every pixel is off and the dirty flag is set, even on a clear screen; nothing else changes, VF included
(R127, R128; decision D14). -/
def Obligations.ClearScreenClearsEveryPixel : Prop :=
  ∀ s : State, ∃ t, exec .clearScreen s = .next t ∧ (∀ px py, t.pixel px py = false) ∧ t.dirty = true ∧
    Frame [.display] [] s t

/-- draw, every form: with the rows it reads accessible, it toggles exactly the pixels of its touch set; VF is 1 if one of
them was on and 0 otherwise; the dirty flag is set if there is one and stays otherwise; nothing else changes. The touch set
starts at V[X] and V[Y] masked to the framebuffer's size, V[X] mod 64 and V[Y] mod 32 at the defaults, is clipped at the right
and bottom edges, and reads VF where `TEXT_ORDER` reads it when X or Y is VF (R129, R130, R127; decisions D10, D14). -/
def Obligations.DrawTogglesExactlyItsTouchSet : Prop :=
  ∀ (x y : RegIdx) (n : Fin 16) (s : State), AccessibleFromIndex s (spriteRowsRead s y n) →
    ∃ t, exec (.draw x y n) s = .next t ∧
      (∀ px py, t.pixel px py = true ↔ (s.pixel px py = true ↔ ¬ spriteTouches s x y n px py)) ∧
      ((∃ px py, spriteTouches s x y n px py ∧ s.pixel px py = true) → t.reg s.cfg.flagReg = 1 % 2 ^ s.cfg.regW) ∧
      ((∀ px py, spriteTouches s x y n px py → s.pixel px py = false) → t.reg s.cfg.flagReg = 0) ∧
      (t.dirty = true ↔ s.dirty = true ∨ ∃ px py, spriteTouches s x y n px py) ∧
      Frame [.display] [s.cfg.flagReg] s t

/-- draw out of range, under `OOB_POLICY` = `FAULT`: a draw one of whose rows min(N, 32 - top) lies at or above `MEM_SIZE`,
0x1000 at the defaults, raises `MemOutOfRange(read, a)` with the first such address; a draw of which only rows clipped off the
bottom lie there, or which draws no row, completes, so clipped rows are never read (R129, R130, R57; decision D3). -/
def Obligations.DrawOutOfRangeFaults : Prop :=
  ∀ (x y : RegIdx) (n : Fin 16) (s : State), s.cfg.oobPolicy = .fault →
    (0 < spriteRowsRead s y n → s.cfg.memSize < s.index + spriteRowsRead s y n →
      exec (.draw x y n) s = .fault (.memOutOfRange .read (max s.index s.cfg.memSize) s.ia none)) ∧
    (spriteRowsRead s y n = 0 ∨ s.index + spriteRowsRead s y n ≤ s.cfg.memSize →
      ∃ t, exec (.draw x y n) s = .next t)

/-- Two equal draws in a row restore every pixel when neither X nor Y is VF, and the second sets VF to 1 exactly when the
first turned a pixel on, in a register of one bit or more (R130; 90_conflicts.md C13). -/
def Obligations.DrawTwiceRestoresEveryPixel : Prop :=
  ∀ (x y : RegIdx) (n : Fin 16) (s t : State), x ≠ s.cfg.flagReg → y ≠ s.cfg.flagReg → exec (.draw x y n) s = .next t →
    ∃ u, exec (.draw x y n) t = .next u ∧ (∀ px py, u.pixel px py = s.pixel px py) ∧
      (0 < s.cfg.regW → (u.reg s.cfg.flagReg = 1 ↔ ∃ px py, s.pixel px py = false ∧ t.pixel px py = true))

/-- The exported framebuffer: width × height cells, 64 × 32 at the defaults, row-major, all ones for a pixel that is on and
zero for one that is off (R38). -/
def Obligations.ExportedCellsAreRowMajor : Prop :=
  ∀ s : State, (exportedCells s.cfg s.fb).length = s.cfg.fbWidth * s.cfg.fbHeight ∧
    ∀ px py, px < s.cfg.fbWidth → py < s.cfg.fbHeight → (exportedCells s.cfg s.fb)[py * s.cfg.fbWidth + px]? =
      some (if s.pixel px py = true then 0xFFFFFFFF else 0x00000000)

/-! ## Timers and keys -/

/-- get-delay, set-delay and set-sound move one byte between V[X] and a timer and change nothing else (R131 to R133). -/
def Obligations.TimerTransfers : Prop :=
  ∀ (x : RegIdx) (s : State),
    (∃ t, exec (.getDelay x) s = .next t ∧ t.reg x = s.dt.toNat % 2 ^ s.cfg.regW ∧ Frame [] [x] s t) ∧
    (∃ t, exec (.setDelay x) s = .next t ∧ t.dt.toNat = s.reg x % 256 ∧ Frame [.delay] [] s t) ∧
    (∃ t, exec (.setSound x) s = .next t ∧ t.st.toNat = s.reg x % 256 ∧ Frame [.sound] [] s t)

/-- wait-key: with a pressed edge, V[X] is the least key that has one (its number truncated to the register's width, R9) and execution goes on; with
none, `pc` goes back to this instruction and nothing else changes (R134; decision D12). -/
def Obligations.WaitKeyTakesTheLeastPressedKeyOrStays : Prop :=
  ∀ (x : RegIdx) (s : State),
    (∀ k, k < s.cfg.nKeys → s.keyPressed k = true → (∀ j, j < k → s.keyPressed j = false) →
      ∃ t, exec (.waitKey x) s = .next t ∧ t.reg x = k % 2 ^ s.cfg.regW ∧ Frame [] [x] s t) ∧
    ((∀ k, k < s.cfg.nKeys → s.keyPressed k = false) →
      ∃ t, exec (.waitKey x) s = .next t ∧ t.pc = s.ia ∧ Frame [.pc] [] s t)

/-- The timers' decay: each falls by exactly 1 while above 0 and stays at 0, and nothing else changes (R135). -/
def Obligations.DecayTimersFloorsAtZero : Prop :=
  ∀ s : State, s.decayTimers.dt.toNat = s.dt.toNat - 1 ∧ s.decayTimers.st.toNat = s.st.toNat - 1 ∧
    Frame [.delay, .sound] [] s s.decayTimers

/-- A key event between polls: a press of a key that is up puts it down and sets its pressed edge, a release of a key that is
down puts it up and sets its released edge, and otherwise the keypad stays; no other key and nothing else of the block
changes, so no event changes control flow (R41, R144; decision D13). The queue that holds the event is the model's own (log
entry 11). An event of a key that the keypad does not have, which R161 assumes away, is refused: the refusal and its form are
the model's choice (log entry 31). -/
def Obligations.KeyEventsChangeOnlyTheirKey : Prop :=
  ∀ (s : State) (k : Nat) (rest : List HostInput), s.fault = none →
    (s.hostInputs = .press k :: rest → k < s.cfg.nKeys →
      ∃ t, step s = .next t ∧ t.keyDown k = true ∧ t.keyPressed k = (s.keyPressed k || !s.keyDown k) ∧
        (∀ j, j ≠ k → t.keyDown j = s.keyDown j ∧ t.keyPressed j = s.keyPressed j) ∧
        SameHidden { s with
          down := t.down, pressedEdge := t.pressedEdge, hostInputs := rest, repaint := none } t ∧
        t.v = s.v ∧ t.pc = s.pc ∧ t.index = s.index ∧ t.sp = s.sp ∧ t.stack = s.stack ∧ t.dt = s.dt ∧ t.st = s.st ∧
        t.mem = s.mem ∧ t.fb = s.fb ∧ t.dirty = s.dirty ∧ t.draws = s.draws ∧ t.hostBytes = s.hostBytes) ∧
    (s.hostInputs = .release k :: rest → k < s.cfg.nKeys →
      ∃ t, step s = .next t ∧ t.keyDown k = false ∧ t.keyReleased k = (s.keyReleased k || s.keyDown k) ∧
        (∀ j, j ≠ k → t.keyDown j = s.keyDown j ∧ t.keyReleased j = s.keyReleased j) ∧
        SameHidden { s with
          down := t.down, releasedEdge := t.releasedEdge, hostInputs := rest, repaint := none } t ∧
        t.v = s.v ∧ t.pc = s.pc ∧ t.index = s.index ∧ t.sp = s.sp ∧ t.stack = s.stack ∧ t.dt = s.dt ∧ t.st = s.st ∧
        t.mem = s.mem ∧ t.fb = s.fb ∧ t.dirty = s.dirty ∧ t.draws = s.draws ∧ t.hostBytes = s.hostBytes) ∧
    (s.hostInputs = .press k :: rest ∨ s.hostInputs = .release k :: rest → s.cfg.nKeys ≤ k →
      step s = .refused (.keyNotOnKeypad k))

/-! ## The scheduler -/

/-- The edge flags are cleared once per cycle tick, right after it, with `down` left alone, and a poll in which the cpu
clock is not due leaves them as they are (R152, R42). -/
def Obligations.EdgesClearAfterTheCycleTickOnly : Prop :=
  (∀ s u : State, tick s = .next u → ∃ t, cycleAction s = .next t ∧ t.kCpu = u.kCpu + 1 ∧ t.down = u.down ∧
    (∀ k, t.keyPressed k = false ∧ t.keyReleased k = false) ∧
    t.pc = u.pc ∧ t.kTimer = u.kTimer ∧ t.kFrame = u.kFrame ∧ t.t0 = u.t0 ∧ t.lastNow = u.lastNow ∧
    t.fault = u.fault ∧ t.cfg = u.cfg ∧ t.hostInputs = u.hostInputs ∧ t.repaint = u.repaint ∧
    t.v = u.v ∧ t.index = u.index ∧ t.sp = u.sp ∧ t.stack = u.stack ∧ t.dt = u.dt ∧ t.st = u.st ∧
    t.mem = u.mem ∧ t.fb = u.fb ∧ t.dirty = u.dirty ∧ t.draws = u.draws ∧ t.hostBytes = u.hostBytes) ∧
  (∀ (now : Nat) (s : State), s.lastNow ≤ now → due s.cfg.cpuHz s.kCpu s.t0 now = false →
    ∃ t, poll now s = .next t ∧ t.pressedEdge = s.pressedEdge ∧ t.releasedEdge = s.releasedEdge ∧
      t.down = s.down)

/-- One poll: the cycle action if the cpu clock is due, giving `u`; then the timers decay if the timer clock is due; then, if
the frame clock is due, a repaint of the framebuffer as it stands if it is dirty, which clears the flag. Nothing else of `u`
changes (R151, R153, R154; decisions D17, D30). -/
def Obligations.PollRunsCycleThenTimerThenFrame : Prop :=
  ∀ (now : Nat) (s u : State), s.lastNow ≤ now →
    (due s.cfg.cpuHz s.kCpu s.t0 now = true → cycleAction s.clearRepaint = .next u) →
    (due s.cfg.cpuHz s.kCpu s.t0 now = false → u = s.clearRepaint) →
    ∃ t, poll now s = .next t ∧ t.lastNow = now ∧
      (due u.cfg.timerHz u.kTimer u.t0 now = true →
        t.kTimer = u.kTimer + 1 ∧ t.dt.toNat = u.dt.toNat - 1 ∧ t.st.toNat = u.st.toNat - 1) ∧
      (due u.cfg.timerHz u.kTimer u.t0 now = false → t.kTimer = u.kTimer ∧ t.dt = u.dt ∧ t.st = u.st) ∧
      (due u.cfg.frameHz u.kFrame u.t0 now = true → t.kFrame = u.kFrame + 1 ∧ t.dirty = false ∧
        t.repaint = if u.dirty = true then some u.fb else u.repaint) ∧
      (due u.cfg.frameHz u.kFrame u.t0 now = false →
        t.kFrame = u.kFrame ∧ t.dirty = u.dirty ∧ t.repaint = u.repaint) ∧
      t.v = u.v ∧ t.pc = u.pc ∧ t.index = u.index ∧ t.sp = u.sp ∧ t.stack = u.stack ∧ t.mem = u.mem ∧ t.fb = u.fb ∧
      t.down = u.down ∧ t.pressedEdge = u.pressedEdge ∧ t.releasedEdge = u.releasedEdge ∧ t.kCpu = u.kCpu ∧
      t.t0 = u.t0 ∧ t.fault = u.fault ∧ t.cfg = u.cfg ∧ t.hostInputs = u.hostInputs ∧ t.draws = u.draws ∧
      t.hostBytes = u.hostBytes

/-- Each clock fires at most once in a poll, and exactly when it is due by the integer test of R150 (R155, R150; decision
D17). -/
def Obligations.EachClockFiresOnceIffDue : Prop :=
  ∀ (now : Nat) (s t : State), poll now s = .next t →
    t.kCpu = (if (s.kCpu + 1) * 1000000000 ≤ (now - s.t0) * s.cfg.cpuHz then s.kCpu + 1 else s.kCpu) ∧
    t.kTimer = (if (s.kTimer + 1) * 1000000000 ≤ (now - s.t0) * s.cfg.timerHz then s.kTimer + 1 else s.kTimer) ∧
    t.kFrame = (if (s.kFrame + 1) * 1000000000 ≤ (now - s.t0) * s.cfg.frameHz then s.kFrame + 1 else s.kFrame)

/-- Drift: a clock whose count is exact before a poll, and which the host polls again within its period, has the exact count
floor((now - t0) · HZ / 10^9) after it (R156). -/
def Obligations.PunctualPollsKeepEveryClockExact : Prop :=
  ∀ (now : Nat) (s t : State), poll now s = .next t → s.t0 ≤ s.lastNow →
    (s.kCpu = exactFirings s.cfg.cpuHz s.t0 s.lastNow → (now - s.lastNow) * s.cfg.cpuHz ≤ 1000000000 →
      t.kCpu = exactFirings s.cfg.cpuHz s.t0 now) ∧
    (s.kTimer = exactFirings s.cfg.timerHz s.t0 s.lastNow → (now - s.lastNow) * s.cfg.timerHz ≤ 1000000000 →
      t.kTimer = exactFirings s.cfg.timerHz s.t0 now) ∧
    (s.kFrame = exactFirings s.cfg.frameHz s.t0 s.lastNow → (now - s.lastNow) * s.cfg.frameHz ≤ 1000000000 →
      t.kFrame = exactFirings s.cfg.frameHz s.t0 now)

/-- A fault raised inside a tick ends its poll, whatever the other clocks would do; it is recorded, and after that no step
changes any state (R142; decisions D25, D30). How a fault is recorded is the model's reading (log entry 14). So a fault ends the
run of a launched program, and a run that faults with its end point never reached refutes the claim, whatever the claim says
(R185). -/
def Obligations.FaultEndsThePollAndTheRun : Prop :=
  (∀ (now : Nat) (s : State) (f : Fault), s.lastNow ≤ now → due s.cfg.cpuHz s.kCpu s.t0 now = true →
    tick s.clearRepaint = .fault f → poll now s = .fault f) ∧
  (∀ (s : State) (f : Fault), step s = .fault f →
    s.afterStep.fault = some f ∧ ∀ n, s.afterStep.afterSteps n = s.afterStep) ∧
  (∀ (h : HostRun) (s : State) (n : Nat) (f : Fault), h.outcome s n = .fault f →
    ∀ k, h.outcome s (n + k) = .fault f) ∧
  (∀ (c : Claim) (l : Launch) (s : State) (h : HostRun) (n : Nat) (f : Fault), c.pre l → l.start = .ok s →
    h.outcome s n = .fault f → (∀ m, m < n → ¬ h.atEnd s c.endPoint m) → ¬ c.Holds)

/-- The model's choice (log entry 20): a poll whose time is below the previous poll's is refused, as `hostTimeDecreased` with
both times. R160 and decision D16 say only that the host never supplies one and that the case is not modelled (no move). -/
def Obligations.DecreasingTimeIsRefused : Prop :=
  ∀ (now : Nat) (s : State), now < s.lastNow → poll now s = .refused (.hostTimeDecreased now s.lastNow)

/-! ## Rules of the whole machine -/

/-- Only call and return move the stack pointer or change the stack (R27, R33). -/
def Obligations.OnlyCallAndReturnTouchTheStack : Prop :=
  ∀ (i : Instr) (s t : State), exec i s = .next t → i ≠ .ret → (∀ nnn, i ≠ .call nnn) →
    t.sp = s.sp ∧ t.stack = s.stack

/-- Only clear-screen and draw change a pixel or the dirty flag (R37, R39). -/
def Obligations.OnlyClearAndDrawTouchTheDisplay : Prop :=
  ∀ (i : Instr) (s t : State), exec i s = .next t → i ≠ .clearScreen → (∀ x y n, i ≠ .draw x y n) →
    t.fb = s.fb ∧ t.dirty = s.dirty

/-- Only set-index, add-index and font-char write `I`, and store-regs and load-regs in classic mode (R26). -/
def Obligations.OnlyIndexInstructionsWriteIndex : Prop :=
  ∀ (i : Instr) (s t : State), exec i s = .next t → t.index ≠ s.index →
    (∃ nnn, i = .setIndex nnn) ∨ (∃ x, i = .addIndex x) ∨ (∃ x, i = .fontChar x) ∨
    (s.cfg.classicMode = true ∧ ∃ x, i = .storeRegs x ∨ i = .loadRegs x)

/-- Only bcd and store-regs write memory, and only set-delay and set-sound their timer (R51, R30, R31). -/
def Obligations.OnlyTheirInstructionsWriteMemoryAndTimers : Prop :=
  ∀ (i : Instr) (s t : State), exec i s = .next t →
    ((∀ x, i ≠ .bcd x) → (∀ x, i ≠ .storeRegs x) → t.mem = s.mem) ∧
    ((∀ x, i ≠ .setDelay x) → t.dt = s.dt) ∧
    ((∀ x, i ≠ .setSound x) → t.st = s.st)

/-- A register changes only if R22 lists it for the instruction: X, V[0] to V[X] of a load, or VF of an instruction with a
flag outcome (R22, R29). -/
def Obligations.OnlyListedRegistersChange : Prop :=
  ∀ (i : Instr) (s t : State), exec i s = .next t → SameRegsExcept (writtenRegs s.cfg.flagReg i) s t

/-- No instruction changes the keypad, the scheduler's state, the parameters, the fault record or the host's side (R33, R32,
R46). -/
def Obligations.NoInstructionTouchesHiddenState : Prop :=
  ∀ (i : Instr) (s t : State), exec i s = .next t → SameHidden s t

/-- An instruction faults only as R141 lists, and is never refused: a call with a full stack, a return with an empty one, a
key skip with a number the keypad does not have, and under `OOB_POLICY` = `FAULT` an access at or above `MEM_SIZE` by draw,
bcd, store-regs or load-regs (R141, R140; decisions D3 to D6). -/
def Obligations.InstructionsFaultOnlyAsListed : Prop :=
  ∀ (i : Instr) (s : State),
    (∀ r, exec i s ≠ .refused r) ∧
    (∀ f, exec i s = .fault f →
      ((∃ nnn, i = .call nnn) ∧ s.cfg.stackDepth ≤ s.sp ∧ f = .stackOverflow s.ia none) ∨
      (i = .ret ∧ s.sp = 0 ∧ f = .stackUnderflow s.ia none) ∨
      (∃ x, (i = .skipIfKeyDown x ∨ i = .skipIfKeyUp x) ∧ s.cfg.nKeys ≤ s.reg x ∧
        f = .keyIndexOutOfRange (s.reg x) s.ia none) ∨
      (s.cfg.oobPolicy = .fault ∧ ∃ a, s.cfg.memSize ≤ a ∧
        (((∃ x y n, i = .draw x y n) ∨ (∃ x, i = .loadRegs x)) ∧ f = .memOutOfRange .read a s.ia none ∨
          (∃ x, i = .bcd x ∨ i = .storeRegs x) ∧ f = .memOutOfRange .write a s.ia none)))

/-! ## Reset, launch, the invariant and parking -/

/-- The state after construction: `pc` at 0x200, every other register 0, memory the 80 font bytes of R36 at 0x050 to 0x09F and
0 elsewhere, and no fault (R45, R35). The font's bytes are decision D11, which takes them from general knowledge (log entry
7). The screen, keypad, stack entries, dirty flag and counts at 0 are decisions D14, D15, D17. -/
def Obligations.ResetIsAsConstructed : Prop :=
  State.reset.pc = 0x200 ∧ (∀ r, State.reset.reg r = 0) ∧ State.reset.index = 0 ∧ State.reset.sp = 0 ∧
  (∀ j, State.reset.stackAt j = 0) ∧ State.reset.dt = 0 ∧ State.reset.st = 0 ∧
  (∀ a, a < 0x050 ∨ 0x0A0 ≤ a → State.reset.byteAt a = 0) ∧
  (List.range 80).map (fun k => State.reset.byteAt (0x050 + k)) =
    [0xF0, 0x90, 0x90, 0x90, 0xF0] ++ [0x20, 0x60, 0x20, 0x20, 0x70] ++ [0xF0, 0x10, 0xF0, 0x80, 0xF0] ++
    [0xF0, 0x10, 0xF0, 0x10, 0xF0] ++ [0x90, 0x90, 0xF0, 0x10, 0x10] ++ [0xF0, 0x80, 0xF0, 0x10, 0xF0] ++
    [0xF0, 0x80, 0xF0, 0x90, 0xF0] ++ [0xF0, 0x10, 0x20, 0x40, 0x40] ++ [0xF0, 0x90, 0xF0, 0x90, 0xF0] ++
    [0xF0, 0x90, 0xF0, 0x10, 0xF0] ++ [0xF0, 0x90, 0xF0, 0x90, 0x90] ++ [0xE0, 0x90, 0xE0, 0x90, 0xE0] ++
    [0xF0, 0x80, 0x80, 0x80, 0xF0] ++ [0xE0, 0x90, 0x90, 0x90, 0xE0] ++ [0xF0, 0x80, 0xF0, 0x80, 0xF0] ++
    [0xF0, 0x80, 0xF0, 0x80, 0x80] ∧
  (∀ px py, State.reset.pixel px py = false) ∧ State.reset.dirty = false ∧
  (∀ k, State.reset.keyDown k = false ∧ State.reset.keyPressed k = false ∧ State.reset.keyReleased k = false) ∧
  State.reset.kCpu = 0 ∧ State.reset.kTimer = 0 ∧ State.reset.kFrame = 0 ∧ State.reset.fault = none

/-- The launch: a font of `GLYPHS` · `GLYPH_BYTES` bytes that fits in memory and an image of at most `MEM_SIZE` - `PROG_BASE`
bytes (80 and 3584 at the defaults) give the constructed state with the host's parameters and start time and memory holding
the image from `PROG_BASE`, the font at `FONT_BASE` and 0 elsewhere, in canonical form; a longer image is refused (R164, R170,
R173, R35; decisions D11, D16, D20). Where parameters that vary make the two overlap, the image stands: it is written last
(R170). Refusing a `FLAGREG` that is none of the `NREGS` registers is the model's choice (log entry 23). -/
def Obligations.LaunchLoadsFontAndImage : Prop :=
  ∀ (cfg : Params) (font image : List Byte) (t0 : Nat), 0 < cfg.memSize → font.length = cfg.glyphs * cfg.glyphBytes →
    cfg.fontBase + font.length ≤ cfg.memSize →
    (cfg.flagReg < cfg.nRegs → image.length ≤ cfg.memSize - cfg.progBase → ∃ t, launch cfg font t0 image = .ok t ∧
      (∀ k, k < image.length → t.byteAt (cfg.progBase + k) = image.getD k 0) ∧
      (∀ k, k < font.length → cfg.fontBase + k < cfg.progBase ∨ cfg.progBase + image.length ≤ cfg.fontBase + k →
        t.byteAt (cfg.fontBase + k) = font.getD k 0) ∧
      (∀ a, a < cfg.memSize → a < cfg.fontBase ∨ cfg.fontBase + font.length ≤ a →
        a < cfg.progBase ∨ cfg.progBase + image.length ≤ a → t.byteAt a = 0) ∧
      t.mem.wf cfg.memSize = true ∧ t = { State.constructed cfg with t0 := t0, lastNow := t0, mem := t.mem }) ∧
    (cfg.flagReg < cfg.nRegs → cfg.memSize - cfg.progBase < image.length →
      launch cfg font t0 image = .error (.imageTooLong image.length)) ∧
    (cfg.nRegs ≤ cfg.flagReg → launch cfg font t0 image = .error .noFlagRegister)

/-- The reset state meets the invariant. Its `t0` and `lastNow` of 0 are the model's choice (log entry 9). -/
def Obligations.ResetMeetsTheInvariant : Prop := Inv State.reset

/-- Every step keeps the invariant, whatever input the host supplies: memory stays canonical and inside the address space, the
arrays keep their sizes, the registers their widths and `sp` its range, time does not run backwards, no clock runs ahead of its
rate, the key edges fit the keys, and a repaint shows the framebuffer as it stands (R34, R20, R23, R26, R27, R37, R40, R160, R156,
R41, R42, R154). The poll of a step with no input waiting is the model's choice (log entry 10). -/
def Obligations.EveryStepKeepsTheInvariant : Prop :=
  ∀ s t : State, Inv s → step s = .next t → Inv t

/-- Parked: from a state between polls whose `pc` is at a jump to itself, every safe run of any length stays parked there with
the registers, `I`, the stack, memory and the framebuffer as they were; and a poll at a time that does not decrease always
completes (R181; decision D22). The steps are the host's inputs, or the model's own poll where none waits (log entry 10). So on a
run of a launched program, whatever the host does, what a claim at `Parked(a)` says of those is settled when `a` is first reached
(R185). -/
def Obligations.ParkedStaysParked : Prop :=
  (∀ (a : BitVec 12) (n : Nat) (s t : State), Parked a s → SafeRun n s t →
    Parked a t ∧ t.v = s.v ∧ t.index = s.index ∧ t.sp = s.sp ∧ t.stack = s.stack ∧ t.mem = s.mem ∧ t.fb = s.fb) ∧
  (∀ (a : BitVec 12) (s : State) (now : Nat), Parked a s → s.lastNow ≤ now → ∃ t, poll now s = .next t) ∧
  (∀ (a : BitVec 12) (h : HostRun) (s t u : State) (m k : Nat), h.outcome s m = .next t → Parked a t →
    h.outcome s (m + k) = .next u →
    Parked a u ∧ u.v = t.v ∧ u.index = t.index ∧ u.sp = t.sp ∧ u.stack = t.stack ∧ u.mem = t.mem ∧ u.fb = t.fb)
end

