-- ==== Sys2Proof/Laws/Encoding.lean ====
section
/-! SUPPORT. The fields of a packed word, and a packed word under a mask of the opcode table. -/

namespace Sys2Proof

/-- The high part of an append. -/
theorem extract_append_high {n m : Nat} (x : BitVec n) (y : BitVec m) : (x ++ y).extractLsb' m n = x := by
  ext i hi; simp [BitVec.getLsbD_append, hi]

/-- A piece of the low part of an append. -/
theorem extract_append_low {n m : Nat} (x : BitVec n) (y : BitVec m) (s l : Nat) (h : s + l ≤ m) :
    (x ++ y).extractLsb' s l = y.extractLsb' s l := by
  ext i hi; simp [BitVec.getLsbD_append, show s + i < m by omega]

/-- Both parts of an append under a mask. -/
theorem and_append_append {n m : Nat} (x p : BitVec n) (y q : BitVec m) :
    (x ++ y) &&& (p ++ q) = (x &&& p) ++ (y &&& q) := BitVec.and_append

/-- A nibble under a full mask. -/
theorem nibble_and_full (g : BitVec 4) : g &&& 15#4 = g := BitVec.and_allOnes

/-- A byte under a full mask. -/
theorem byte_and_full (b : Byte) : b &&& 255#8 = b := BitVec.and_allOnes

@[simp] theorem fieldG_packA (g : BitVec 4) (nnn : BitVec 12) : fieldG (packA g nnn) = g.toFin :=
  congrArg BitVec.toFin (extract_append_high g nnn)

@[simp] theorem fieldNNN_packA (g : BitVec 4) (nnn : BitVec 12) : fieldNNN (packA g nnn) = nnn :=
  (extract_append_low g nnn 0 12 (by decide)).trans (BitVec.extractLsb'_eq_self)

theorem fieldX_packA (g : BitVec 4) (nnn : BitVec 12) : fieldX (packA g nnn) = topNibble nnn :=
  congrArg BitVec.toFin (extract_append_low g nnn 8 4 (by decide))

theorem fieldNN_packA (g : BitVec 4) (nnn : BitVec 12) : fieldNN (packA g nnn) = nnn.extractLsb' 0 8 :=
  extract_append_low g nnn 0 8 (by decide)

@[simp] theorem fieldG_packXK (g : BitVec 4) (x : RegIdx) (nn : Byte) : fieldG (packXK g x nn) = g.toFin :=
  fieldG_packA g _

@[simp] theorem fieldX_packXK (g : BitVec 4) (x : RegIdx) (nn : Byte) : fieldX (packXK g x nn) = x :=
  (fieldX_packA g _).trans (congrArg BitVec.toFin (extract_append_high (BitVec.ofFin (w := 4) x) nn))

@[simp] theorem fieldNN_packXK (g : BitVec 4) (x : RegIdx) (nn : Byte) : fieldNN (packXK g x nn) = nn :=
  (fieldNN_packA g _).trans
    ((extract_append_low (BitVec.ofFin (w := 4) x) nn 0 8 (by decide)).trans BitVec.extractLsb'_eq_self)

@[simp] theorem fieldG_packXYN (g : BitVec 4) (x y : RegIdx) (n : Fin 16) : fieldG (packXYN g x y n) = g.toFin :=
  fieldG_packA g _

@[simp] theorem fieldX_packXYN (g : BitVec 4) (x y : RegIdx) (n : Fin 16) : fieldX (packXYN g x y n) = x :=
  fieldX_packXK g x _

@[simp] theorem fieldY_packXYN (g : BitVec 4) (x y : RegIdx) (n : Fin 16) : fieldY (packXYN g x y n) = y :=
  congrArg BitVec.toFin
    ((extract_append_low g _ 4 4 (by decide)).trans
      ((extract_append_low (BitVec.ofFin (w := 4) x) _ 4 4 (by decide)).trans
        (extract_append_high (BitVec.ofFin (w := 4) y) (BitVec.ofFin (w := 4) n))))

@[simp] theorem fieldN_packXYN (g : BitVec 4) (x y : RegIdx) (n : Fin 16) : fieldN (packXYN g x y n) = n :=
  congrArg BitVec.toFin
    ((extract_append_low g _ 0 4 (by decide)).trans
      ((extract_append_low (BitVec.ofFin (w := 4) x) _ 0 4 (by decide)).trans
        ((extract_append_low (BitVec.ofFin (w := 4) y) (BitVec.ofFin (w := 4) n) 0 4 (by decide)).trans
          BitVec.extractLsb'_eq_self)))

/-- A word under a mask that keeps G alone. -/
theorem packA_and_maskG (g : BitVec 4) (nnn : BitVec 12) : packA g nnn &&& 0xF000 = packA g 0 :=
  (and_append_append g 0xF nnn 0).trans (by simp [packA, nibble_and_full])

/-- A byte under a mask that drops the register number above it. -/
theorem xk_and_mask (x : RegIdx) (nn : Byte) :
    (BitVec.ofFin (w := 4) x ++ nn) &&& (BitVec.ofFin (w := 4) 0 ++ (0xFF : Byte)) =
      BitVec.ofFin (w := 4) (0 : Fin 16) ++ nn := by
  rw [and_append_append]
  simp [byte_and_full]

/-- A word under a mask that keeps G and NN. -/
theorem packXK_and_maskGNN (g : BitVec 4) (x : RegIdx) (nn : Byte) : packXK g x nn &&& 0xF0FF = packXK g 0 nn :=
  (and_append_append g 0xF (BitVec.ofFin (w := 4) x ++ nn) (BitVec.ofFin (w := 4) 0 ++ (0xFF : Byte))).trans (by
    rw [xk_and_mask]; simp [packXK, nibble_and_full])

/-- A word under a mask that keeps G and N. -/
theorem packXYN_and_maskGN (g : BitVec 4) (x y : RegIdx) (n : Fin 16) :
    packXYN g x y n &&& 0xF00F = packXYN g 0 0 n := by
  have h1 : (BitVec.ofFin (w := 4) y ++ BitVec.ofFin (w := 4) n) &&& (BitVec.ofFin (w := 4) 0 ++ (0xF : BitVec 4)) =
      BitVec.ofFin (w := 4) (0 : Fin 16) ++ BitVec.ofFin (w := 4) n := by
    rw [and_append_append]
    simp [nibble_and_full]
  have h2 := and_append_append (BitVec.ofFin (w := 4) x) (BitVec.ofFin (w := 4) 0)
    (BitVec.ofFin (w := 4) y ++ BitVec.ofFin (w := 4) n) (BitVec.ofFin (w := 4) 0 ++ (0xF : BitVec 4))
  refine (and_append_append g 0xF _ (BitVec.ofFin (w := 4) 0 ++ (BitVec.ofFin (w := 4) 0 ++ (0xF : BitVec 4)))).trans ?_
  rw [h2, h1]
  simp [packXYN, nibble_and_full]

/-! ## A word from its fields -/

/-- Every word is its G above its NNN (30_encoding.md R65). -/
theorem eq_packA (w : Word) : w = packA (BitVec.ofFin (w := 4) (fieldG w)) (fieldNNN w) := by
  apply BitVec.eq_of_getLsbD_eq
  intro i hi
  simp only [packA, BitVec.getLsbD_append, fieldG, fieldNNN, BitVec.ofFin_toFin, BitVec.getLsbD_extractLsb']
  split
  · simp [*]
  · simp [show 12 + (i - 12) = i by omega, show i - 12 < 4 by omega]

theorem fieldNNN_eq (w : Word) : fieldNNN w = BitVec.ofFin (w := 4) (fieldX w) ++ fieldNN w := by
  apply BitVec.eq_of_getLsbD_eq
  intro i hi
  simp only [BitVec.getLsbD_append, fieldX, fieldNN, fieldNNN, BitVec.ofFin_toFin, BitVec.getLsbD_extractLsb']
  split
  · simp [*]
  · simp [show 8 + (i - 8) = i by omega, show i - 8 < 4 by omega, hi]

theorem fieldNN_eq (w : Word) : fieldNN w = BitVec.ofFin (w := 4) (fieldY w) ++ BitVec.ofFin (w := 4) (fieldN w) := by
  apply BitVec.eq_of_getLsbD_eq
  intro i hi
  simp only [BitVec.getLsbD_append, fieldY, fieldN, fieldNN, BitVec.ofFin_toFin, BitVec.getLsbD_extractLsb']
  split
  · simp [*]
  · simp [show 4 + (i - 4) = i by omega, show i - 4 < 4 by omega, hi]

/-- Every word is its G, X and NN in order (R65). -/
theorem eq_packXK (w : Word) : w = packXK (BitVec.ofFin (w := 4) (fieldG w)) (fieldX w) (fieldNN w) := by
  conv_lhs => rw [eq_packA w, fieldNNN_eq w]
  rfl

/-- Every word is its G, X, Y and N in order (R65). -/
theorem eq_packXYN (w : Word) :
    w = packXYN (BitVec.ofFin (w := 4) (fieldG w)) (fieldX w) (fieldY w) (fieldN w) := by
  conv_lhs => rw [eq_packXK w, fieldNN_eq w]
  rfl

end Sys2Proof
end

