-- ==== Sys2Proof/Laws/State.lean ====
section
/-! SUPPORT. One lemma per field of State for each named update of it, true by `rfl`; for the updates that depend on a
condition, one per field they never change. Those of `setLastNow`, which a poll applies to a conditional state, are proved
by a tactic: a simplifier step with them is then a rewrite, and the kernel never compares the two states whole. -/

namespace Sys2Proof.Machine

variable (s : State)

@[simp] theorem State.setFlag_eq (b : Bool) : s.setFlag b = s.setReg s.cfg.flagReg b.toNat := rfl
@[simp] theorem State.advance_eq : s.advance = s.setPc (s.pc + 2) := rfl
@[simp] theorem State.indexPlus_eq (k : Nat) : s.indexPlus k = s.index + k := rfl

/-! ### setReg -/

@[simp] theorem State.setReg_v (x n : Nat) : (s.setReg x n).v = writeAt 0 s.v x (n % 2 ^ s.cfg.regW) := rfl
@[simp] theorem State.setReg_pcBits (x n : Nat) : (s.setReg x n).pcBits = s.pcBits := rfl
@[simp] theorem State.setReg_indexBits (x n : Nat) : (s.setReg x n).indexBits = s.indexBits := rfl
@[simp] theorem State.setReg_sp (x n : Nat) : (s.setReg x n).sp = s.sp := rfl
@[simp] theorem State.setReg_stack (x n : Nat) : (s.setReg x n).stack = s.stack := rfl
@[simp] theorem State.setReg_dt (x n : Nat) : (s.setReg x n).dt = s.dt := rfl
@[simp] theorem State.setReg_st (x n : Nat) : (s.setReg x n).st = s.st := rfl
@[simp] theorem State.setReg_mem (x n : Nat) : (s.setReg x n).mem = s.mem := rfl
@[simp] theorem State.setReg_fb (x n : Nat) : (s.setReg x n).fb = s.fb := rfl
@[simp] theorem State.setReg_dirty (x n : Nat) : (s.setReg x n).dirty = s.dirty := rfl
@[simp] theorem State.setReg_down (x n : Nat) : (s.setReg x n).down = s.down := rfl
@[simp] theorem State.setReg_pressedEdge (x n : Nat) : (s.setReg x n).pressedEdge = s.pressedEdge := rfl
@[simp] theorem State.setReg_releasedEdge (x n : Nat) : (s.setReg x n).releasedEdge = s.releasedEdge := rfl
@[simp] theorem State.setReg_kCpu (x n : Nat) : (s.setReg x n).kCpu = s.kCpu := rfl
@[simp] theorem State.setReg_kTimer (x n : Nat) : (s.setReg x n).kTimer = s.kTimer := rfl
@[simp] theorem State.setReg_kFrame (x n : Nat) : (s.setReg x n).kFrame = s.kFrame := rfl
@[simp] theorem State.setReg_t0 (x n : Nat) : (s.setReg x n).t0 = s.t0 := rfl
@[simp] theorem State.setReg_lastNow (x n : Nat) : (s.setReg x n).lastNow = s.lastNow := rfl
@[simp] theorem State.setReg_fault (x n : Nat) : (s.setReg x n).fault = s.fault := rfl
@[simp] theorem State.setReg_cfg (x n : Nat) : (s.setReg x n).cfg = s.cfg := rfl
@[simp] theorem State.setReg_hostInputs (x n : Nat) : (s.setReg x n).hostInputs = s.hostInputs := rfl
@[simp] theorem State.setReg_draws (x n : Nat) : (s.setReg x n).draws = s.draws := rfl
@[simp] theorem State.setReg_hostBytes (x n : Nat) : (s.setReg x n).hostBytes = s.hostBytes := rfl
@[simp] theorem State.setReg_repaint (x n : Nat) : (s.setReg x n).repaint = s.repaint := rfl
@[simp] theorem State.setReg_pc (x n : Nat) : (s.setReg x n).pc = s.pc := rfl
@[simp] theorem State.setReg_index (x n : Nat) : (s.setReg x n).index = s.index := rfl
@[simp] theorem State.setReg_ia (x n : Nat) : (s.setReg x n).ia = s.ia := rfl
@[simp] theorem State.setReg_stackAt (x n : Nat) (entry : Nat) : (s.setReg x n).stackAt entry = s.stackAt entry := rfl
@[simp] theorem State.setReg_pixel (x n : Nat) (px py : Nat) : (s.setReg x n).pixel px py = s.pixel px py := rfl
@[simp] theorem State.setReg_byteAt (x n : Nat) (addr : Nat) : (s.setReg x n).byteAt addr = s.byteAt addr := rfl

/-! ### setPc -/

@[simp] theorem State.setPc_v (a : Nat) : (s.setPc a).v = s.v := rfl
@[simp] theorem State.setPc_pcBits (a : Nat) : (s.setPc a).pcBits = a % 2 ^ s.cfg.pcW := rfl
@[simp] theorem State.setPc_indexBits (a : Nat) : (s.setPc a).indexBits = s.indexBits := rfl
@[simp] theorem State.setPc_sp (a : Nat) : (s.setPc a).sp = s.sp := rfl
@[simp] theorem State.setPc_stack (a : Nat) : (s.setPc a).stack = s.stack := rfl
@[simp] theorem State.setPc_dt (a : Nat) : (s.setPc a).dt = s.dt := rfl
@[simp] theorem State.setPc_st (a : Nat) : (s.setPc a).st = s.st := rfl
@[simp] theorem State.setPc_mem (a : Nat) : (s.setPc a).mem = s.mem := rfl
@[simp] theorem State.setPc_fb (a : Nat) : (s.setPc a).fb = s.fb := rfl
@[simp] theorem State.setPc_dirty (a : Nat) : (s.setPc a).dirty = s.dirty := rfl
@[simp] theorem State.setPc_down (a : Nat) : (s.setPc a).down = s.down := rfl
@[simp] theorem State.setPc_pressedEdge (a : Nat) : (s.setPc a).pressedEdge = s.pressedEdge := rfl
@[simp] theorem State.setPc_releasedEdge (a : Nat) : (s.setPc a).releasedEdge = s.releasedEdge := rfl
@[simp] theorem State.setPc_kCpu (a : Nat) : (s.setPc a).kCpu = s.kCpu := rfl
@[simp] theorem State.setPc_kTimer (a : Nat) : (s.setPc a).kTimer = s.kTimer := rfl
@[simp] theorem State.setPc_kFrame (a : Nat) : (s.setPc a).kFrame = s.kFrame := rfl
@[simp] theorem State.setPc_t0 (a : Nat) : (s.setPc a).t0 = s.t0 := rfl
@[simp] theorem State.setPc_lastNow (a : Nat) : (s.setPc a).lastNow = s.lastNow := rfl
@[simp] theorem State.setPc_fault (a : Nat) : (s.setPc a).fault = s.fault := rfl
@[simp] theorem State.setPc_cfg (a : Nat) : (s.setPc a).cfg = s.cfg := rfl
@[simp] theorem State.setPc_hostInputs (a : Nat) : (s.setPc a).hostInputs = s.hostInputs := rfl
@[simp] theorem State.setPc_draws (a : Nat) : (s.setPc a).draws = s.draws := rfl
@[simp] theorem State.setPc_hostBytes (a : Nat) : (s.setPc a).hostBytes = s.hostBytes := rfl
@[simp] theorem State.setPc_repaint (a : Nat) : (s.setPc a).repaint = s.repaint := rfl
@[simp] theorem State.setPc_index (a : Nat) : (s.setPc a).index = s.index := rfl
@[simp] theorem State.setPc_reg (a : Nat) (r : Nat) : (s.setPc a).reg r = s.reg r := rfl
@[simp] theorem State.setPc_regByte (a : Nat) (r : Nat) : (s.setPc a).regByte r = s.regByte r := rfl
@[simp] theorem State.setPc_stackAt (a : Nat) (entry : Nat) : (s.setPc a).stackAt entry = s.stackAt entry := rfl
@[simp] theorem State.setPc_pixel (a : Nat) (px py : Nat) : (s.setPc a).pixel px py = s.pixel px py := rfl
@[simp] theorem State.setPc_byteAt (a : Nat) (addr : Nat) : (s.setPc a).byteAt addr = s.byteAt addr := rfl

/-! ### setIndex -/

@[simp] theorem State.setIndex_v (a : Nat) : (s.setIndex a).v = s.v := rfl
@[simp] theorem State.setIndex_pcBits (a : Nat) : (s.setIndex a).pcBits = s.pcBits := rfl
@[simp] theorem State.setIndex_indexBits (a : Nat) : (s.setIndex a).indexBits = a % 2 ^ s.cfg.iW := rfl
@[simp] theorem State.setIndex_sp (a : Nat) : (s.setIndex a).sp = s.sp := rfl
@[simp] theorem State.setIndex_stack (a : Nat) : (s.setIndex a).stack = s.stack := rfl
@[simp] theorem State.setIndex_dt (a : Nat) : (s.setIndex a).dt = s.dt := rfl
@[simp] theorem State.setIndex_st (a : Nat) : (s.setIndex a).st = s.st := rfl
@[simp] theorem State.setIndex_mem (a : Nat) : (s.setIndex a).mem = s.mem := rfl
@[simp] theorem State.setIndex_fb (a : Nat) : (s.setIndex a).fb = s.fb := rfl
@[simp] theorem State.setIndex_dirty (a : Nat) : (s.setIndex a).dirty = s.dirty := rfl
@[simp] theorem State.setIndex_down (a : Nat) : (s.setIndex a).down = s.down := rfl
@[simp] theorem State.setIndex_pressedEdge (a : Nat) : (s.setIndex a).pressedEdge = s.pressedEdge := rfl
@[simp] theorem State.setIndex_releasedEdge (a : Nat) : (s.setIndex a).releasedEdge = s.releasedEdge := rfl
@[simp] theorem State.setIndex_kCpu (a : Nat) : (s.setIndex a).kCpu = s.kCpu := rfl
@[simp] theorem State.setIndex_kTimer (a : Nat) : (s.setIndex a).kTimer = s.kTimer := rfl
@[simp] theorem State.setIndex_kFrame (a : Nat) : (s.setIndex a).kFrame = s.kFrame := rfl
@[simp] theorem State.setIndex_t0 (a : Nat) : (s.setIndex a).t0 = s.t0 := rfl
@[simp] theorem State.setIndex_lastNow (a : Nat) : (s.setIndex a).lastNow = s.lastNow := rfl
@[simp] theorem State.setIndex_fault (a : Nat) : (s.setIndex a).fault = s.fault := rfl
@[simp] theorem State.setIndex_cfg (a : Nat) : (s.setIndex a).cfg = s.cfg := rfl
@[simp] theorem State.setIndex_hostInputs (a : Nat) : (s.setIndex a).hostInputs = s.hostInputs := rfl
@[simp] theorem State.setIndex_draws (a : Nat) : (s.setIndex a).draws = s.draws := rfl
@[simp] theorem State.setIndex_hostBytes (a : Nat) : (s.setIndex a).hostBytes = s.hostBytes := rfl
@[simp] theorem State.setIndex_repaint (a : Nat) : (s.setIndex a).repaint = s.repaint := rfl
@[simp] theorem State.setIndex_pc (a : Nat) : (s.setIndex a).pc = s.pc := rfl
@[simp] theorem State.setIndex_ia (a : Nat) : (s.setIndex a).ia = s.ia := rfl
@[simp] theorem State.setIndex_reg (a : Nat) (r : Nat) : (s.setIndex a).reg r = s.reg r := rfl
@[simp] theorem State.setIndex_regByte (a : Nat) (r : Nat) : (s.setIndex a).regByte r = s.regByte r := rfl
@[simp] theorem State.setIndex_stackAt (a : Nat) (entry : Nat) : (s.setIndex a).stackAt entry = s.stackAt entry := rfl
@[simp] theorem State.setIndex_pixel (a : Nat) (px py : Nat) : (s.setIndex a).pixel px py = s.pixel px py := rfl
@[simp] theorem State.setIndex_byteAt (a : Nat) (addr : Nat) : (s.setIndex a).byteAt addr = s.byteAt addr := rfl

/-! ### setSp -/

@[simp] theorem State.setSp_v (n : Nat) : (s.setSp n).v = s.v := rfl
@[simp] theorem State.setSp_pcBits (n : Nat) : (s.setSp n).pcBits = s.pcBits := rfl
@[simp] theorem State.setSp_indexBits (n : Nat) : (s.setSp n).indexBits = s.indexBits := rfl
@[simp] theorem State.setSp_sp (n : Nat) : (s.setSp n).sp = n := rfl
@[simp] theorem State.setSp_stack (n : Nat) : (s.setSp n).stack = s.stack := rfl
@[simp] theorem State.setSp_dt (n : Nat) : (s.setSp n).dt = s.dt := rfl
@[simp] theorem State.setSp_st (n : Nat) : (s.setSp n).st = s.st := rfl
@[simp] theorem State.setSp_mem (n : Nat) : (s.setSp n).mem = s.mem := rfl
@[simp] theorem State.setSp_fb (n : Nat) : (s.setSp n).fb = s.fb := rfl
@[simp] theorem State.setSp_dirty (n : Nat) : (s.setSp n).dirty = s.dirty := rfl
@[simp] theorem State.setSp_down (n : Nat) : (s.setSp n).down = s.down := rfl
@[simp] theorem State.setSp_pressedEdge (n : Nat) : (s.setSp n).pressedEdge = s.pressedEdge := rfl
@[simp] theorem State.setSp_releasedEdge (n : Nat) : (s.setSp n).releasedEdge = s.releasedEdge := rfl
@[simp] theorem State.setSp_kCpu (n : Nat) : (s.setSp n).kCpu = s.kCpu := rfl
@[simp] theorem State.setSp_kTimer (n : Nat) : (s.setSp n).kTimer = s.kTimer := rfl
@[simp] theorem State.setSp_kFrame (n : Nat) : (s.setSp n).kFrame = s.kFrame := rfl
@[simp] theorem State.setSp_t0 (n : Nat) : (s.setSp n).t0 = s.t0 := rfl
@[simp] theorem State.setSp_lastNow (n : Nat) : (s.setSp n).lastNow = s.lastNow := rfl
@[simp] theorem State.setSp_fault (n : Nat) : (s.setSp n).fault = s.fault := rfl
@[simp] theorem State.setSp_cfg (n : Nat) : (s.setSp n).cfg = s.cfg := rfl
@[simp] theorem State.setSp_hostInputs (n : Nat) : (s.setSp n).hostInputs = s.hostInputs := rfl
@[simp] theorem State.setSp_draws (n : Nat) : (s.setSp n).draws = s.draws := rfl
@[simp] theorem State.setSp_hostBytes (n : Nat) : (s.setSp n).hostBytes = s.hostBytes := rfl
@[simp] theorem State.setSp_repaint (n : Nat) : (s.setSp n).repaint = s.repaint := rfl
@[simp] theorem State.setSp_pc (n : Nat) : (s.setSp n).pc = s.pc := rfl
@[simp] theorem State.setSp_index (n : Nat) : (s.setSp n).index = s.index := rfl
@[simp] theorem State.setSp_ia (n : Nat) : (s.setSp n).ia = s.ia := rfl
@[simp] theorem State.setSp_reg (n : Nat) (r : Nat) : (s.setSp n).reg r = s.reg r := rfl
@[simp] theorem State.setSp_regByte (n : Nat) (r : Nat) : (s.setSp n).regByte r = s.regByte r := rfl
@[simp] theorem State.setSp_stackAt (n : Nat) (entry : Nat) : (s.setSp n).stackAt entry = s.stackAt entry := rfl
@[simp] theorem State.setSp_pixel (n : Nat) (px py : Nat) : (s.setSp n).pixel px py = s.pixel px py := rfl
@[simp] theorem State.setSp_byteAt (n : Nat) (addr : Nat) : (s.setSp n).byteAt addr = s.byteAt addr := rfl

/-! ### setStack -/

@[simp] theorem State.setStack_v (j a : Nat) : (s.setStack j a).v = s.v := rfl
@[simp] theorem State.setStack_pcBits (j a : Nat) : (s.setStack j a).pcBits = s.pcBits := rfl
@[simp] theorem State.setStack_indexBits (j a : Nat) : (s.setStack j a).indexBits = s.indexBits := rfl
@[simp] theorem State.setStack_sp (j a : Nat) : (s.setStack j a).sp = s.sp := rfl
@[simp] theorem State.setStack_stack (j a : Nat) : (s.setStack j a).stack = writeAt 0 s.stack j (a % 2 ^ s.cfg.pcW) := rfl
@[simp] theorem State.setStack_dt (j a : Nat) : (s.setStack j a).dt = s.dt := rfl
@[simp] theorem State.setStack_st (j a : Nat) : (s.setStack j a).st = s.st := rfl
@[simp] theorem State.setStack_mem (j a : Nat) : (s.setStack j a).mem = s.mem := rfl
@[simp] theorem State.setStack_fb (j a : Nat) : (s.setStack j a).fb = s.fb := rfl
@[simp] theorem State.setStack_dirty (j a : Nat) : (s.setStack j a).dirty = s.dirty := rfl
@[simp] theorem State.setStack_down (j a : Nat) : (s.setStack j a).down = s.down := rfl
@[simp] theorem State.setStack_pressedEdge (j a : Nat) : (s.setStack j a).pressedEdge = s.pressedEdge := rfl
@[simp] theorem State.setStack_releasedEdge (j a : Nat) : (s.setStack j a).releasedEdge = s.releasedEdge := rfl
@[simp] theorem State.setStack_kCpu (j a : Nat) : (s.setStack j a).kCpu = s.kCpu := rfl
@[simp] theorem State.setStack_kTimer (j a : Nat) : (s.setStack j a).kTimer = s.kTimer := rfl
@[simp] theorem State.setStack_kFrame (j a : Nat) : (s.setStack j a).kFrame = s.kFrame := rfl
@[simp] theorem State.setStack_t0 (j a : Nat) : (s.setStack j a).t0 = s.t0 := rfl
@[simp] theorem State.setStack_lastNow (j a : Nat) : (s.setStack j a).lastNow = s.lastNow := rfl
@[simp] theorem State.setStack_fault (j a : Nat) : (s.setStack j a).fault = s.fault := rfl
@[simp] theorem State.setStack_cfg (j a : Nat) : (s.setStack j a).cfg = s.cfg := rfl
@[simp] theorem State.setStack_hostInputs (j a : Nat) : (s.setStack j a).hostInputs = s.hostInputs := rfl
@[simp] theorem State.setStack_draws (j a : Nat) : (s.setStack j a).draws = s.draws := rfl
@[simp] theorem State.setStack_hostBytes (j a : Nat) : (s.setStack j a).hostBytes = s.hostBytes := rfl
@[simp] theorem State.setStack_repaint (j a : Nat) : (s.setStack j a).repaint = s.repaint := rfl
@[simp] theorem State.setStack_pc (j a : Nat) : (s.setStack j a).pc = s.pc := rfl
@[simp] theorem State.setStack_index (j a : Nat) : (s.setStack j a).index = s.index := rfl
@[simp] theorem State.setStack_ia (j a : Nat) : (s.setStack j a).ia = s.ia := rfl
@[simp] theorem State.setStack_reg (j a : Nat) (r : Nat) : (s.setStack j a).reg r = s.reg r := rfl
@[simp] theorem State.setStack_regByte (j a : Nat) (r : Nat) : (s.setStack j a).regByte r = s.regByte r := rfl
@[simp] theorem State.setStack_pixel (j a : Nat) (px py : Nat) : (s.setStack j a).pixel px py = s.pixel px py := rfl
@[simp] theorem State.setStack_byteAt (j a : Nat) (addr : Nat) : (s.setStack j a).byteAt addr = s.byteAt addr := rfl

/-! ### countDraw -/

@[simp] theorem State.countDraw_v : (s.countDraw).v = s.v := rfl
@[simp] theorem State.countDraw_pcBits : (s.countDraw).pcBits = s.pcBits := rfl
@[simp] theorem State.countDraw_indexBits : (s.countDraw).indexBits = s.indexBits := rfl
@[simp] theorem State.countDraw_sp : (s.countDraw).sp = s.sp := rfl
@[simp] theorem State.countDraw_stack : (s.countDraw).stack = s.stack := rfl
@[simp] theorem State.countDraw_dt : (s.countDraw).dt = s.dt := rfl
@[simp] theorem State.countDraw_st : (s.countDraw).st = s.st := rfl
@[simp] theorem State.countDraw_mem : (s.countDraw).mem = s.mem := rfl
@[simp] theorem State.countDraw_fb : (s.countDraw).fb = s.fb := rfl
@[simp] theorem State.countDraw_dirty : (s.countDraw).dirty = s.dirty := rfl
@[simp] theorem State.countDraw_down : (s.countDraw).down = s.down := rfl
@[simp] theorem State.countDraw_pressedEdge : (s.countDraw).pressedEdge = s.pressedEdge := rfl
@[simp] theorem State.countDraw_releasedEdge : (s.countDraw).releasedEdge = s.releasedEdge := rfl
@[simp] theorem State.countDraw_kCpu : (s.countDraw).kCpu = s.kCpu := rfl
@[simp] theorem State.countDraw_kTimer : (s.countDraw).kTimer = s.kTimer := rfl
@[simp] theorem State.countDraw_kFrame : (s.countDraw).kFrame = s.kFrame := rfl
@[simp] theorem State.countDraw_t0 : (s.countDraw).t0 = s.t0 := rfl
@[simp] theorem State.countDraw_lastNow : (s.countDraw).lastNow = s.lastNow := rfl
@[simp] theorem State.countDraw_fault : (s.countDraw).fault = s.fault := rfl
@[simp] theorem State.countDraw_cfg : (s.countDraw).cfg = s.cfg := rfl
@[simp] theorem State.countDraw_hostInputs : (s.countDraw).hostInputs = s.hostInputs := rfl
@[simp] theorem State.countDraw_draws : (s.countDraw).draws = s.draws + 1 := rfl
@[simp] theorem State.countDraw_hostBytes : (s.countDraw).hostBytes = s.hostBytes.tail := rfl
@[simp] theorem State.countDraw_repaint : (s.countDraw).repaint = s.repaint := rfl
@[simp] theorem State.countDraw_pc : (s.countDraw).pc = s.pc := rfl
@[simp] theorem State.countDraw_index : (s.countDraw).index = s.index := rfl
@[simp] theorem State.countDraw_ia : (s.countDraw).ia = s.ia := rfl
@[simp] theorem State.countDraw_reg (r : Nat) : (s.countDraw).reg r = s.reg r := rfl
@[simp] theorem State.countDraw_regByte (r : Nat) : (s.countDraw).regByte r = s.regByte r := rfl
@[simp] theorem State.countDraw_stackAt (entry : Nat) : (s.countDraw).stackAt entry = s.stackAt entry := rfl
@[simp] theorem State.countDraw_pixel (px py : Nat) : (s.countDraw).pixel px py = s.pixel px py := rfl
@[simp] theorem State.countDraw_byteAt (addr : Nat) : (s.countDraw).byteAt addr = s.byteAt addr := rfl

/-! ### supplied -/

@[simp] theorem State.supplied_v (input : HostInput) (byte : Byte) : (s.supplied input byte).v = s.v := rfl
@[simp] theorem State.supplied_pcBits (input : HostInput) (byte : Byte) : (s.supplied input byte).pcBits = s.pcBits := rfl
@[simp] theorem State.supplied_indexBits (input : HostInput) (byte : Byte) : (s.supplied input byte).indexBits = s.indexBits := rfl
@[simp] theorem State.supplied_sp (input : HostInput) (byte : Byte) : (s.supplied input byte).sp = s.sp := rfl
@[simp] theorem State.supplied_stack (input : HostInput) (byte : Byte) : (s.supplied input byte).stack = s.stack := rfl
@[simp] theorem State.supplied_dt (input : HostInput) (byte : Byte) : (s.supplied input byte).dt = s.dt := rfl
@[simp] theorem State.supplied_st (input : HostInput) (byte : Byte) : (s.supplied input byte).st = s.st := rfl
@[simp] theorem State.supplied_mem (input : HostInput) (byte : Byte) : (s.supplied input byte).mem = s.mem := rfl
@[simp] theorem State.supplied_fb (input : HostInput) (byte : Byte) : (s.supplied input byte).fb = s.fb := rfl
@[simp] theorem State.supplied_dirty (input : HostInput) (byte : Byte) : (s.supplied input byte).dirty = s.dirty := rfl
@[simp] theorem State.supplied_down (input : HostInput) (byte : Byte) : (s.supplied input byte).down = s.down := rfl
@[simp] theorem State.supplied_pressedEdge (input : HostInput) (byte : Byte) : (s.supplied input byte).pressedEdge = s.pressedEdge := rfl
@[simp] theorem State.supplied_releasedEdge (input : HostInput) (byte : Byte) : (s.supplied input byte).releasedEdge = s.releasedEdge := rfl
@[simp] theorem State.supplied_kCpu (input : HostInput) (byte : Byte) : (s.supplied input byte).kCpu = s.kCpu := rfl
@[simp] theorem State.supplied_kTimer (input : HostInput) (byte : Byte) : (s.supplied input byte).kTimer = s.kTimer := rfl
@[simp] theorem State.supplied_kFrame (input : HostInput) (byte : Byte) : (s.supplied input byte).kFrame = s.kFrame := rfl
@[simp] theorem State.supplied_t0 (input : HostInput) (byte : Byte) : (s.supplied input byte).t0 = s.t0 := rfl
@[simp] theorem State.supplied_lastNow (input : HostInput) (byte : Byte) : (s.supplied input byte).lastNow = s.lastNow := rfl
@[simp] theorem State.supplied_fault (input : HostInput) (byte : Byte) : (s.supplied input byte).fault = s.fault := rfl
@[simp] theorem State.supplied_cfg (input : HostInput) (byte : Byte) : (s.supplied input byte).cfg = s.cfg := rfl
@[simp] theorem State.supplied_hostInputs (input : HostInput) (byte : Byte) : (s.supplied input byte).hostInputs = [input] := rfl
@[simp] theorem State.supplied_draws (input : HostInput) (byte : Byte) : (s.supplied input byte).draws = s.draws := rfl
@[simp] theorem State.supplied_hostBytes (input : HostInput) (byte : Byte) : (s.supplied input byte).hostBytes = [byte] := rfl
@[simp] theorem State.supplied_repaint (input : HostInput) (byte : Byte) : (s.supplied input byte).repaint = s.repaint := rfl
@[simp] theorem State.supplied_pc (input : HostInput) (byte : Byte) : (s.supplied input byte).pc = s.pc := rfl
@[simp] theorem State.supplied_index (input : HostInput) (byte : Byte) : (s.supplied input byte).index = s.index := rfl
@[simp] theorem State.supplied_ia (input : HostInput) (byte : Byte) : (s.supplied input byte).ia = s.ia := rfl
@[simp] theorem State.supplied_reg (input : HostInput) (byte : Byte) (r : Nat) : (s.supplied input byte).reg r = s.reg r := rfl
@[simp] theorem State.supplied_regByte (input : HostInput) (byte : Byte) (r : Nat) : (s.supplied input byte).regByte r = s.regByte r := rfl
@[simp] theorem State.supplied_stackAt (input : HostInput) (byte : Byte) (entry : Nat) : (s.supplied input byte).stackAt entry = s.stackAt entry := rfl
@[simp] theorem State.supplied_pixel (input : HostInput) (byte : Byte) (px py : Nat) : (s.supplied input byte).pixel px py = s.pixel px py := rfl
@[simp] theorem State.supplied_byteAt (input : HostInput) (byte : Byte) (addr : Nat) : (s.supplied input byte).byteAt addr = s.byteAt addr := rfl

/-! ### setDt -/

@[simp] theorem State.setDt_v (b : Byte) : (s.setDt b).v = s.v := rfl
@[simp] theorem State.setDt_pcBits (b : Byte) : (s.setDt b).pcBits = s.pcBits := rfl
@[simp] theorem State.setDt_indexBits (b : Byte) : (s.setDt b).indexBits = s.indexBits := rfl
@[simp] theorem State.setDt_sp (b : Byte) : (s.setDt b).sp = s.sp := rfl
@[simp] theorem State.setDt_stack (b : Byte) : (s.setDt b).stack = s.stack := rfl
@[simp] theorem State.setDt_dt (b : Byte) : (s.setDt b).dt = b := rfl
@[simp] theorem State.setDt_st (b : Byte) : (s.setDt b).st = s.st := rfl
@[simp] theorem State.setDt_mem (b : Byte) : (s.setDt b).mem = s.mem := rfl
@[simp] theorem State.setDt_fb (b : Byte) : (s.setDt b).fb = s.fb := rfl
@[simp] theorem State.setDt_dirty (b : Byte) : (s.setDt b).dirty = s.dirty := rfl
@[simp] theorem State.setDt_down (b : Byte) : (s.setDt b).down = s.down := rfl
@[simp] theorem State.setDt_pressedEdge (b : Byte) : (s.setDt b).pressedEdge = s.pressedEdge := rfl
@[simp] theorem State.setDt_releasedEdge (b : Byte) : (s.setDt b).releasedEdge = s.releasedEdge := rfl
@[simp] theorem State.setDt_kCpu (b : Byte) : (s.setDt b).kCpu = s.kCpu := rfl
@[simp] theorem State.setDt_kTimer (b : Byte) : (s.setDt b).kTimer = s.kTimer := rfl
@[simp] theorem State.setDt_kFrame (b : Byte) : (s.setDt b).kFrame = s.kFrame := rfl
@[simp] theorem State.setDt_t0 (b : Byte) : (s.setDt b).t0 = s.t0 := rfl
@[simp] theorem State.setDt_lastNow (b : Byte) : (s.setDt b).lastNow = s.lastNow := rfl
@[simp] theorem State.setDt_fault (b : Byte) : (s.setDt b).fault = s.fault := rfl
@[simp] theorem State.setDt_cfg (b : Byte) : (s.setDt b).cfg = s.cfg := rfl
@[simp] theorem State.setDt_hostInputs (b : Byte) : (s.setDt b).hostInputs = s.hostInputs := rfl
@[simp] theorem State.setDt_draws (b : Byte) : (s.setDt b).draws = s.draws := rfl
@[simp] theorem State.setDt_hostBytes (b : Byte) : (s.setDt b).hostBytes = s.hostBytes := rfl
@[simp] theorem State.setDt_repaint (b : Byte) : (s.setDt b).repaint = s.repaint := rfl
@[simp] theorem State.setDt_pc (b : Byte) : (s.setDt b).pc = s.pc := rfl
@[simp] theorem State.setDt_index (b : Byte) : (s.setDt b).index = s.index := rfl
@[simp] theorem State.setDt_ia (b : Byte) : (s.setDt b).ia = s.ia := rfl
@[simp] theorem State.setDt_reg (b : Byte) (r : Nat) : (s.setDt b).reg r = s.reg r := rfl
@[simp] theorem State.setDt_regByte (b : Byte) (r : Nat) : (s.setDt b).regByte r = s.regByte r := rfl
@[simp] theorem State.setDt_stackAt (b : Byte) (entry : Nat) : (s.setDt b).stackAt entry = s.stackAt entry := rfl
@[simp] theorem State.setDt_pixel (b : Byte) (px py : Nat) : (s.setDt b).pixel px py = s.pixel px py := rfl
@[simp] theorem State.setDt_byteAt (b : Byte) (addr : Nat) : (s.setDt b).byteAt addr = s.byteAt addr := rfl

/-! ### setSt -/

@[simp] theorem State.setSt_v (b : Byte) : (s.setSt b).v = s.v := rfl
@[simp] theorem State.setSt_pcBits (b : Byte) : (s.setSt b).pcBits = s.pcBits := rfl
@[simp] theorem State.setSt_indexBits (b : Byte) : (s.setSt b).indexBits = s.indexBits := rfl
@[simp] theorem State.setSt_sp (b : Byte) : (s.setSt b).sp = s.sp := rfl
@[simp] theorem State.setSt_stack (b : Byte) : (s.setSt b).stack = s.stack := rfl
@[simp] theorem State.setSt_dt (b : Byte) : (s.setSt b).dt = s.dt := rfl
@[simp] theorem State.setSt_st (b : Byte) : (s.setSt b).st = b := rfl
@[simp] theorem State.setSt_mem (b : Byte) : (s.setSt b).mem = s.mem := rfl
@[simp] theorem State.setSt_fb (b : Byte) : (s.setSt b).fb = s.fb := rfl
@[simp] theorem State.setSt_dirty (b : Byte) : (s.setSt b).dirty = s.dirty := rfl
@[simp] theorem State.setSt_down (b : Byte) : (s.setSt b).down = s.down := rfl
@[simp] theorem State.setSt_pressedEdge (b : Byte) : (s.setSt b).pressedEdge = s.pressedEdge := rfl
@[simp] theorem State.setSt_releasedEdge (b : Byte) : (s.setSt b).releasedEdge = s.releasedEdge := rfl
@[simp] theorem State.setSt_kCpu (b : Byte) : (s.setSt b).kCpu = s.kCpu := rfl
@[simp] theorem State.setSt_kTimer (b : Byte) : (s.setSt b).kTimer = s.kTimer := rfl
@[simp] theorem State.setSt_kFrame (b : Byte) : (s.setSt b).kFrame = s.kFrame := rfl
@[simp] theorem State.setSt_t0 (b : Byte) : (s.setSt b).t0 = s.t0 := rfl
@[simp] theorem State.setSt_lastNow (b : Byte) : (s.setSt b).lastNow = s.lastNow := rfl
@[simp] theorem State.setSt_fault (b : Byte) : (s.setSt b).fault = s.fault := rfl
@[simp] theorem State.setSt_cfg (b : Byte) : (s.setSt b).cfg = s.cfg := rfl
@[simp] theorem State.setSt_hostInputs (b : Byte) : (s.setSt b).hostInputs = s.hostInputs := rfl
@[simp] theorem State.setSt_draws (b : Byte) : (s.setSt b).draws = s.draws := rfl
@[simp] theorem State.setSt_hostBytes (b : Byte) : (s.setSt b).hostBytes = s.hostBytes := rfl
@[simp] theorem State.setSt_repaint (b : Byte) : (s.setSt b).repaint = s.repaint := rfl
@[simp] theorem State.setSt_pc (b : Byte) : (s.setSt b).pc = s.pc := rfl
@[simp] theorem State.setSt_index (b : Byte) : (s.setSt b).index = s.index := rfl
@[simp] theorem State.setSt_ia (b : Byte) : (s.setSt b).ia = s.ia := rfl
@[simp] theorem State.setSt_reg (b : Byte) (r : Nat) : (s.setSt b).reg r = s.reg r := rfl
@[simp] theorem State.setSt_regByte (b : Byte) (r : Nat) : (s.setSt b).regByte r = s.regByte r := rfl
@[simp] theorem State.setSt_stackAt (b : Byte) (entry : Nat) : (s.setSt b).stackAt entry = s.stackAt entry := rfl
@[simp] theorem State.setSt_pixel (b : Byte) (px py : Nat) : (s.setSt b).pixel px py = s.pixel px py := rfl
@[simp] theorem State.setSt_byteAt (b : Byte) (addr : Nat) : (s.setSt b).byteAt addr = s.byteAt addr := rfl

/-! ### setByte -/

@[simp] theorem State.setByte_v (a : Nat) (b : Byte) : (s.setByte a b).v = s.v := rfl
@[simp] theorem State.setByte_pcBits (a : Nat) (b : Byte) : (s.setByte a b).pcBits = s.pcBits := rfl
@[simp] theorem State.setByte_indexBits (a : Nat) (b : Byte) : (s.setByte a b).indexBits = s.indexBits := rfl
@[simp] theorem State.setByte_sp (a : Nat) (b : Byte) : (s.setByte a b).sp = s.sp := rfl
@[simp] theorem State.setByte_stack (a : Nat) (b : Byte) : (s.setByte a b).stack = s.stack := rfl
@[simp] theorem State.setByte_dt (a : Nat) (b : Byte) : (s.setByte a b).dt = s.dt := rfl
@[simp] theorem State.setByte_st (a : Nat) (b : Byte) : (s.setByte a b).st = s.st := rfl
@[simp] theorem State.setByte_mem (a : Nat) (b : Byte) : (s.setByte a b).mem = s.mem.write a b := rfl
@[simp] theorem State.setByte_fb (a : Nat) (b : Byte) : (s.setByte a b).fb = s.fb := rfl
@[simp] theorem State.setByte_dirty (a : Nat) (b : Byte) : (s.setByte a b).dirty = s.dirty := rfl
@[simp] theorem State.setByte_down (a : Nat) (b : Byte) : (s.setByte a b).down = s.down := rfl
@[simp] theorem State.setByte_pressedEdge (a : Nat) (b : Byte) : (s.setByte a b).pressedEdge = s.pressedEdge := rfl
@[simp] theorem State.setByte_releasedEdge (a : Nat) (b : Byte) : (s.setByte a b).releasedEdge = s.releasedEdge := rfl
@[simp] theorem State.setByte_kCpu (a : Nat) (b : Byte) : (s.setByte a b).kCpu = s.kCpu := rfl
@[simp] theorem State.setByte_kTimer (a : Nat) (b : Byte) : (s.setByte a b).kTimer = s.kTimer := rfl
@[simp] theorem State.setByte_kFrame (a : Nat) (b : Byte) : (s.setByte a b).kFrame = s.kFrame := rfl
@[simp] theorem State.setByte_t0 (a : Nat) (b : Byte) : (s.setByte a b).t0 = s.t0 := rfl
@[simp] theorem State.setByte_lastNow (a : Nat) (b : Byte) : (s.setByte a b).lastNow = s.lastNow := rfl
@[simp] theorem State.setByte_fault (a : Nat) (b : Byte) : (s.setByte a b).fault = s.fault := rfl
@[simp] theorem State.setByte_cfg (a : Nat) (b : Byte) : (s.setByte a b).cfg = s.cfg := rfl
@[simp] theorem State.setByte_hostInputs (a : Nat) (b : Byte) : (s.setByte a b).hostInputs = s.hostInputs := rfl
@[simp] theorem State.setByte_draws (a : Nat) (b : Byte) : (s.setByte a b).draws = s.draws := rfl
@[simp] theorem State.setByte_hostBytes (a : Nat) (b : Byte) : (s.setByte a b).hostBytes = s.hostBytes := rfl
@[simp] theorem State.setByte_repaint (a : Nat) (b : Byte) : (s.setByte a b).repaint = s.repaint := rfl
@[simp] theorem State.setByte_pc (a : Nat) (b : Byte) : (s.setByte a b).pc = s.pc := rfl
@[simp] theorem State.setByte_index (a : Nat) (b : Byte) : (s.setByte a b).index = s.index := rfl
@[simp] theorem State.setByte_ia (a : Nat) (b : Byte) : (s.setByte a b).ia = s.ia := rfl
@[simp] theorem State.setByte_reg (a : Nat) (b : Byte) (r : Nat) : (s.setByte a b).reg r = s.reg r := rfl
@[simp] theorem State.setByte_regByte (a : Nat) (b : Byte) (r : Nat) : (s.setByte a b).regByte r = s.regByte r := rfl
@[simp] theorem State.setByte_stackAt (a : Nat) (b : Byte) (entry : Nat) : (s.setByte a b).stackAt entry = s.stackAt entry := rfl
@[simp] theorem State.setByte_pixel (a : Nat) (b : Byte) (px py : Nat) : (s.setByte a b).pixel px py = s.pixel px py := rfl

/-! ### togglePixel -/

@[simp] theorem State.togglePixel_v (x y : Nat) : (s.togglePixel x y).v = s.v := rfl
@[simp] theorem State.togglePixel_pcBits (x y : Nat) : (s.togglePixel x y).pcBits = s.pcBits := rfl
@[simp] theorem State.togglePixel_indexBits (x y : Nat) : (s.togglePixel x y).indexBits = s.indexBits := rfl
@[simp] theorem State.togglePixel_sp (x y : Nat) : (s.togglePixel x y).sp = s.sp := rfl
@[simp] theorem State.togglePixel_stack (x y : Nat) : (s.togglePixel x y).stack = s.stack := rfl
@[simp] theorem State.togglePixel_dt (x y : Nat) : (s.togglePixel x y).dt = s.dt := rfl
@[simp] theorem State.togglePixel_st (x y : Nat) : (s.togglePixel x y).st = s.st := rfl
@[simp] theorem State.togglePixel_mem (x y : Nat) : (s.togglePixel x y).mem = s.mem := rfl
@[simp] theorem State.togglePixel_fb (x y : Nat) : (s.togglePixel x y).fb = writeAt [] s.fb y (writeAt false (s.fb.getD y []) x (!s.pixel x y)) := rfl
@[simp] theorem State.togglePixel_dirty (x y : Nat) : (s.togglePixel x y).dirty = true := rfl
@[simp] theorem State.togglePixel_down (x y : Nat) : (s.togglePixel x y).down = s.down := rfl
@[simp] theorem State.togglePixel_pressedEdge (x y : Nat) : (s.togglePixel x y).pressedEdge = s.pressedEdge := rfl
@[simp] theorem State.togglePixel_releasedEdge (x y : Nat) : (s.togglePixel x y).releasedEdge = s.releasedEdge := rfl
@[simp] theorem State.togglePixel_kCpu (x y : Nat) : (s.togglePixel x y).kCpu = s.kCpu := rfl
@[simp] theorem State.togglePixel_kTimer (x y : Nat) : (s.togglePixel x y).kTimer = s.kTimer := rfl
@[simp] theorem State.togglePixel_kFrame (x y : Nat) : (s.togglePixel x y).kFrame = s.kFrame := rfl
@[simp] theorem State.togglePixel_t0 (x y : Nat) : (s.togglePixel x y).t0 = s.t0 := rfl
@[simp] theorem State.togglePixel_lastNow (x y : Nat) : (s.togglePixel x y).lastNow = s.lastNow := rfl
@[simp] theorem State.togglePixel_fault (x y : Nat) : (s.togglePixel x y).fault = s.fault := rfl
@[simp] theorem State.togglePixel_cfg (x y : Nat) : (s.togglePixel x y).cfg = s.cfg := rfl
@[simp] theorem State.togglePixel_hostInputs (x y : Nat) : (s.togglePixel x y).hostInputs = s.hostInputs := rfl
@[simp] theorem State.togglePixel_draws (x y : Nat) : (s.togglePixel x y).draws = s.draws := rfl
@[simp] theorem State.togglePixel_hostBytes (x y : Nat) : (s.togglePixel x y).hostBytes = s.hostBytes := rfl
@[simp] theorem State.togglePixel_repaint (x y : Nat) : (s.togglePixel x y).repaint = s.repaint := rfl
@[simp] theorem State.togglePixel_pc (x y : Nat) : (s.togglePixel x y).pc = s.pc := rfl
@[simp] theorem State.togglePixel_index (x y : Nat) : (s.togglePixel x y).index = s.index := rfl
@[simp] theorem State.togglePixel_ia (x y : Nat) : (s.togglePixel x y).ia = s.ia := rfl
@[simp] theorem State.togglePixel_reg (x y : Nat) (r : Nat) : (s.togglePixel x y).reg r = s.reg r := rfl
@[simp] theorem State.togglePixel_regByte (x y : Nat) (r : Nat) : (s.togglePixel x y).regByte r = s.regByte r := rfl
@[simp] theorem State.togglePixel_stackAt (x y : Nat) (entry : Nat) : (s.togglePixel x y).stackAt entry = s.stackAt entry := rfl
@[simp] theorem State.togglePixel_byteAt (x y : Nat) (addr : Nat) : (s.togglePixel x y).byteAt addr = s.byteAt addr := rfl

/-! ### clearFrame -/

@[simp] theorem State.clearFrame_v : (s.clearFrame).v = s.v := rfl
@[simp] theorem State.clearFrame_pcBits : (s.clearFrame).pcBits = s.pcBits := rfl
@[simp] theorem State.clearFrame_indexBits : (s.clearFrame).indexBits = s.indexBits := rfl
@[simp] theorem State.clearFrame_sp : (s.clearFrame).sp = s.sp := rfl
@[simp] theorem State.clearFrame_stack : (s.clearFrame).stack = s.stack := rfl
@[simp] theorem State.clearFrame_dt : (s.clearFrame).dt = s.dt := rfl
@[simp] theorem State.clearFrame_st : (s.clearFrame).st = s.st := rfl
@[simp] theorem State.clearFrame_mem : (s.clearFrame).mem = s.mem := rfl
@[simp] theorem State.clearFrame_fb : (s.clearFrame).fb = List.replicate s.cfg.fbHeight (List.replicate s.cfg.fbWidth false) := rfl
@[simp] theorem State.clearFrame_dirty : (s.clearFrame).dirty = true := rfl
@[simp] theorem State.clearFrame_down : (s.clearFrame).down = s.down := rfl
@[simp] theorem State.clearFrame_pressedEdge : (s.clearFrame).pressedEdge = s.pressedEdge := rfl
@[simp] theorem State.clearFrame_releasedEdge : (s.clearFrame).releasedEdge = s.releasedEdge := rfl
@[simp] theorem State.clearFrame_kCpu : (s.clearFrame).kCpu = s.kCpu := rfl
@[simp] theorem State.clearFrame_kTimer : (s.clearFrame).kTimer = s.kTimer := rfl
@[simp] theorem State.clearFrame_kFrame : (s.clearFrame).kFrame = s.kFrame := rfl
@[simp] theorem State.clearFrame_t0 : (s.clearFrame).t0 = s.t0 := rfl
@[simp] theorem State.clearFrame_lastNow : (s.clearFrame).lastNow = s.lastNow := rfl
@[simp] theorem State.clearFrame_fault : (s.clearFrame).fault = s.fault := rfl
@[simp] theorem State.clearFrame_cfg : (s.clearFrame).cfg = s.cfg := rfl
@[simp] theorem State.clearFrame_hostInputs : (s.clearFrame).hostInputs = s.hostInputs := rfl
@[simp] theorem State.clearFrame_draws : (s.clearFrame).draws = s.draws := rfl
@[simp] theorem State.clearFrame_hostBytes : (s.clearFrame).hostBytes = s.hostBytes := rfl
@[simp] theorem State.clearFrame_repaint : (s.clearFrame).repaint = s.repaint := rfl
@[simp] theorem State.clearFrame_pc : (s.clearFrame).pc = s.pc := rfl
@[simp] theorem State.clearFrame_index : (s.clearFrame).index = s.index := rfl
@[simp] theorem State.clearFrame_ia : (s.clearFrame).ia = s.ia := rfl
@[simp] theorem State.clearFrame_reg (r : Nat) : (s.clearFrame).reg r = s.reg r := rfl
@[simp] theorem State.clearFrame_regByte (r : Nat) : (s.clearFrame).regByte r = s.regByte r := rfl
@[simp] theorem State.clearFrame_stackAt (entry : Nat) : (s.clearFrame).stackAt entry = s.stackAt entry := rfl
@[simp] theorem State.clearFrame_byteAt (addr : Nat) : (s.clearFrame).byteAt addr = s.byteAt addr := rfl

/-! ### decayTimers -/

@[simp] theorem State.decayTimers_v : (s.decayTimers).v = s.v := rfl
@[simp] theorem State.decayTimers_pcBits : (s.decayTimers).pcBits = s.pcBits := rfl
@[simp] theorem State.decayTimers_indexBits : (s.decayTimers).indexBits = s.indexBits := rfl
@[simp] theorem State.decayTimers_sp : (s.decayTimers).sp = s.sp := rfl
@[simp] theorem State.decayTimers_stack : (s.decayTimers).stack = s.stack := rfl
@[simp] theorem State.decayTimers_dt : (s.decayTimers).dt = decayed s.dt := rfl
@[simp] theorem State.decayTimers_st : (s.decayTimers).st = decayed s.st := rfl
@[simp] theorem State.decayTimers_mem : (s.decayTimers).mem = s.mem := rfl
@[simp] theorem State.decayTimers_fb : (s.decayTimers).fb = s.fb := rfl
@[simp] theorem State.decayTimers_dirty : (s.decayTimers).dirty = s.dirty := rfl
@[simp] theorem State.decayTimers_down : (s.decayTimers).down = s.down := rfl
@[simp] theorem State.decayTimers_pressedEdge : (s.decayTimers).pressedEdge = s.pressedEdge := rfl
@[simp] theorem State.decayTimers_releasedEdge : (s.decayTimers).releasedEdge = s.releasedEdge := rfl
@[simp] theorem State.decayTimers_kCpu : (s.decayTimers).kCpu = s.kCpu := rfl
@[simp] theorem State.decayTimers_kTimer : (s.decayTimers).kTimer = s.kTimer := rfl
@[simp] theorem State.decayTimers_kFrame : (s.decayTimers).kFrame = s.kFrame := rfl
@[simp] theorem State.decayTimers_t0 : (s.decayTimers).t0 = s.t0 := rfl
@[simp] theorem State.decayTimers_lastNow : (s.decayTimers).lastNow = s.lastNow := rfl
@[simp] theorem State.decayTimers_fault : (s.decayTimers).fault = s.fault := rfl
@[simp] theorem State.decayTimers_cfg : (s.decayTimers).cfg = s.cfg := rfl
@[simp] theorem State.decayTimers_hostInputs : (s.decayTimers).hostInputs = s.hostInputs := rfl
@[simp] theorem State.decayTimers_draws : (s.decayTimers).draws = s.draws := rfl
@[simp] theorem State.decayTimers_hostBytes : (s.decayTimers).hostBytes = s.hostBytes := rfl
@[simp] theorem State.decayTimers_repaint : (s.decayTimers).repaint = s.repaint := rfl
@[simp] theorem State.decayTimers_pc : (s.decayTimers).pc = s.pc := rfl
@[simp] theorem State.decayTimers_index : (s.decayTimers).index = s.index := rfl
@[simp] theorem State.decayTimers_ia : (s.decayTimers).ia = s.ia := rfl
@[simp] theorem State.decayTimers_reg (r : Nat) : (s.decayTimers).reg r = s.reg r := rfl
@[simp] theorem State.decayTimers_regByte (r : Nat) : (s.decayTimers).regByte r = s.regByte r := rfl
@[simp] theorem State.decayTimers_stackAt (entry : Nat) : (s.decayTimers).stackAt entry = s.stackAt entry := rfl
@[simp] theorem State.decayTimers_pixel (px py : Nat) : (s.decayTimers).pixel px py = s.pixel px py := rfl
@[simp] theorem State.decayTimers_byteAt (addr : Nat) : (s.decayTimers).byteAt addr = s.byteAt addr := rfl

/-! ### resetEdges -/

@[simp] theorem State.resetEdges_v : (s.resetEdges).v = s.v := rfl
@[simp] theorem State.resetEdges_pcBits : (s.resetEdges).pcBits = s.pcBits := rfl
@[simp] theorem State.resetEdges_indexBits : (s.resetEdges).indexBits = s.indexBits := rfl
@[simp] theorem State.resetEdges_sp : (s.resetEdges).sp = s.sp := rfl
@[simp] theorem State.resetEdges_stack : (s.resetEdges).stack = s.stack := rfl
@[simp] theorem State.resetEdges_dt : (s.resetEdges).dt = s.dt := rfl
@[simp] theorem State.resetEdges_st : (s.resetEdges).st = s.st := rfl
@[simp] theorem State.resetEdges_mem : (s.resetEdges).mem = s.mem := rfl
@[simp] theorem State.resetEdges_fb : (s.resetEdges).fb = s.fb := rfl
@[simp] theorem State.resetEdges_dirty : (s.resetEdges).dirty = s.dirty := rfl
@[simp] theorem State.resetEdges_down : (s.resetEdges).down = s.down := rfl
@[simp] theorem State.resetEdges_pressedEdge : (s.resetEdges).pressedEdge = List.replicate s.cfg.nKeys false := rfl
@[simp] theorem State.resetEdges_releasedEdge : (s.resetEdges).releasedEdge = List.replicate s.cfg.nKeys false := rfl
@[simp] theorem State.resetEdges_kCpu : (s.resetEdges).kCpu = s.kCpu := rfl
@[simp] theorem State.resetEdges_kTimer : (s.resetEdges).kTimer = s.kTimer := rfl
@[simp] theorem State.resetEdges_kFrame : (s.resetEdges).kFrame = s.kFrame := rfl
@[simp] theorem State.resetEdges_t0 : (s.resetEdges).t0 = s.t0 := rfl
@[simp] theorem State.resetEdges_lastNow : (s.resetEdges).lastNow = s.lastNow := rfl
@[simp] theorem State.resetEdges_fault : (s.resetEdges).fault = s.fault := rfl
@[simp] theorem State.resetEdges_cfg : (s.resetEdges).cfg = s.cfg := rfl
@[simp] theorem State.resetEdges_hostInputs : (s.resetEdges).hostInputs = s.hostInputs := rfl
@[simp] theorem State.resetEdges_draws : (s.resetEdges).draws = s.draws := rfl
@[simp] theorem State.resetEdges_hostBytes : (s.resetEdges).hostBytes = s.hostBytes := rfl
@[simp] theorem State.resetEdges_repaint : (s.resetEdges).repaint = s.repaint := rfl
@[simp] theorem State.resetEdges_pc : (s.resetEdges).pc = s.pc := rfl
@[simp] theorem State.resetEdges_index : (s.resetEdges).index = s.index := rfl
@[simp] theorem State.resetEdges_ia : (s.resetEdges).ia = s.ia := rfl
@[simp] theorem State.resetEdges_reg (r : Nat) : (s.resetEdges).reg r = s.reg r := rfl
@[simp] theorem State.resetEdges_regByte (r : Nat) : (s.resetEdges).regByte r = s.regByte r := rfl
@[simp] theorem State.resetEdges_stackAt (entry : Nat) : (s.resetEdges).stackAt entry = s.stackAt entry := rfl
@[simp] theorem State.resetEdges_pixel (px py : Nat) : (s.resetEdges).pixel px py = s.pixel px py := rfl
@[simp] theorem State.resetEdges_byteAt (addr : Nat) : (s.resetEdges).byteAt addr = s.byteAt addr := rfl

/-! ### setInputs -/

@[simp] theorem State.setInputs_v (inputs : List HostInput) : (s.setInputs inputs).v = s.v := rfl
@[simp] theorem State.setInputs_pcBits (inputs : List HostInput) : (s.setInputs inputs).pcBits = s.pcBits := rfl
@[simp] theorem State.setInputs_indexBits (inputs : List HostInput) : (s.setInputs inputs).indexBits = s.indexBits := rfl
@[simp] theorem State.setInputs_sp (inputs : List HostInput) : (s.setInputs inputs).sp = s.sp := rfl
@[simp] theorem State.setInputs_stack (inputs : List HostInput) : (s.setInputs inputs).stack = s.stack := rfl
@[simp] theorem State.setInputs_dt (inputs : List HostInput) : (s.setInputs inputs).dt = s.dt := rfl
@[simp] theorem State.setInputs_st (inputs : List HostInput) : (s.setInputs inputs).st = s.st := rfl
@[simp] theorem State.setInputs_mem (inputs : List HostInput) : (s.setInputs inputs).mem = s.mem := rfl
@[simp] theorem State.setInputs_fb (inputs : List HostInput) : (s.setInputs inputs).fb = s.fb := rfl
@[simp] theorem State.setInputs_dirty (inputs : List HostInput) : (s.setInputs inputs).dirty = s.dirty := rfl
@[simp] theorem State.setInputs_down (inputs : List HostInput) : (s.setInputs inputs).down = s.down := rfl
@[simp] theorem State.setInputs_pressedEdge (inputs : List HostInput) : (s.setInputs inputs).pressedEdge = s.pressedEdge := rfl
@[simp] theorem State.setInputs_releasedEdge (inputs : List HostInput) : (s.setInputs inputs).releasedEdge = s.releasedEdge := rfl
@[simp] theorem State.setInputs_kCpu (inputs : List HostInput) : (s.setInputs inputs).kCpu = s.kCpu := rfl
@[simp] theorem State.setInputs_kTimer (inputs : List HostInput) : (s.setInputs inputs).kTimer = s.kTimer := rfl
@[simp] theorem State.setInputs_kFrame (inputs : List HostInput) : (s.setInputs inputs).kFrame = s.kFrame := rfl
@[simp] theorem State.setInputs_t0 (inputs : List HostInput) : (s.setInputs inputs).t0 = s.t0 := rfl
@[simp] theorem State.setInputs_lastNow (inputs : List HostInput) : (s.setInputs inputs).lastNow = s.lastNow := rfl
@[simp] theorem State.setInputs_fault (inputs : List HostInput) : (s.setInputs inputs).fault = s.fault := rfl
@[simp] theorem State.setInputs_cfg (inputs : List HostInput) : (s.setInputs inputs).cfg = s.cfg := rfl
@[simp] theorem State.setInputs_hostInputs (inputs : List HostInput) : (s.setInputs inputs).hostInputs = inputs := rfl
@[simp] theorem State.setInputs_draws (inputs : List HostInput) : (s.setInputs inputs).draws = s.draws := rfl
@[simp] theorem State.setInputs_hostBytes (inputs : List HostInput) : (s.setInputs inputs).hostBytes = s.hostBytes := rfl
@[simp] theorem State.setInputs_repaint (inputs : List HostInput) : (s.setInputs inputs).repaint = s.repaint := rfl
@[simp] theorem State.setInputs_pc (inputs : List HostInput) : (s.setInputs inputs).pc = s.pc := rfl
@[simp] theorem State.setInputs_index (inputs : List HostInput) : (s.setInputs inputs).index = s.index := rfl
@[simp] theorem State.setInputs_ia (inputs : List HostInput) : (s.setInputs inputs).ia = s.ia := rfl
@[simp] theorem State.setInputs_reg (inputs : List HostInput) (r : Nat) : (s.setInputs inputs).reg r = s.reg r := rfl
@[simp] theorem State.setInputs_regByte (inputs : List HostInput) (r : Nat) : (s.setInputs inputs).regByte r = s.regByte r := rfl
@[simp] theorem State.setInputs_stackAt (inputs : List HostInput) (entry : Nat) : (s.setInputs inputs).stackAt entry = s.stackAt entry := rfl
@[simp] theorem State.setInputs_pixel (inputs : List HostInput) (px py : Nat) : (s.setInputs inputs).pixel px py = s.pixel px py := rfl
@[simp] theorem State.setInputs_byteAt (inputs : List HostInput) (addr : Nat) : (s.setInputs inputs).byteAt addr = s.byteAt addr := rfl

/-! ### clearRepaint -/

@[simp] theorem State.clearRepaint_v : (s.clearRepaint).v = s.v := rfl
@[simp] theorem State.clearRepaint_pcBits : (s.clearRepaint).pcBits = s.pcBits := rfl
@[simp] theorem State.clearRepaint_indexBits : (s.clearRepaint).indexBits = s.indexBits := rfl
@[simp] theorem State.clearRepaint_sp : (s.clearRepaint).sp = s.sp := rfl
@[simp] theorem State.clearRepaint_stack : (s.clearRepaint).stack = s.stack := rfl
@[simp] theorem State.clearRepaint_dt : (s.clearRepaint).dt = s.dt := rfl
@[simp] theorem State.clearRepaint_st : (s.clearRepaint).st = s.st := rfl
@[simp] theorem State.clearRepaint_mem : (s.clearRepaint).mem = s.mem := rfl
@[simp] theorem State.clearRepaint_fb : (s.clearRepaint).fb = s.fb := rfl
@[simp] theorem State.clearRepaint_dirty : (s.clearRepaint).dirty = s.dirty := rfl
@[simp] theorem State.clearRepaint_down : (s.clearRepaint).down = s.down := rfl
@[simp] theorem State.clearRepaint_pressedEdge : (s.clearRepaint).pressedEdge = s.pressedEdge := rfl
@[simp] theorem State.clearRepaint_releasedEdge : (s.clearRepaint).releasedEdge = s.releasedEdge := rfl
@[simp] theorem State.clearRepaint_kCpu : (s.clearRepaint).kCpu = s.kCpu := rfl
@[simp] theorem State.clearRepaint_kTimer : (s.clearRepaint).kTimer = s.kTimer := rfl
@[simp] theorem State.clearRepaint_kFrame : (s.clearRepaint).kFrame = s.kFrame := rfl
@[simp] theorem State.clearRepaint_t0 : (s.clearRepaint).t0 = s.t0 := rfl
@[simp] theorem State.clearRepaint_lastNow : (s.clearRepaint).lastNow = s.lastNow := rfl
@[simp] theorem State.clearRepaint_fault : (s.clearRepaint).fault = s.fault := rfl
@[simp] theorem State.clearRepaint_cfg : (s.clearRepaint).cfg = s.cfg := rfl
@[simp] theorem State.clearRepaint_hostInputs : (s.clearRepaint).hostInputs = s.hostInputs := rfl
@[simp] theorem State.clearRepaint_draws : (s.clearRepaint).draws = s.draws := rfl
@[simp] theorem State.clearRepaint_hostBytes : (s.clearRepaint).hostBytes = s.hostBytes := rfl
@[simp] theorem State.clearRepaint_repaint : (s.clearRepaint).repaint = none := rfl
@[simp] theorem State.clearRepaint_pc : (s.clearRepaint).pc = s.pc := rfl
@[simp] theorem State.clearRepaint_index : (s.clearRepaint).index = s.index := rfl
@[simp] theorem State.clearRepaint_ia : (s.clearRepaint).ia = s.ia := rfl
@[simp] theorem State.clearRepaint_reg (r : Nat) : (s.clearRepaint).reg r = s.reg r := rfl
@[simp] theorem State.clearRepaint_regByte (r : Nat) : (s.clearRepaint).regByte r = s.regByte r := rfl
@[simp] theorem State.clearRepaint_stackAt (entry : Nat) : (s.clearRepaint).stackAt entry = s.stackAt entry := rfl
@[simp] theorem State.clearRepaint_pixel (px py : Nat) : (s.clearRepaint).pixel px py = s.pixel px py := rfl
@[simp] theorem State.clearRepaint_byteAt (addr : Nat) : (s.clearRepaint).byteAt addr = s.byteAt addr := rfl

/-! ### setLastNow -/

@[simp] theorem State.setLastNow_v (now : Nat) : (s.setLastNow now).v = s.v := by rfl
@[simp] theorem State.setLastNow_pcBits (now : Nat) : (s.setLastNow now).pcBits = s.pcBits := by rfl
@[simp] theorem State.setLastNow_indexBits (now : Nat) : (s.setLastNow now).indexBits = s.indexBits := by rfl
@[simp] theorem State.setLastNow_sp (now : Nat) : (s.setLastNow now).sp = s.sp := by rfl
@[simp] theorem State.setLastNow_stack (now : Nat) : (s.setLastNow now).stack = s.stack := by rfl
@[simp] theorem State.setLastNow_dt (now : Nat) : (s.setLastNow now).dt = s.dt := by rfl
@[simp] theorem State.setLastNow_st (now : Nat) : (s.setLastNow now).st = s.st := by rfl
@[simp] theorem State.setLastNow_mem (now : Nat) : (s.setLastNow now).mem = s.mem := by rfl
@[simp] theorem State.setLastNow_fb (now : Nat) : (s.setLastNow now).fb = s.fb := by rfl
@[simp] theorem State.setLastNow_dirty (now : Nat) : (s.setLastNow now).dirty = s.dirty := by rfl
@[simp] theorem State.setLastNow_down (now : Nat) : (s.setLastNow now).down = s.down := by rfl
@[simp] theorem State.setLastNow_pressedEdge (now : Nat) : (s.setLastNow now).pressedEdge = s.pressedEdge := by rfl
@[simp] theorem State.setLastNow_releasedEdge (now : Nat) : (s.setLastNow now).releasedEdge = s.releasedEdge := by rfl
@[simp] theorem State.setLastNow_kCpu (now : Nat) : (s.setLastNow now).kCpu = s.kCpu := by rfl
@[simp] theorem State.setLastNow_kTimer (now : Nat) : (s.setLastNow now).kTimer = s.kTimer := by rfl
@[simp] theorem State.setLastNow_kFrame (now : Nat) : (s.setLastNow now).kFrame = s.kFrame := by rfl
@[simp] theorem State.setLastNow_t0 (now : Nat) : (s.setLastNow now).t0 = s.t0 := by rfl
@[simp] theorem State.setLastNow_lastNow (now : Nat) : (s.setLastNow now).lastNow = now := by rfl
@[simp] theorem State.setLastNow_fault (now : Nat) : (s.setLastNow now).fault = s.fault := by rfl
@[simp] theorem State.setLastNow_cfg (now : Nat) : (s.setLastNow now).cfg = s.cfg := by rfl
@[simp] theorem State.setLastNow_hostInputs (now : Nat) : (s.setLastNow now).hostInputs = s.hostInputs := by rfl
@[simp] theorem State.setLastNow_draws (now : Nat) : (s.setLastNow now).draws = s.draws := by rfl
@[simp] theorem State.setLastNow_hostBytes (now : Nat) : (s.setLastNow now).hostBytes = s.hostBytes := by rfl
@[simp] theorem State.setLastNow_repaint (now : Nat) : (s.setLastNow now).repaint = s.repaint := by rfl
@[simp] theorem State.setLastNow_pc (now : Nat) : (s.setLastNow now).pc = s.pc := by rfl
@[simp] theorem State.setLastNow_index (now : Nat) : (s.setLastNow now).index = s.index := by rfl
@[simp] theorem State.setLastNow_ia (now : Nat) : (s.setLastNow now).ia = s.ia := by rfl
@[simp] theorem State.setLastNow_reg (now : Nat) (r : Nat) : (s.setLastNow now).reg r = s.reg r := by rfl
@[simp] theorem State.setLastNow_regByte (now : Nat) (r : Nat) : (s.setLastNow now).regByte r = s.regByte r := by rfl
@[simp] theorem State.setLastNow_stackAt (now : Nat) (entry : Nat) : (s.setLastNow now).stackAt entry = s.stackAt entry := by rfl
@[simp] theorem State.setLastNow_pixel (now : Nat) (px py : Nat) : (s.setLastNow now).pixel px py = s.pixel px py := by rfl
@[simp] theorem State.setLastNow_byteAt (now : Nat) (addr : Nat) : (s.setLastNow now).byteAt addr = s.byteAt addr := by rfl

/-! ### countCpu -/

@[simp] theorem State.countCpu_v : (s.countCpu).v = s.v := rfl
@[simp] theorem State.countCpu_pcBits : (s.countCpu).pcBits = s.pcBits := rfl
@[simp] theorem State.countCpu_indexBits : (s.countCpu).indexBits = s.indexBits := rfl
@[simp] theorem State.countCpu_sp : (s.countCpu).sp = s.sp := rfl
@[simp] theorem State.countCpu_stack : (s.countCpu).stack = s.stack := rfl
@[simp] theorem State.countCpu_dt : (s.countCpu).dt = s.dt := rfl
@[simp] theorem State.countCpu_st : (s.countCpu).st = s.st := rfl
@[simp] theorem State.countCpu_mem : (s.countCpu).mem = s.mem := rfl
@[simp] theorem State.countCpu_fb : (s.countCpu).fb = s.fb := rfl
@[simp] theorem State.countCpu_dirty : (s.countCpu).dirty = s.dirty := rfl
@[simp] theorem State.countCpu_down : (s.countCpu).down = s.down := rfl
@[simp] theorem State.countCpu_pressedEdge : (s.countCpu).pressedEdge = s.pressedEdge := rfl
@[simp] theorem State.countCpu_releasedEdge : (s.countCpu).releasedEdge = s.releasedEdge := rfl
@[simp] theorem State.countCpu_kCpu : (s.countCpu).kCpu = s.kCpu + 1 := rfl
@[simp] theorem State.countCpu_kTimer : (s.countCpu).kTimer = s.kTimer := rfl
@[simp] theorem State.countCpu_kFrame : (s.countCpu).kFrame = s.kFrame := rfl
@[simp] theorem State.countCpu_t0 : (s.countCpu).t0 = s.t0 := rfl
@[simp] theorem State.countCpu_lastNow : (s.countCpu).lastNow = s.lastNow := rfl
@[simp] theorem State.countCpu_fault : (s.countCpu).fault = s.fault := rfl
@[simp] theorem State.countCpu_cfg : (s.countCpu).cfg = s.cfg := rfl
@[simp] theorem State.countCpu_hostInputs : (s.countCpu).hostInputs = s.hostInputs := rfl
@[simp] theorem State.countCpu_draws : (s.countCpu).draws = s.draws := rfl
@[simp] theorem State.countCpu_hostBytes : (s.countCpu).hostBytes = s.hostBytes := rfl
@[simp] theorem State.countCpu_repaint : (s.countCpu).repaint = s.repaint := rfl
@[simp] theorem State.countCpu_pc : (s.countCpu).pc = s.pc := rfl
@[simp] theorem State.countCpu_index : (s.countCpu).index = s.index := rfl
@[simp] theorem State.countCpu_ia : (s.countCpu).ia = s.ia := rfl
@[simp] theorem State.countCpu_reg (r : Nat) : (s.countCpu).reg r = s.reg r := rfl
@[simp] theorem State.countCpu_regByte (r : Nat) : (s.countCpu).regByte r = s.regByte r := rfl
@[simp] theorem State.countCpu_stackAt (entry : Nat) : (s.countCpu).stackAt entry = s.stackAt entry := rfl
@[simp] theorem State.countCpu_pixel (px py : Nat) : (s.countCpu).pixel px py = s.pixel px py := rfl
@[simp] theorem State.countCpu_byteAt (addr : Nat) : (s.countCpu).byteAt addr = s.byteAt addr := rfl

/-! ### countTimer -/

@[simp] theorem State.countTimer_v : (s.countTimer).v = s.v := rfl
@[simp] theorem State.countTimer_pcBits : (s.countTimer).pcBits = s.pcBits := rfl
@[simp] theorem State.countTimer_indexBits : (s.countTimer).indexBits = s.indexBits := rfl
@[simp] theorem State.countTimer_sp : (s.countTimer).sp = s.sp := rfl
@[simp] theorem State.countTimer_stack : (s.countTimer).stack = s.stack := rfl
@[simp] theorem State.countTimer_dt : (s.countTimer).dt = s.dt := rfl
@[simp] theorem State.countTimer_st : (s.countTimer).st = s.st := rfl
@[simp] theorem State.countTimer_mem : (s.countTimer).mem = s.mem := rfl
@[simp] theorem State.countTimer_fb : (s.countTimer).fb = s.fb := rfl
@[simp] theorem State.countTimer_dirty : (s.countTimer).dirty = s.dirty := rfl
@[simp] theorem State.countTimer_down : (s.countTimer).down = s.down := rfl
@[simp] theorem State.countTimer_pressedEdge : (s.countTimer).pressedEdge = s.pressedEdge := rfl
@[simp] theorem State.countTimer_releasedEdge : (s.countTimer).releasedEdge = s.releasedEdge := rfl
@[simp] theorem State.countTimer_kCpu : (s.countTimer).kCpu = s.kCpu := rfl
@[simp] theorem State.countTimer_kTimer : (s.countTimer).kTimer = s.kTimer + 1 := rfl
@[simp] theorem State.countTimer_kFrame : (s.countTimer).kFrame = s.kFrame := rfl
@[simp] theorem State.countTimer_t0 : (s.countTimer).t0 = s.t0 := rfl
@[simp] theorem State.countTimer_lastNow : (s.countTimer).lastNow = s.lastNow := rfl
@[simp] theorem State.countTimer_fault : (s.countTimer).fault = s.fault := rfl
@[simp] theorem State.countTimer_cfg : (s.countTimer).cfg = s.cfg := rfl
@[simp] theorem State.countTimer_hostInputs : (s.countTimer).hostInputs = s.hostInputs := rfl
@[simp] theorem State.countTimer_draws : (s.countTimer).draws = s.draws := rfl
@[simp] theorem State.countTimer_hostBytes : (s.countTimer).hostBytes = s.hostBytes := rfl
@[simp] theorem State.countTimer_repaint : (s.countTimer).repaint = s.repaint := rfl
@[simp] theorem State.countTimer_pc : (s.countTimer).pc = s.pc := rfl
@[simp] theorem State.countTimer_index : (s.countTimer).index = s.index := rfl
@[simp] theorem State.countTimer_ia : (s.countTimer).ia = s.ia := rfl
@[simp] theorem State.countTimer_reg (r : Nat) : (s.countTimer).reg r = s.reg r := rfl
@[simp] theorem State.countTimer_regByte (r : Nat) : (s.countTimer).regByte r = s.regByte r := rfl
@[simp] theorem State.countTimer_stackAt (entry : Nat) : (s.countTimer).stackAt entry = s.stackAt entry := rfl
@[simp] theorem State.countTimer_pixel (px py : Nat) : (s.countTimer).pixel px py = s.pixel px py := rfl
@[simp] theorem State.countTimer_byteAt (addr : Nat) : (s.countTimer).byteAt addr = s.byteAt addr := rfl

/-! ### countFrame -/

@[simp] theorem State.countFrame_v : (s.countFrame).v = s.v := rfl
@[simp] theorem State.countFrame_pcBits : (s.countFrame).pcBits = s.pcBits := rfl
@[simp] theorem State.countFrame_indexBits : (s.countFrame).indexBits = s.indexBits := rfl
@[simp] theorem State.countFrame_sp : (s.countFrame).sp = s.sp := rfl
@[simp] theorem State.countFrame_stack : (s.countFrame).stack = s.stack := rfl
@[simp] theorem State.countFrame_dt : (s.countFrame).dt = s.dt := rfl
@[simp] theorem State.countFrame_st : (s.countFrame).st = s.st := rfl
@[simp] theorem State.countFrame_mem : (s.countFrame).mem = s.mem := rfl
@[simp] theorem State.countFrame_fb : (s.countFrame).fb = s.fb := rfl
@[simp] theorem State.countFrame_dirty : (s.countFrame).dirty = s.dirty := rfl
@[simp] theorem State.countFrame_down : (s.countFrame).down = s.down := rfl
@[simp] theorem State.countFrame_pressedEdge : (s.countFrame).pressedEdge = s.pressedEdge := rfl
@[simp] theorem State.countFrame_releasedEdge : (s.countFrame).releasedEdge = s.releasedEdge := rfl
@[simp] theorem State.countFrame_kCpu : (s.countFrame).kCpu = s.kCpu := rfl
@[simp] theorem State.countFrame_kTimer : (s.countFrame).kTimer = s.kTimer := rfl
@[simp] theorem State.countFrame_kFrame : (s.countFrame).kFrame = s.kFrame + 1 := rfl
@[simp] theorem State.countFrame_t0 : (s.countFrame).t0 = s.t0 := rfl
@[simp] theorem State.countFrame_lastNow : (s.countFrame).lastNow = s.lastNow := rfl
@[simp] theorem State.countFrame_fault : (s.countFrame).fault = s.fault := rfl
@[simp] theorem State.countFrame_cfg : (s.countFrame).cfg = s.cfg := rfl
@[simp] theorem State.countFrame_hostInputs : (s.countFrame).hostInputs = s.hostInputs := rfl
@[simp] theorem State.countFrame_draws : (s.countFrame).draws = s.draws := rfl
@[simp] theorem State.countFrame_hostBytes : (s.countFrame).hostBytes = s.hostBytes := rfl
@[simp] theorem State.countFrame_repaint : (s.countFrame).repaint = s.repaint := rfl
@[simp] theorem State.countFrame_pc : (s.countFrame).pc = s.pc := rfl
@[simp] theorem State.countFrame_index : (s.countFrame).index = s.index := rfl
@[simp] theorem State.countFrame_ia : (s.countFrame).ia = s.ia := rfl
@[simp] theorem State.countFrame_reg (r : Nat) : (s.countFrame).reg r = s.reg r := rfl
@[simp] theorem State.countFrame_regByte (r : Nat) : (s.countFrame).regByte r = s.regByte r := rfl
@[simp] theorem State.countFrame_stackAt (entry : Nat) : (s.countFrame).stackAt entry = s.stackAt entry := rfl
@[simp] theorem State.countFrame_pixel (px py : Nat) : (s.countFrame).pixel px py = s.pixel px py := rfl
@[simp] theorem State.countFrame_byteAt (addr : Nat) : (s.countFrame).byteAt addr = s.byteAt addr := rfl

/-! ### endCycle -/

@[simp] theorem State.endCycle_v : (s.endCycle).v = s.v := rfl
@[simp] theorem State.endCycle_pcBits : (s.endCycle).pcBits = s.pcBits := rfl
@[simp] theorem State.endCycle_indexBits : (s.endCycle).indexBits = s.indexBits := rfl
@[simp] theorem State.endCycle_sp : (s.endCycle).sp = s.sp := rfl
@[simp] theorem State.endCycle_stack : (s.endCycle).stack = s.stack := rfl
@[simp] theorem State.endCycle_dt : (s.endCycle).dt = s.dt := rfl
@[simp] theorem State.endCycle_st : (s.endCycle).st = s.st := rfl
@[simp] theorem State.endCycle_mem : (s.endCycle).mem = s.mem := rfl
@[simp] theorem State.endCycle_fb : (s.endCycle).fb = s.fb := rfl
@[simp] theorem State.endCycle_dirty : (s.endCycle).dirty = s.dirty := rfl
@[simp] theorem State.endCycle_down : (s.endCycle).down = s.down := rfl
@[simp] theorem State.endCycle_pressedEdge : (s.endCycle).pressedEdge = List.replicate s.cfg.nKeys false := rfl
@[simp] theorem State.endCycle_releasedEdge : (s.endCycle).releasedEdge = List.replicate s.cfg.nKeys false := rfl
@[simp] theorem State.endCycle_kCpu : (s.endCycle).kCpu = s.kCpu + 1 := rfl
@[simp] theorem State.endCycle_kTimer : (s.endCycle).kTimer = s.kTimer := rfl
@[simp] theorem State.endCycle_kFrame : (s.endCycle).kFrame = s.kFrame := rfl
@[simp] theorem State.endCycle_t0 : (s.endCycle).t0 = s.t0 := rfl
@[simp] theorem State.endCycle_lastNow : (s.endCycle).lastNow = s.lastNow := rfl
@[simp] theorem State.endCycle_fault : (s.endCycle).fault = s.fault := rfl
@[simp] theorem State.endCycle_cfg : (s.endCycle).cfg = s.cfg := rfl
@[simp] theorem State.endCycle_hostInputs : (s.endCycle).hostInputs = s.hostInputs := rfl
@[simp] theorem State.endCycle_draws : (s.endCycle).draws = s.draws := rfl
@[simp] theorem State.endCycle_hostBytes : (s.endCycle).hostBytes = s.hostBytes := rfl
@[simp] theorem State.endCycle_repaint : (s.endCycle).repaint = s.repaint := rfl
@[simp] theorem State.endCycle_pc : (s.endCycle).pc = s.pc := rfl
@[simp] theorem State.endCycle_index : (s.endCycle).index = s.index := rfl
@[simp] theorem State.endCycle_ia : (s.endCycle).ia = s.ia := rfl
@[simp] theorem State.endCycle_reg (r : Nat) : (s.endCycle).reg r = s.reg r := rfl
@[simp] theorem State.endCycle_regByte (r : Nat) : (s.endCycle).regByte r = s.regByte r := rfl
@[simp] theorem State.endCycle_stackAt (entry : Nat) : (s.endCycle).stackAt entry = s.stackAt entry := rfl
@[simp] theorem State.endCycle_pixel (px py : Nat) : (s.endCycle).pixel px py = s.pixel px py := rfl
@[simp] theorem State.endCycle_byteAt (addr : Nat) : (s.endCycle).byteAt addr = s.byteAt addr := rfl

/-! ### press -/

@[simp] theorem State.press_v (k : Nat) : (s.press k).v = s.v := by
  unfold State.press; split <;> rfl
@[simp] theorem State.press_pcBits (k : Nat) : (s.press k).pcBits = s.pcBits := by
  unfold State.press; split <;> rfl
@[simp] theorem State.press_indexBits (k : Nat) : (s.press k).indexBits = s.indexBits := by
  unfold State.press; split <;> rfl
@[simp] theorem State.press_sp (k : Nat) : (s.press k).sp = s.sp := by
  unfold State.press; split <;> rfl
@[simp] theorem State.press_stack (k : Nat) : (s.press k).stack = s.stack := by
  unfold State.press; split <;> rfl
@[simp] theorem State.press_dt (k : Nat) : (s.press k).dt = s.dt := by
  unfold State.press; split <;> rfl
@[simp] theorem State.press_st (k : Nat) : (s.press k).st = s.st := by
  unfold State.press; split <;> rfl
@[simp] theorem State.press_mem (k : Nat) : (s.press k).mem = s.mem := by
  unfold State.press; split <;> rfl
@[simp] theorem State.press_fb (k : Nat) : (s.press k).fb = s.fb := by
  unfold State.press; split <;> rfl
@[simp] theorem State.press_dirty (k : Nat) : (s.press k).dirty = s.dirty := by
  unfold State.press; split <;> rfl
@[simp] theorem State.press_releasedEdge (k : Nat) : (s.press k).releasedEdge = s.releasedEdge := by
  unfold State.press; split <;> rfl
@[simp] theorem State.press_kCpu (k : Nat) : (s.press k).kCpu = s.kCpu := by
  unfold State.press; split <;> rfl
@[simp] theorem State.press_kTimer (k : Nat) : (s.press k).kTimer = s.kTimer := by
  unfold State.press; split <;> rfl
@[simp] theorem State.press_kFrame (k : Nat) : (s.press k).kFrame = s.kFrame := by
  unfold State.press; split <;> rfl
@[simp] theorem State.press_t0 (k : Nat) : (s.press k).t0 = s.t0 := by
  unfold State.press; split <;> rfl
@[simp] theorem State.press_lastNow (k : Nat) : (s.press k).lastNow = s.lastNow := by
  unfold State.press; split <;> rfl
@[simp] theorem State.press_fault (k : Nat) : (s.press k).fault = s.fault := by
  unfold State.press; split <;> rfl
@[simp] theorem State.press_cfg (k : Nat) : (s.press k).cfg = s.cfg := by
  unfold State.press; split <;> rfl
@[simp] theorem State.press_hostInputs (k : Nat) : (s.press k).hostInputs = s.hostInputs := by
  unfold State.press; split <;> rfl
@[simp] theorem State.press_draws (k : Nat) : (s.press k).draws = s.draws := by
  unfold State.press; split <;> rfl
@[simp] theorem State.press_hostBytes (k : Nat) : (s.press k).hostBytes = s.hostBytes := by
  unfold State.press; split <;> rfl
@[simp] theorem State.press_repaint (k : Nat) : (s.press k).repaint = s.repaint := by
  unfold State.press; split <;> rfl
@[simp] theorem State.press_pc (k : Nat) : (s.press k).pc = s.pc := by
  unfold State.press; split <;> rfl
@[simp] theorem State.press_index (k : Nat) : (s.press k).index = s.index := by
  unfold State.press; split <;> rfl
@[simp] theorem State.press_ia (k : Nat) : (s.press k).ia = s.ia := by
  unfold State.press; split <;> rfl
@[simp] theorem State.press_reg (k : Nat) (r : Nat) : (s.press k).reg r = s.reg r := by
  unfold State.press; split <;> rfl
@[simp] theorem State.press_regByte (k : Nat) (r : Nat) : (s.press k).regByte r = s.regByte r := by
  unfold State.press; split <;> rfl
@[simp] theorem State.press_stackAt (k : Nat) (entry : Nat) : (s.press k).stackAt entry = s.stackAt entry := by
  unfold State.press; split <;> rfl
@[simp] theorem State.press_pixel (k : Nat) (px py : Nat) : (s.press k).pixel px py = s.pixel px py := by
  unfold State.press; split <;> rfl
@[simp] theorem State.press_byteAt (k : Nat) (addr : Nat) : (s.press k).byteAt addr = s.byteAt addr := by
  unfold State.press; split <;> rfl

/-! ### release -/

@[simp] theorem State.release_v (k : Nat) : (s.release k).v = s.v := by
  unfold State.release; split <;> rfl
@[simp] theorem State.release_pcBits (k : Nat) : (s.release k).pcBits = s.pcBits := by
  unfold State.release; split <;> rfl
@[simp] theorem State.release_indexBits (k : Nat) : (s.release k).indexBits = s.indexBits := by
  unfold State.release; split <;> rfl
@[simp] theorem State.release_sp (k : Nat) : (s.release k).sp = s.sp := by
  unfold State.release; split <;> rfl
@[simp] theorem State.release_stack (k : Nat) : (s.release k).stack = s.stack := by
  unfold State.release; split <;> rfl
@[simp] theorem State.release_dt (k : Nat) : (s.release k).dt = s.dt := by
  unfold State.release; split <;> rfl
@[simp] theorem State.release_st (k : Nat) : (s.release k).st = s.st := by
  unfold State.release; split <;> rfl
@[simp] theorem State.release_mem (k : Nat) : (s.release k).mem = s.mem := by
  unfold State.release; split <;> rfl
@[simp] theorem State.release_fb (k : Nat) : (s.release k).fb = s.fb := by
  unfold State.release; split <;> rfl
@[simp] theorem State.release_dirty (k : Nat) : (s.release k).dirty = s.dirty := by
  unfold State.release; split <;> rfl
@[simp] theorem State.release_pressedEdge (k : Nat) : (s.release k).pressedEdge = s.pressedEdge := by
  unfold State.release; split <;> rfl
@[simp] theorem State.release_kCpu (k : Nat) : (s.release k).kCpu = s.kCpu := by
  unfold State.release; split <;> rfl
@[simp] theorem State.release_kTimer (k : Nat) : (s.release k).kTimer = s.kTimer := by
  unfold State.release; split <;> rfl
@[simp] theorem State.release_kFrame (k : Nat) : (s.release k).kFrame = s.kFrame := by
  unfold State.release; split <;> rfl
@[simp] theorem State.release_t0 (k : Nat) : (s.release k).t0 = s.t0 := by
  unfold State.release; split <;> rfl
@[simp] theorem State.release_lastNow (k : Nat) : (s.release k).lastNow = s.lastNow := by
  unfold State.release; split <;> rfl
@[simp] theorem State.release_fault (k : Nat) : (s.release k).fault = s.fault := by
  unfold State.release; split <;> rfl
@[simp] theorem State.release_cfg (k : Nat) : (s.release k).cfg = s.cfg := by
  unfold State.release; split <;> rfl
@[simp] theorem State.release_hostInputs (k : Nat) : (s.release k).hostInputs = s.hostInputs := by
  unfold State.release; split <;> rfl
@[simp] theorem State.release_draws (k : Nat) : (s.release k).draws = s.draws := by
  unfold State.release; split <;> rfl
@[simp] theorem State.release_hostBytes (k : Nat) : (s.release k).hostBytes = s.hostBytes := by
  unfold State.release; split <;> rfl
@[simp] theorem State.release_repaint (k : Nat) : (s.release k).repaint = s.repaint := by
  unfold State.release; split <;> rfl
@[simp] theorem State.release_pc (k : Nat) : (s.release k).pc = s.pc := by
  unfold State.release; split <;> rfl
@[simp] theorem State.release_index (k : Nat) : (s.release k).index = s.index := by
  unfold State.release; split <;> rfl
@[simp] theorem State.release_ia (k : Nat) : (s.release k).ia = s.ia := by
  unfold State.release; split <;> rfl
@[simp] theorem State.release_reg (k : Nat) (r : Nat) : (s.release k).reg r = s.reg r := by
  unfold State.release; split <;> rfl
@[simp] theorem State.release_regByte (k : Nat) (r : Nat) : (s.release k).regByte r = s.regByte r := by
  unfold State.release; split <;> rfl
@[simp] theorem State.release_stackAt (k : Nat) (entry : Nat) : (s.release k).stackAt entry = s.stackAt entry := by
  unfold State.release; split <;> rfl
@[simp] theorem State.release_pixel (k : Nat) (px py : Nat) : (s.release k).pixel px py = s.pixel px py := by
  unfold State.release; split <;> rfl
@[simp] theorem State.release_byteAt (k : Nat) (addr : Nat) : (s.release k).byteAt addr = s.byteAt addr := by
  unfold State.release; split <;> rfl

/-! ### skipIf -/

@[simp] theorem State.skipIf_v (c : Bool) : (s.skipIf c).v = s.v := by
  unfold State.skipIf; split <;> rfl
@[simp] theorem State.skipIf_indexBits (c : Bool) : (s.skipIf c).indexBits = s.indexBits := by
  unfold State.skipIf; split <;> rfl
@[simp] theorem State.skipIf_sp (c : Bool) : (s.skipIf c).sp = s.sp := by
  unfold State.skipIf; split <;> rfl
@[simp] theorem State.skipIf_stack (c : Bool) : (s.skipIf c).stack = s.stack := by
  unfold State.skipIf; split <;> rfl
@[simp] theorem State.skipIf_dt (c : Bool) : (s.skipIf c).dt = s.dt := by
  unfold State.skipIf; split <;> rfl
@[simp] theorem State.skipIf_st (c : Bool) : (s.skipIf c).st = s.st := by
  unfold State.skipIf; split <;> rfl
@[simp] theorem State.skipIf_mem (c : Bool) : (s.skipIf c).mem = s.mem := by
  unfold State.skipIf; split <;> rfl
@[simp] theorem State.skipIf_fb (c : Bool) : (s.skipIf c).fb = s.fb := by
  unfold State.skipIf; split <;> rfl
@[simp] theorem State.skipIf_dirty (c : Bool) : (s.skipIf c).dirty = s.dirty := by
  unfold State.skipIf; split <;> rfl
@[simp] theorem State.skipIf_down (c : Bool) : (s.skipIf c).down = s.down := by
  unfold State.skipIf; split <;> rfl
@[simp] theorem State.skipIf_pressedEdge (c : Bool) : (s.skipIf c).pressedEdge = s.pressedEdge := by
  unfold State.skipIf; split <;> rfl
@[simp] theorem State.skipIf_releasedEdge (c : Bool) : (s.skipIf c).releasedEdge = s.releasedEdge := by
  unfold State.skipIf; split <;> rfl
@[simp] theorem State.skipIf_kCpu (c : Bool) : (s.skipIf c).kCpu = s.kCpu := by
  unfold State.skipIf; split <;> rfl
@[simp] theorem State.skipIf_kTimer (c : Bool) : (s.skipIf c).kTimer = s.kTimer := by
  unfold State.skipIf; split <;> rfl
@[simp] theorem State.skipIf_kFrame (c : Bool) : (s.skipIf c).kFrame = s.kFrame := by
  unfold State.skipIf; split <;> rfl
@[simp] theorem State.skipIf_t0 (c : Bool) : (s.skipIf c).t0 = s.t0 := by
  unfold State.skipIf; split <;> rfl
@[simp] theorem State.skipIf_lastNow (c : Bool) : (s.skipIf c).lastNow = s.lastNow := by
  unfold State.skipIf; split <;> rfl
@[simp] theorem State.skipIf_fault (c : Bool) : (s.skipIf c).fault = s.fault := by
  unfold State.skipIf; split <;> rfl
@[simp] theorem State.skipIf_cfg (c : Bool) : (s.skipIf c).cfg = s.cfg := by
  unfold State.skipIf; split <;> rfl
@[simp] theorem State.skipIf_hostInputs (c : Bool) : (s.skipIf c).hostInputs = s.hostInputs := by
  unfold State.skipIf; split <;> rfl
@[simp] theorem State.skipIf_draws (c : Bool) : (s.skipIf c).draws = s.draws := by
  unfold State.skipIf; split <;> rfl
@[simp] theorem State.skipIf_hostBytes (c : Bool) : (s.skipIf c).hostBytes = s.hostBytes := by
  unfold State.skipIf; split <;> rfl
@[simp] theorem State.skipIf_repaint (c : Bool) : (s.skipIf c).repaint = s.repaint := by
  unfold State.skipIf; split <;> rfl
@[simp] theorem State.skipIf_index (c : Bool) : (s.skipIf c).index = s.index := by
  unfold State.skipIf; split <;> rfl
@[simp] theorem State.skipIf_reg (c : Bool) (r : Nat) : (s.skipIf c).reg r = s.reg r := by
  unfold State.skipIf; split <;> rfl
@[simp] theorem State.skipIf_regByte (c : Bool) (r : Nat) : (s.skipIf c).regByte r = s.regByte r := by
  unfold State.skipIf; split <;> rfl
@[simp] theorem State.skipIf_stackAt (c : Bool) (entry : Nat) : (s.skipIf c).stackAt entry = s.stackAt entry := by
  unfold State.skipIf; split <;> rfl
@[simp] theorem State.skipIf_pixel (c : Bool) (px py : Nat) : (s.skipIf c).pixel px py = s.pixel px py := by
  unfold State.skipIf; split <;> rfl
@[simp] theorem State.skipIf_byteAt (c : Bool) (addr : Nat) : (s.skipIf c).byteAt addr = s.byteAt addr := by
  unfold State.skipIf; split <;> rfl

/-! ### frameAction -/

@[simp] theorem State.frameAction_v : (s.frameAction).v = s.v := by
  unfold State.frameAction; split <;> rfl
@[simp] theorem State.frameAction_pcBits : (s.frameAction).pcBits = s.pcBits := by
  unfold State.frameAction; split <;> rfl
@[simp] theorem State.frameAction_indexBits : (s.frameAction).indexBits = s.indexBits := by
  unfold State.frameAction; split <;> rfl
@[simp] theorem State.frameAction_sp : (s.frameAction).sp = s.sp := by
  unfold State.frameAction; split <;> rfl
@[simp] theorem State.frameAction_stack : (s.frameAction).stack = s.stack := by
  unfold State.frameAction; split <;> rfl
@[simp] theorem State.frameAction_dt : (s.frameAction).dt = s.dt := by
  unfold State.frameAction; split <;> rfl
@[simp] theorem State.frameAction_st : (s.frameAction).st = s.st := by
  unfold State.frameAction; split <;> rfl
@[simp] theorem State.frameAction_mem : (s.frameAction).mem = s.mem := by
  unfold State.frameAction; split <;> rfl
@[simp] theorem State.frameAction_fb : (s.frameAction).fb = s.fb := by
  unfold State.frameAction; split <;> rfl
@[simp] theorem State.frameAction_down : (s.frameAction).down = s.down := by
  unfold State.frameAction; split <;> rfl
@[simp] theorem State.frameAction_pressedEdge : (s.frameAction).pressedEdge = s.pressedEdge := by
  unfold State.frameAction; split <;> rfl
@[simp] theorem State.frameAction_releasedEdge : (s.frameAction).releasedEdge = s.releasedEdge := by
  unfold State.frameAction; split <;> rfl
@[simp] theorem State.frameAction_kCpu : (s.frameAction).kCpu = s.kCpu := by
  unfold State.frameAction; split <;> rfl
@[simp] theorem State.frameAction_kTimer : (s.frameAction).kTimer = s.kTimer := by
  unfold State.frameAction; split <;> rfl
@[simp] theorem State.frameAction_kFrame : (s.frameAction).kFrame = s.kFrame := by
  unfold State.frameAction; split <;> rfl
@[simp] theorem State.frameAction_t0 : (s.frameAction).t0 = s.t0 := by
  unfold State.frameAction; split <;> rfl
@[simp] theorem State.frameAction_lastNow : (s.frameAction).lastNow = s.lastNow := by
  unfold State.frameAction; split <;> rfl
@[simp] theorem State.frameAction_fault : (s.frameAction).fault = s.fault := by
  unfold State.frameAction; split <;> rfl
@[simp] theorem State.frameAction_cfg : (s.frameAction).cfg = s.cfg := by
  unfold State.frameAction; split <;> rfl
@[simp] theorem State.frameAction_hostInputs : (s.frameAction).hostInputs = s.hostInputs := by
  unfold State.frameAction; split <;> rfl
@[simp] theorem State.frameAction_draws : (s.frameAction).draws = s.draws := by
  unfold State.frameAction; split <;> rfl
@[simp] theorem State.frameAction_hostBytes : (s.frameAction).hostBytes = s.hostBytes := by
  unfold State.frameAction; split <;> rfl
@[simp] theorem State.frameAction_pc : (s.frameAction).pc = s.pc := by
  unfold State.frameAction; split <;> rfl
@[simp] theorem State.frameAction_index : (s.frameAction).index = s.index := by
  unfold State.frameAction; split <;> rfl
@[simp] theorem State.frameAction_ia : (s.frameAction).ia = s.ia := by
  unfold State.frameAction; split <;> rfl
@[simp] theorem State.frameAction_reg (r : Nat) : (s.frameAction).reg r = s.reg r := by
  unfold State.frameAction; split <;> rfl
@[simp] theorem State.frameAction_regByte (r : Nat) : (s.frameAction).regByte r = s.regByte r := by
  unfold State.frameAction; split <;> rfl
@[simp] theorem State.frameAction_stackAt (entry : Nat) : (s.frameAction).stackAt entry = s.stackAt entry := by
  unfold State.frameAction; split <;> rfl
@[simp] theorem State.frameAction_pixel (px py : Nat) : (s.frameAction).pixel px py = s.pixel px py := by
  unfold State.frameAction; split <;> rfl
@[simp] theorem State.frameAction_byteAt (addr : Nat) : (s.frameAction).byteAt addr = s.byteAt addr := by
  unfold State.frameAction; split <;> rfl

/-! ### shiftCopy -/

@[simp] theorem State.shiftCopy_pcBits (x y : RegIdx) : (s.shiftCopy x y).pcBits = s.pcBits := by
  unfold State.shiftCopy; split <;> rfl
@[simp] theorem State.shiftCopy_indexBits (x y : RegIdx) : (s.shiftCopy x y).indexBits = s.indexBits := by
  unfold State.shiftCopy; split <;> rfl
@[simp] theorem State.shiftCopy_sp (x y : RegIdx) : (s.shiftCopy x y).sp = s.sp := by
  unfold State.shiftCopy; split <;> rfl
@[simp] theorem State.shiftCopy_stack (x y : RegIdx) : (s.shiftCopy x y).stack = s.stack := by
  unfold State.shiftCopy; split <;> rfl
@[simp] theorem State.shiftCopy_dt (x y : RegIdx) : (s.shiftCopy x y).dt = s.dt := by
  unfold State.shiftCopy; split <;> rfl
@[simp] theorem State.shiftCopy_st (x y : RegIdx) : (s.shiftCopy x y).st = s.st := by
  unfold State.shiftCopy; split <;> rfl
@[simp] theorem State.shiftCopy_mem (x y : RegIdx) : (s.shiftCopy x y).mem = s.mem := by
  unfold State.shiftCopy; split <;> rfl
@[simp] theorem State.shiftCopy_fb (x y : RegIdx) : (s.shiftCopy x y).fb = s.fb := by
  unfold State.shiftCopy; split <;> rfl
@[simp] theorem State.shiftCopy_dirty (x y : RegIdx) : (s.shiftCopy x y).dirty = s.dirty := by
  unfold State.shiftCopy; split <;> rfl
@[simp] theorem State.shiftCopy_down (x y : RegIdx) : (s.shiftCopy x y).down = s.down := by
  unfold State.shiftCopy; split <;> rfl
@[simp] theorem State.shiftCopy_pressedEdge (x y : RegIdx) : (s.shiftCopy x y).pressedEdge = s.pressedEdge := by
  unfold State.shiftCopy; split <;> rfl
@[simp] theorem State.shiftCopy_releasedEdge (x y : RegIdx) : (s.shiftCopy x y).releasedEdge = s.releasedEdge := by
  unfold State.shiftCopy; split <;> rfl
@[simp] theorem State.shiftCopy_kCpu (x y : RegIdx) : (s.shiftCopy x y).kCpu = s.kCpu := by
  unfold State.shiftCopy; split <;> rfl
@[simp] theorem State.shiftCopy_kTimer (x y : RegIdx) : (s.shiftCopy x y).kTimer = s.kTimer := by
  unfold State.shiftCopy; split <;> rfl
@[simp] theorem State.shiftCopy_kFrame (x y : RegIdx) : (s.shiftCopy x y).kFrame = s.kFrame := by
  unfold State.shiftCopy; split <;> rfl
@[simp] theorem State.shiftCopy_t0 (x y : RegIdx) : (s.shiftCopy x y).t0 = s.t0 := by
  unfold State.shiftCopy; split <;> rfl
@[simp] theorem State.shiftCopy_lastNow (x y : RegIdx) : (s.shiftCopy x y).lastNow = s.lastNow := by
  unfold State.shiftCopy; split <;> rfl
@[simp] theorem State.shiftCopy_fault (x y : RegIdx) : (s.shiftCopy x y).fault = s.fault := by
  unfold State.shiftCopy; split <;> rfl
@[simp] theorem State.shiftCopy_cfg (x y : RegIdx) : (s.shiftCopy x y).cfg = s.cfg := by
  unfold State.shiftCopy; split <;> rfl
@[simp] theorem State.shiftCopy_hostInputs (x y : RegIdx) : (s.shiftCopy x y).hostInputs = s.hostInputs := by
  unfold State.shiftCopy; split <;> rfl
@[simp] theorem State.shiftCopy_draws (x y : RegIdx) : (s.shiftCopy x y).draws = s.draws := by
  unfold State.shiftCopy; split <;> rfl
@[simp] theorem State.shiftCopy_hostBytes (x y : RegIdx) : (s.shiftCopy x y).hostBytes = s.hostBytes := by
  unfold State.shiftCopy; split <;> rfl
@[simp] theorem State.shiftCopy_repaint (x y : RegIdx) : (s.shiftCopy x y).repaint = s.repaint := by
  unfold State.shiftCopy; split <;> rfl
@[simp] theorem State.shiftCopy_pc (x y : RegIdx) : (s.shiftCopy x y).pc = s.pc := by
  unfold State.shiftCopy; split <;> rfl
@[simp] theorem State.shiftCopy_index (x y : RegIdx) : (s.shiftCopy x y).index = s.index := by
  unfold State.shiftCopy; split <;> rfl
@[simp] theorem State.shiftCopy_ia (x y : RegIdx) : (s.shiftCopy x y).ia = s.ia := by
  unfold State.shiftCopy; split <;> rfl
@[simp] theorem State.shiftCopy_stackAt (x y : RegIdx) (entry : Nat) : (s.shiftCopy x y).stackAt entry = s.stackAt entry := by
  unfold State.shiftCopy; split <;> rfl
@[simp] theorem State.shiftCopy_pixel (x y : RegIdx) (px py : Nat) : (s.shiftCopy x y).pixel px py = s.pixel px py := by
  unfold State.shiftCopy; split <;> rfl
@[simp] theorem State.shiftCopy_byteAt (x y : RegIdx) (addr : Nat) : (s.shiftCopy x y).byteAt addr = s.byteAt addr := by
  unfold State.shiftCopy; split <;> rfl

/-! ### classicAdvance -/

@[simp] theorem State.classicAdvance_v (x : RegIdx) : (s.classicAdvance x).v = s.v := by
  unfold State.classicAdvance; split <;> rfl
@[simp] theorem State.classicAdvance_pcBits (x : RegIdx) : (s.classicAdvance x).pcBits = s.pcBits := by
  unfold State.classicAdvance; split <;> rfl
@[simp] theorem State.classicAdvance_sp (x : RegIdx) : (s.classicAdvance x).sp = s.sp := by
  unfold State.classicAdvance; split <;> rfl
@[simp] theorem State.classicAdvance_stack (x : RegIdx) : (s.classicAdvance x).stack = s.stack := by
  unfold State.classicAdvance; split <;> rfl
@[simp] theorem State.classicAdvance_dt (x : RegIdx) : (s.classicAdvance x).dt = s.dt := by
  unfold State.classicAdvance; split <;> rfl
@[simp] theorem State.classicAdvance_st (x : RegIdx) : (s.classicAdvance x).st = s.st := by
  unfold State.classicAdvance; split <;> rfl
@[simp] theorem State.classicAdvance_mem (x : RegIdx) : (s.classicAdvance x).mem = s.mem := by
  unfold State.classicAdvance; split <;> rfl
@[simp] theorem State.classicAdvance_fb (x : RegIdx) : (s.classicAdvance x).fb = s.fb := by
  unfold State.classicAdvance; split <;> rfl
@[simp] theorem State.classicAdvance_dirty (x : RegIdx) : (s.classicAdvance x).dirty = s.dirty := by
  unfold State.classicAdvance; split <;> rfl
@[simp] theorem State.classicAdvance_down (x : RegIdx) : (s.classicAdvance x).down = s.down := by
  unfold State.classicAdvance; split <;> rfl
@[simp] theorem State.classicAdvance_pressedEdge (x : RegIdx) : (s.classicAdvance x).pressedEdge = s.pressedEdge := by
  unfold State.classicAdvance; split <;> rfl
@[simp] theorem State.classicAdvance_releasedEdge (x : RegIdx) : (s.classicAdvance x).releasedEdge = s.releasedEdge := by
  unfold State.classicAdvance; split <;> rfl
@[simp] theorem State.classicAdvance_kCpu (x : RegIdx) : (s.classicAdvance x).kCpu = s.kCpu := by
  unfold State.classicAdvance; split <;> rfl
@[simp] theorem State.classicAdvance_kTimer (x : RegIdx) : (s.classicAdvance x).kTimer = s.kTimer := by
  unfold State.classicAdvance; split <;> rfl
@[simp] theorem State.classicAdvance_kFrame (x : RegIdx) : (s.classicAdvance x).kFrame = s.kFrame := by
  unfold State.classicAdvance; split <;> rfl
@[simp] theorem State.classicAdvance_t0 (x : RegIdx) : (s.classicAdvance x).t0 = s.t0 := by
  unfold State.classicAdvance; split <;> rfl
@[simp] theorem State.classicAdvance_lastNow (x : RegIdx) : (s.classicAdvance x).lastNow = s.lastNow := by
  unfold State.classicAdvance; split <;> rfl
@[simp] theorem State.classicAdvance_fault (x : RegIdx) : (s.classicAdvance x).fault = s.fault := by
  unfold State.classicAdvance; split <;> rfl
@[simp] theorem State.classicAdvance_cfg (x : RegIdx) : (s.classicAdvance x).cfg = s.cfg := by
  unfold State.classicAdvance; split <;> rfl
@[simp] theorem State.classicAdvance_hostInputs (x : RegIdx) : (s.classicAdvance x).hostInputs = s.hostInputs := by
  unfold State.classicAdvance; split <;> rfl
@[simp] theorem State.classicAdvance_draws (x : RegIdx) : (s.classicAdvance x).draws = s.draws := by
  unfold State.classicAdvance; split <;> rfl
@[simp] theorem State.classicAdvance_hostBytes (x : RegIdx) : (s.classicAdvance x).hostBytes = s.hostBytes := by
  unfold State.classicAdvance; split <;> rfl
@[simp] theorem State.classicAdvance_repaint (x : RegIdx) : (s.classicAdvance x).repaint = s.repaint := by
  unfold State.classicAdvance; split <;> rfl
@[simp] theorem State.classicAdvance_pc (x : RegIdx) : (s.classicAdvance x).pc = s.pc := by
  unfold State.classicAdvance; split <;> rfl
@[simp] theorem State.classicAdvance_ia (x : RegIdx) : (s.classicAdvance x).ia = s.ia := by
  unfold State.classicAdvance; split <;> rfl
@[simp] theorem State.classicAdvance_reg (x : RegIdx) (r : Nat) : (s.classicAdvance x).reg r = s.reg r := by
  unfold State.classicAdvance; split <;> rfl
@[simp] theorem State.classicAdvance_regByte (x : RegIdx) (r : Nat) : (s.classicAdvance x).regByte r = s.regByte r := by
  unfold State.classicAdvance; split <;> rfl
@[simp] theorem State.classicAdvance_stackAt (x : RegIdx) (entry : Nat) : (s.classicAdvance x).stackAt entry = s.stackAt entry := by
  unfold State.classicAdvance; split <;> rfl
@[simp] theorem State.classicAdvance_pixel (x : RegIdx) (px py : Nat) : (s.classicAdvance x).pixel px py = s.pixel px py := by
  unfold State.classicAdvance; split <;> rfl
@[simp] theorem State.classicAdvance_byteAt (x : RegIdx) (addr : Nat) : (s.classicAdvance x).byteAt addr = s.byteAt addr := by
  unfold State.classicAdvance; split <;> rfl

/-! ### writeFlagged -/

@[simp] theorem State.writeFlagged_pcBits (x : RegIdx) (result : State → Nat) (flag : State → Bool) : (s.writeFlagged x result flag).pcBits = s.pcBits := by
  unfold State.writeFlagged; split <;> rfl
@[simp] theorem State.writeFlagged_indexBits (x : RegIdx) (result : State → Nat) (flag : State → Bool) : (s.writeFlagged x result flag).indexBits = s.indexBits := by
  unfold State.writeFlagged; split <;> rfl
@[simp] theorem State.writeFlagged_sp (x : RegIdx) (result : State → Nat) (flag : State → Bool) : (s.writeFlagged x result flag).sp = s.sp := by
  unfold State.writeFlagged; split <;> rfl
@[simp] theorem State.writeFlagged_stack (x : RegIdx) (result : State → Nat) (flag : State → Bool) : (s.writeFlagged x result flag).stack = s.stack := by
  unfold State.writeFlagged; split <;> rfl
@[simp] theorem State.writeFlagged_dt (x : RegIdx) (result : State → Nat) (flag : State → Bool) : (s.writeFlagged x result flag).dt = s.dt := by
  unfold State.writeFlagged; split <;> rfl
@[simp] theorem State.writeFlagged_st (x : RegIdx) (result : State → Nat) (flag : State → Bool) : (s.writeFlagged x result flag).st = s.st := by
  unfold State.writeFlagged; split <;> rfl
@[simp] theorem State.writeFlagged_mem (x : RegIdx) (result : State → Nat) (flag : State → Bool) : (s.writeFlagged x result flag).mem = s.mem := by
  unfold State.writeFlagged; split <;> rfl
@[simp] theorem State.writeFlagged_fb (x : RegIdx) (result : State → Nat) (flag : State → Bool) : (s.writeFlagged x result flag).fb = s.fb := by
  unfold State.writeFlagged; split <;> rfl
@[simp] theorem State.writeFlagged_dirty (x : RegIdx) (result : State → Nat) (flag : State → Bool) : (s.writeFlagged x result flag).dirty = s.dirty := by
  unfold State.writeFlagged; split <;> rfl
@[simp] theorem State.writeFlagged_down (x : RegIdx) (result : State → Nat) (flag : State → Bool) : (s.writeFlagged x result flag).down = s.down := by
  unfold State.writeFlagged; split <;> rfl
@[simp] theorem State.writeFlagged_pressedEdge (x : RegIdx) (result : State → Nat) (flag : State → Bool) : (s.writeFlagged x result flag).pressedEdge = s.pressedEdge := by
  unfold State.writeFlagged; split <;> rfl
@[simp] theorem State.writeFlagged_releasedEdge (x : RegIdx) (result : State → Nat) (flag : State → Bool) : (s.writeFlagged x result flag).releasedEdge = s.releasedEdge := by
  unfold State.writeFlagged; split <;> rfl
@[simp] theorem State.writeFlagged_kCpu (x : RegIdx) (result : State → Nat) (flag : State → Bool) : (s.writeFlagged x result flag).kCpu = s.kCpu := by
  unfold State.writeFlagged; split <;> rfl
@[simp] theorem State.writeFlagged_kTimer (x : RegIdx) (result : State → Nat) (flag : State → Bool) : (s.writeFlagged x result flag).kTimer = s.kTimer := by
  unfold State.writeFlagged; split <;> rfl
@[simp] theorem State.writeFlagged_kFrame (x : RegIdx) (result : State → Nat) (flag : State → Bool) : (s.writeFlagged x result flag).kFrame = s.kFrame := by
  unfold State.writeFlagged; split <;> rfl
@[simp] theorem State.writeFlagged_t0 (x : RegIdx) (result : State → Nat) (flag : State → Bool) : (s.writeFlagged x result flag).t0 = s.t0 := by
  unfold State.writeFlagged; split <;> rfl
@[simp] theorem State.writeFlagged_lastNow (x : RegIdx) (result : State → Nat) (flag : State → Bool) : (s.writeFlagged x result flag).lastNow = s.lastNow := by
  unfold State.writeFlagged; split <;> rfl
@[simp] theorem State.writeFlagged_fault (x : RegIdx) (result : State → Nat) (flag : State → Bool) : (s.writeFlagged x result flag).fault = s.fault := by
  unfold State.writeFlagged; split <;> rfl
@[simp] theorem State.writeFlagged_cfg (x : RegIdx) (result : State → Nat) (flag : State → Bool) : (s.writeFlagged x result flag).cfg = s.cfg := by
  unfold State.writeFlagged; split <;> rfl
@[simp] theorem State.writeFlagged_hostInputs (x : RegIdx) (result : State → Nat) (flag : State → Bool) : (s.writeFlagged x result flag).hostInputs = s.hostInputs := by
  unfold State.writeFlagged; split <;> rfl
@[simp] theorem State.writeFlagged_draws (x : RegIdx) (result : State → Nat) (flag : State → Bool) : (s.writeFlagged x result flag).draws = s.draws := by
  unfold State.writeFlagged; split <;> rfl
@[simp] theorem State.writeFlagged_hostBytes (x : RegIdx) (result : State → Nat) (flag : State → Bool) : (s.writeFlagged x result flag).hostBytes = s.hostBytes := by
  unfold State.writeFlagged; split <;> rfl
@[simp] theorem State.writeFlagged_repaint (x : RegIdx) (result : State → Nat) (flag : State → Bool) : (s.writeFlagged x result flag).repaint = s.repaint := by
  unfold State.writeFlagged; split <;> rfl
@[simp] theorem State.writeFlagged_pc (x : RegIdx) (result : State → Nat) (flag : State → Bool) : (s.writeFlagged x result flag).pc = s.pc := by
  unfold State.writeFlagged; split <;> rfl
@[simp] theorem State.writeFlagged_index (x : RegIdx) (result : State → Nat) (flag : State → Bool) : (s.writeFlagged x result flag).index = s.index := by
  unfold State.writeFlagged; split <;> rfl
@[simp] theorem State.writeFlagged_ia (x : RegIdx) (result : State → Nat) (flag : State → Bool) : (s.writeFlagged x result flag).ia = s.ia := by
  unfold State.writeFlagged; split <;> rfl
@[simp] theorem State.writeFlagged_stackAt (x : RegIdx) (result : State → Nat) (flag : State → Bool) (entry : Nat) : (s.writeFlagged x result flag).stackAt entry = s.stackAt entry := by
  unfold State.writeFlagged; split <;> rfl
@[simp] theorem State.writeFlagged_pixel (x : RegIdx) (result : State → Nat) (flag : State → Bool) (px py : Nat) : (s.writeFlagged x result flag).pixel px py = s.pixel px py := by
  unfold State.writeFlagged; split <;> rfl
@[simp] theorem State.writeFlagged_byteAt (x : RegIdx) (result : State → Nat) (flag : State → Bool) (addr : Nat) : (s.writeFlagged x result flag).byteAt addr = s.byteAt addr := by
  unfold State.writeFlagged; split <;> rfl

/-! ### timerPhase -/

@[simp] theorem timerPhase_v (now : Nat) : (timerPhase now s).v = s.v := by
  unfold timerPhase; split <;> simp
@[simp] theorem timerPhase_pcBits (now : Nat) : (timerPhase now s).pcBits = s.pcBits := by
  unfold timerPhase; split <;> simp
@[simp] theorem timerPhase_indexBits (now : Nat) : (timerPhase now s).indexBits = s.indexBits := by
  unfold timerPhase; split <;> simp
@[simp] theorem timerPhase_sp (now : Nat) : (timerPhase now s).sp = s.sp := by
  unfold timerPhase; split <;> simp
@[simp] theorem timerPhase_stack (now : Nat) : (timerPhase now s).stack = s.stack := by
  unfold timerPhase; split <;> simp
theorem timerPhase_dt (now : Nat) :
    (timerPhase now s).dt = if due s.cfg.timerHz s.kTimer s.t0 now then decayed s.dt else s.dt := by
  unfold timerPhase; split
  · rfl
  · rfl
theorem timerPhase_st (now : Nat) :
    (timerPhase now s).st = if due s.cfg.timerHz s.kTimer s.t0 now then decayed s.st else s.st := by
  unfold timerPhase; split
  · rfl
  · rfl
@[simp] theorem timerPhase_mem (now : Nat) : (timerPhase now s).mem = s.mem := by
  unfold timerPhase; split <;> simp
@[simp] theorem timerPhase_fb (now : Nat) : (timerPhase now s).fb = s.fb := by
  unfold timerPhase; split <;> simp
@[simp] theorem timerPhase_dirty (now : Nat) : (timerPhase now s).dirty = s.dirty := by
  unfold timerPhase; split <;> simp
@[simp] theorem timerPhase_down (now : Nat) : (timerPhase now s).down = s.down := by
  unfold timerPhase; split <;> simp
@[simp] theorem timerPhase_pressedEdge (now : Nat) : (timerPhase now s).pressedEdge = s.pressedEdge := by
  unfold timerPhase; split <;> simp
@[simp] theorem timerPhase_releasedEdge (now : Nat) : (timerPhase now s).releasedEdge = s.releasedEdge := by
  unfold timerPhase; split <;> simp
@[simp] theorem timerPhase_kCpu (now : Nat) : (timerPhase now s).kCpu = s.kCpu := by
  unfold timerPhase; split <;> simp
theorem timerPhase_kTimer (now : Nat) :
    (timerPhase now s).kTimer = if due s.cfg.timerHz s.kTimer s.t0 now then s.kTimer + 1 else s.kTimer := by
  unfold timerPhase; split
  · rfl
  · rfl
@[simp] theorem timerPhase_kFrame (now : Nat) : (timerPhase now s).kFrame = s.kFrame := by
  unfold timerPhase; split <;> simp
@[simp] theorem timerPhase_t0 (now : Nat) : (timerPhase now s).t0 = s.t0 := by
  unfold timerPhase; split <;> simp
@[simp] theorem timerPhase_lastNow (now : Nat) : (timerPhase now s).lastNow = s.lastNow := by
  unfold timerPhase; split <;> simp
@[simp] theorem timerPhase_fault (now : Nat) : (timerPhase now s).fault = s.fault := by
  unfold timerPhase; split <;> simp
@[simp] theorem timerPhase_cfg (now : Nat) : (timerPhase now s).cfg = s.cfg := by
  unfold timerPhase; split <;> simp
@[simp] theorem timerPhase_hostInputs (now : Nat) : (timerPhase now s).hostInputs = s.hostInputs := by
  unfold timerPhase; split <;> simp
@[simp] theorem timerPhase_draws (now : Nat) : (timerPhase now s).draws = s.draws := by
  unfold timerPhase; split <;> simp
@[simp] theorem timerPhase_hostBytes (now : Nat) : (timerPhase now s).hostBytes = s.hostBytes := by
  unfold timerPhase; split <;> simp
@[simp] theorem timerPhase_repaint (now : Nat) : (timerPhase now s).repaint = s.repaint := by
  unfold timerPhase; split <;> simp
@[simp] theorem timerPhase_pc (now : Nat) : (timerPhase now s).pc = s.pc := by
  unfold timerPhase; split <;> simp
@[simp] theorem timerPhase_index (now : Nat) : (timerPhase now s).index = s.index := by
  unfold timerPhase; split <;> simp
@[simp] theorem timerPhase_ia (now : Nat) : (timerPhase now s).ia = s.ia := by
  unfold timerPhase; split <;> simp
@[simp] theorem timerPhase_reg (now : Nat) (r : Nat) : (timerPhase now s).reg r = s.reg r := by
  unfold timerPhase; split <;> simp
@[simp] theorem timerPhase_regByte (now : Nat) (r : Nat) : (timerPhase now s).regByte r = s.regByte r := by
  unfold timerPhase; split <;> simp
@[simp] theorem timerPhase_stackAt (now : Nat) (entry : Nat) : (timerPhase now s).stackAt entry = s.stackAt entry := by
  unfold timerPhase; split <;> simp
@[simp] theorem timerPhase_pixel (now : Nat) (px py : Nat) : (timerPhase now s).pixel px py = s.pixel px py := by
  unfold timerPhase; split <;> simp
@[simp] theorem timerPhase_byteAt (now : Nat) (addr : Nat) : (timerPhase now s).byteAt addr = s.byteAt addr := by
  unfold timerPhase; split <;> simp

/-! ### framePhase -/

@[simp] theorem framePhase_v (now : Nat) : (framePhase now s).v = s.v := by
  unfold framePhase; split <;> simp
@[simp] theorem framePhase_pcBits (now : Nat) : (framePhase now s).pcBits = s.pcBits := by
  unfold framePhase; split <;> simp
@[simp] theorem framePhase_indexBits (now : Nat) : (framePhase now s).indexBits = s.indexBits := by
  unfold framePhase; split <;> simp
@[simp] theorem framePhase_sp (now : Nat) : (framePhase now s).sp = s.sp := by
  unfold framePhase; split <;> simp
@[simp] theorem framePhase_stack (now : Nat) : (framePhase now s).stack = s.stack := by
  unfold framePhase; split <;> simp
@[simp] theorem framePhase_dt (now : Nat) : (framePhase now s).dt = s.dt := by
  unfold framePhase; split <;> simp
@[simp] theorem framePhase_st (now : Nat) : (framePhase now s).st = s.st := by
  unfold framePhase; split <;> simp
@[simp] theorem framePhase_mem (now : Nat) : (framePhase now s).mem = s.mem := by
  unfold framePhase; split <;> simp
@[simp] theorem framePhase_fb (now : Nat) : (framePhase now s).fb = s.fb := by
  unfold framePhase; split <;> simp
theorem framePhase_dirty (now : Nat) :
    (framePhase now s).dirty = if due s.cfg.frameHz s.kFrame s.t0 now then false else s.dirty := by
  unfold framePhase; split
  · simp only [State.countFrame_dirty, State.frameAction]; cases h : s.dirty <;> simp [h]
  · rfl
@[simp] theorem framePhase_down (now : Nat) : (framePhase now s).down = s.down := by
  unfold framePhase; split <;> simp
@[simp] theorem framePhase_pressedEdge (now : Nat) : (framePhase now s).pressedEdge = s.pressedEdge := by
  unfold framePhase; split <;> simp
@[simp] theorem framePhase_releasedEdge (now : Nat) : (framePhase now s).releasedEdge = s.releasedEdge := by
  unfold framePhase; split <;> simp
@[simp] theorem framePhase_kCpu (now : Nat) : (framePhase now s).kCpu = s.kCpu := by
  unfold framePhase; split <;> simp
@[simp] theorem framePhase_kTimer (now : Nat) : (framePhase now s).kTimer = s.kTimer := by
  unfold framePhase; split <;> simp
theorem framePhase_kFrame (now : Nat) :
    (framePhase now s).kFrame = if due s.cfg.frameHz s.kFrame s.t0 now then s.kFrame + 1 else s.kFrame := by
  unfold framePhase; split
  · simp
  · rfl
@[simp] theorem framePhase_t0 (now : Nat) : (framePhase now s).t0 = s.t0 := by
  unfold framePhase; split <;> simp
@[simp] theorem framePhase_lastNow (now : Nat) : (framePhase now s).lastNow = s.lastNow := by
  unfold framePhase; split <;> simp
@[simp] theorem framePhase_fault (now : Nat) : (framePhase now s).fault = s.fault := by
  unfold framePhase; split <;> simp
@[simp] theorem framePhase_cfg (now : Nat) : (framePhase now s).cfg = s.cfg := by
  unfold framePhase; split <;> simp
@[simp] theorem framePhase_hostInputs (now : Nat) : (framePhase now s).hostInputs = s.hostInputs := by
  unfold framePhase; split <;> simp
@[simp] theorem framePhase_draws (now : Nat) : (framePhase now s).draws = s.draws := by
  unfold framePhase; split <;> simp
@[simp] theorem framePhase_hostBytes (now : Nat) : (framePhase now s).hostBytes = s.hostBytes := by
  unfold framePhase; split <;> simp
theorem framePhase_repaint (now : Nat) :
    (framePhase now s).repaint = if due s.cfg.frameHz s.kFrame s.t0 now then (if s.dirty then some s.fb else s.repaint) else s.repaint := by
  unfold framePhase; split
  · simp only [State.countFrame_repaint, State.frameAction]; cases s.dirty <;> simp
  · rfl
@[simp] theorem framePhase_pc (now : Nat) : (framePhase now s).pc = s.pc := by
  unfold framePhase; split <;> simp
@[simp] theorem framePhase_index (now : Nat) : (framePhase now s).index = s.index := by
  unfold framePhase; split <;> simp
@[simp] theorem framePhase_ia (now : Nat) : (framePhase now s).ia = s.ia := by
  unfold framePhase; split <;> simp
@[simp] theorem framePhase_reg (now : Nat) (r : Nat) : (framePhase now s).reg r = s.reg r := by
  unfold framePhase; split <;> simp
@[simp] theorem framePhase_regByte (now : Nat) (r : Nat) : (framePhase now s).regByte r = s.regByte r := by
  unfold framePhase; split <;> simp
@[simp] theorem framePhase_stackAt (now : Nat) (entry : Nat) : (framePhase now s).stackAt entry = s.stackAt entry := by
  unfold framePhase; split <;> simp
@[simp] theorem framePhase_pixel (now : Nat) (px py : Nat) : (framePhase now s).pixel px py = s.pixel px py := by
  unfold framePhase; split <;> simp
@[simp] theorem framePhase_byteAt (now : Nat) (addr : Nat) : (framePhase now s).byteAt addr = s.byteAt addr := by
  unfold framePhase; split <;> simp

end Sys2Proof.Machine
end

