-- ==== Sys2Proof/Laws/Ops.lean ====
section
/-! SUPPORT. What each shared operation over memory, registers, flags and the stack does, said once. -/

namespace Sys2Proof.Machine

/-! ## Memory -/

/-- A read at an erased address finds the reset content; elsewhere nothing changed. -/
theorem Memory.read_erase (m : Memory) (a k : Nat) :
    (m.erase a).read k = if k = a then initialByte a else m.read k := by
  induction m with
  | nil =>
    by_cases h : k = a
    · simp [Memory.erase, Memory.read, h]
    · simp [Memory.erase, Memory.read, h]
  | cons c m ih =>
    obtain ⟨c1, c2⟩ := c
    by_cases hc : c1 = a
    · subst hc
      by_cases hk : k = c1
      · subst hk; simp [Memory.erase, ih]
      · simp [Memory.erase, Memory.read, ih, hk, Ne.symm hk]
    · by_cases hk : c1 = k
      · subst hk; simp [Memory.erase, Memory.read, hc]
      · simp [Memory.erase, Memory.read, hc, hk, ih]

/-- A read at an inserted address finds the byte; elsewhere nothing changed. -/
theorem Memory.read_insert (m : Memory) (a k : Nat) (b : Byte) :
    (m.insert a b).read k = if k = a then b else m.read k := by
  induction m with
  | nil => simp [Memory.insert, Memory.read, eq_comm]
  | cons c m ih =>
    obtain ⟨c1, c2⟩ := c
    unfold Memory.insert
    split
    · by_cases hk : k = a
      · simp [Memory.read, hk]
      · simp [Memory.read, hk, Ne.symm hk]
    · split
      · rename_i h; subst h
        by_cases hk : k = a
        · simp [Memory.read, hk]
        · simp [Memory.read, hk, Ne.symm hk]
      · by_cases hk : c1 = k
        · subst hk; simp [Memory.read, Ne.symm ‹a ≠ c1›]
        · simp [Memory.read, hk, ih]

/-- A read after a write: the byte written at its address, what was there at any other (R60, R61). -/
theorem Memory.read_write (m : Memory) (a k : Nat) (b : Byte) :
    (m.write a b).read k = if k = a then b else m.read k := by
  unfold Memory.write
  split
  · rename_i h; rw [Memory.read_erase, h]
  · exact Memory.read_insert m a k b

/-- A lower bound may be lowered. -/
theorem Memory.wfFrom_mono {size lo lo' : Nat} {m : Memory} (h : lo ≤ lo') (hm : Memory.wfFrom size lo' m = true) :
    Memory.wfFrom size lo m = true := by
  cases m with
  | nil => rfl
  | cons c m =>
    obtain ⟨k, b⟩ := c
    simp only [Memory.wfFrom, Bool.and_eq_true, decide_eq_true_eq] at hm ⊢
    exact ⟨⟨⟨h.trans hm.1.1.1, hm.1.1.2⟩, hm.1.2⟩, hm.2⟩

/-- Erasing keeps the form, from any lower bound. -/
theorem Memory.wfFrom_erase {size lo : Nat} {m : Memory} (a : Nat) (h : Memory.wfFrom size lo m = true) :
    Memory.wfFrom size lo (m.erase a) = true := by
  induction m generalizing lo with
  | nil => exact h
  | cons c m ih =>
    obtain ⟨k, b⟩ := c
    simp only [Memory.wfFrom, Bool.and_eq_true, decide_eq_true_eq] at h
    obtain ⟨⟨⟨h1, h2⟩, h3⟩, h4⟩ := h
    unfold Memory.erase
    split
    · exact Memory.wfFrom_mono (Nat.le_succ_of_le h1) (ih h4)
    · simp [Memory.wfFrom, h1, h2, h3, ih h4]

/-- Inserting a byte that differs from the reset content, at an address in range, keeps the form. -/
theorem Memory.wfFrom_insert {size lo a : Nat} {b : Byte} {m : Memory} (hlo : lo ≤ a) (ha : a < size)
    (hb : b ≠ initialByte a) (h : Memory.wfFrom size lo m = true) : Memory.wfFrom size lo (m.insert a b) = true := by
  induction m generalizing lo with
  | nil => simp [Memory.insert, Memory.wfFrom, hlo, ha, hb]
  | cons c m ih =>
    obtain ⟨k, c⟩ := c
    simp only [Memory.wfFrom, Bool.and_eq_true, decide_eq_true_eq] at h
    obtain ⟨⟨⟨h1, h2⟩, h3⟩, h4⟩ := h
    unfold Memory.insert
    split
    · rename_i hlt
      simp [Memory.wfFrom, hlo, ha, hb, h2, h3, h4, Nat.succ_le_of_lt hlt]
    · split
      · rename_i heq; subst heq
        simp [Memory.wfFrom, hlo, ha, hb, h4]
      · have hk : k + 1 ≤ a := by omega
        simp [Memory.wfFrom, h1, h2, h3, ih hk h4]

/-- A write in range keeps the canonical form. -/
theorem Memory.wf_write {size : Nat} {m : Memory} {a : Nat} (b : Byte) (ha : a < size) (h : m.wf size = true) :
    (m.write a b).wf size = true := by
  unfold Memory.write
  split
  · exact Memory.wfFrom_erase a h
  · exact Memory.wfFrom_insert (Nat.zero_le a) ha ‹_› h

/-- A list of writes in range keeps the canonical form. -/
theorem Memory.wf_writeAll {size : Nat} {m : Memory} {a : Nat} {bs : List Byte} (ha : a + bs.length ≤ size)
    (h : m.wf size = true) : (m.writeAll a bs).wf size = true := by
  induction bs generalizing m a with
  | nil => exact h
  | cons b bs ih =>
    rw [List.length_cons] at ha
    exact ih (by omega) (Memory.wf_write b (by omega) h)

/-- A read after a list of writes: the list's byte at an address it covers, what was there at any other. -/
theorem Memory.read_writeAll (m : Memory) (a k : Nat) (bs : List Byte) :
    (m.writeAll a bs).read k = if a ≤ k ∧ k < a + bs.length then bs.getD (k - a) 0 else m.read k := by
  induction bs generalizing m a with
  | nil => simp [Memory.writeAll]
  | cons b bs ih =>
    rw [Memory.writeAll, ih, Memory.read_write]
    by_cases h : a + 1 ≤ k ∧ k < a + 1 + bs.length
    · rw [if_pos h, if_pos (by simp; omega), show k - a = (k - (a + 1)) + 1 by omega]; simp
    · rw [if_neg h]
      by_cases hk : k = a
      · subst hk; simp
      · rw [if_neg hk, if_neg (by simp; omega)]

/-- Memory with nothing listed, as it is at reset, is in canonical form. -/
theorem Memory.wf_nil (size : Nat) : Memory.wf [] size = true := rfl

theorem reset_mem_wf : State.reset.mem.wf State.reset.cfg.memSize = true := rfl

/-! ## Arrays -/

/-- A read after a write to an array: the value at its place, what was there at any other. -/
theorem getD_writeAt {α : Type} (d a : α) (l : List α) (n k : Nat) :
    (writeAt d l n a).getD k d = if k = n then a else l.getD k d := by
  induction n generalizing l k with
  | zero => cases l <;> cases k <;> simp [writeAt]
  | succ n ih =>
    cases l with
    | nil =>
      cases k with
      | zero => simp [writeAt]
      | succ k => simpa [writeAt] using ih [] k
    | cons b l =>
      cases k with
      | zero => simp [writeAt]
      | succ k => simpa [writeAt] using ih l k

/-- A write to an array at a place it has keeps its size. -/
theorem length_writeAt {α : Type} (d a : α) {l : List α} {n : Nat} (h : n < l.length) :
    (writeAt d l n a).length = l.length := by
  induction n generalizing l with
  | zero =>
    cases l with
    | nil => simp at h
    | cons b l => rfl
  | succ n ih =>
    cases l with
    | nil => simp at h
    | cons b l => simp only [writeAt, List.length_cons, ih (Nat.lt_of_succ_lt_succ h)]

/-- An entry of an array after a write at a place it has is the one written or was there before. -/
theorem mem_writeAt {α : Type} {d a b : α} {l : List α} {n : Nat} (h : n < l.length) (hb : b ∈ writeAt d l n a) :
    b = a ∨ b ∈ l := by
  induction n generalizing l with
  | zero =>
    cases l with
    | nil => simp at h
    | cons c l => simp only [writeAt, List.mem_cons] at hb ⊢; tauto
  | succ n ih =>
    cases l with
    | nil => simp at h
    | cons c l =>
      simp only [writeAt, List.mem_cons] at hb ⊢
      rcases hb with hb | hb
      · exact .inr (.inl hb)
      · rcases ih (Nat.lt_of_succ_lt_succ h) hb with hb | hb
        · exact .inl hb
        · exact .inr (.inr hb)

/-- An array of equal entries reads as that entry at every place, past its end too. -/
theorem getD_replicate_self {α : Type} (n k : Nat) (d : α) : (List.replicate n d).getD k d = d := by
  by_cases h : k < n <;> simp [h]

/-! ## Registers and flags -/

/-- A read after a write of a register: the value truncated to the register's width, what was there of any other (R9). -/
@[simp] theorem State.setReg_reg (s : State) (x r n : Nat) :
    (s.setReg x n).reg r = if r = x then n % 2 ^ s.cfg.regW else s.reg r := by
  simp only [State.reg, State.setReg, getD_writeAt]
  split
  · rw [Nat.mod_mod]
  · rfl

@[simp] theorem State.setPc_pc (s : State) (a : Nat) : (s.setPc a).pc = a % 2 ^ s.cfg.pcW := Nat.mod_mod ..

@[simp] theorem State.setIndex_index (s : State) (a : Nat) : (s.setIndex a).index = a % 2 ^ s.cfg.iW := Nat.mod_mod ..

@[simp] theorem State.setStack_stackAt (s : State) (j k a : Nat) :
    (s.setStack j a).stackAt k = if k = j then a % 2 ^ s.cfg.pcW else s.stackAt k := by
  simp only [State.stackAt, State.setStack, getD_writeAt]
  split
  · rw [Nat.mod_mod]
  · rfl

/-- A register's value has its width (R8), and so have `pc`, `I` and a stack entry. -/
theorem State.reg_lt (s : State) (x : Nat) : s.reg x < 2 ^ s.cfg.regW := Nat.mod_lt _ (Nat.two_pow_pos _)

theorem State.pc_lt (s : State) : s.pc < 2 ^ s.cfg.pcW := Nat.mod_lt _ (Nat.two_pow_pos _)

theorem State.index_lt (s : State) : s.index < 2 ^ s.cfg.iW := Nat.mod_lt _ (Nat.two_pow_pos _)

theorem State.stackAt_lt (s : State) (j : Nat) : s.stackAt j < 2 ^ s.cfg.pcW := Nat.mod_lt _ (Nat.two_pow_pos _)

@[simp] theorem State.reg_mod (s : State) (x : Nat) : s.reg x % 2 ^ s.cfg.regW = s.reg x := Nat.mod_mod ..

@[simp] theorem State.pc_mod (s : State) : s.pc % 2 ^ s.cfg.pcW = s.pc := Nat.mod_mod ..

@[simp] theorem State.index_mod (s : State) : s.index % 2 ^ s.cfg.iW = s.index := Nat.mod_mod ..

@[simp] theorem State.stackAt_mod (s : State) (j : Nat) : s.stackAt j % 2 ^ s.cfg.pcW = s.stackAt j := Nat.mod_mod ..

@[simp] theorem State.ia_mod (s : State) : s.ia % 2 ^ s.cfg.pcW = s.ia := Nat.mod_mod ..

/-- Past the advance of a tick, the address of the executing instruction is the `pc` it was fetched from (R78). -/
theorem State.ia_setPc_add_two (s : State) : (s.setPc (s.pc + 2)).ia = s.pc := by
  have hlt := s.pc_lt
  rw [State.ia, State.setPc_pc, State.setPc_cfg]
  generalize s.pc = p at *
  rcases Nat.lt_or_ge s.cfg.pcW 1 with h | h
  · have h0 : s.cfg.pcW = 0 := by omega
    rw [h0] at hlt ⊢; omega
  · have h2 : 2 ≤ 2 ^ s.cfg.pcW := Nat.le_self_pow (by omega) 2
    generalize 2 ^ s.cfg.pcW = M at *
    rcases Nat.lt_or_ge (p + 2) M with h3 | h3
    · rw [Nat.mod_eq_of_lt h3, show p + 2 + M - 2 = p + M by omega, Nat.add_mod_right, Nat.mod_eq_of_lt hlt]
    · rw [Nat.mod_eq_sub_mod h3, Nat.mod_eq_of_lt (show p + 2 - M < M by omega), show p + 2 - M + M - 2 = p by omega,
        Nat.mod_eq_of_lt hlt]

/-- Everything `writeFlagged` does (R106): under either order VF and V[x] alone change. -/
theorem State.writeFlagged_cases (s : State) (x : RegIdx) (result : State → Nat) (flag : State → Bool) :
    (s.cfg.vfOrder = .flagLast ∧
      s.writeFlagged x result flag = (s.setReg x (result s)).setReg s.cfg.flagReg (flag s).toNat) ∨
    (s.cfg.vfOrder = .textOrder ∧
      s.writeFlagged x result flag =
        (s.setReg s.cfg.flagReg (flag s).toNat).setReg x (result (s.setReg s.cfg.flagReg (flag s).toNat))) := by
  unfold State.writeFlagged
  cases h : s.cfg.vfOrder with
  | flagLast => exact .inl ⟨rfl, rfl⟩
  | textOrder => exact .inr ⟨rfl, rfl⟩

/-- What `finish` answers with. -/
theorem finish_next {o : Except Fault State} {t : State} (h : finish o = .next t) : o = .ok t := by
  cases o with
  | ok s => cases h; rfl
  | error f => cases h

/-- What `finish` faults with. -/
theorem finish_fault {o : Except Fault State} {f : Fault} (h : finish o = .fault f) : o = .error f := by
  cases o with
  | ok s => cases h
  | error g => cases h; rfl

/-- `finish` never refuses. -/
theorem finish_not_refused (o : Except Fault State) (r : Refusal) : finish o ≠ .refused r := by
  cases o <;> intro h <;> cases h

/-! ## The call stack -/

/-- Everything a push does (R28). -/
theorem State.push_ok {s t : State} (h : s.push = .ok t) :
    s.sp < s.cfg.stackDepth ∧ t = (s.setStack s.sp s.pc).setSp (s.sp + 1) := by
  unfold State.push at h
  split at h
  · exact ⟨‹_›, (Except.ok.inj h).symm⟩
  · cases h

/-- A push completes where an entry is free (R28). -/
theorem State.push_of_free {s : State} (h : s.sp < s.cfg.stackDepth) :
    s.push = .ok ((s.setStack s.sp s.pc).setSp (s.sp + 1)) := if_pos h

/-- A push on a full stack faults (R92). -/
theorem State.push_of_full {s : State} (h : s.cfg.stackDepth ≤ s.sp) : s.push = .error (.stackOverflow s.ia none) :=
  if_neg (Nat.not_lt.mpr h)

/-- Everything a pop does (R28). -/
theorem State.pop_ok {s t : State} (h : s.pop = .ok t) :
    ∃ n, s.sp = n + 1 ∧ t = (s.setSp n).setPc (s.stackAt n) := by
  unfold State.pop at h
  split at h
  · cases h
  · exact ⟨_, ‹_›, (Except.ok.inj h).symm⟩

/-- A pop completes where an entry is in use (R28). -/
theorem State.pop_of_used {s : State} {n : Nat} (h : s.sp = n + 1) :
    s.pop = .ok ((s.setSp n).setPc (s.stackAt n)) := by
  rw [State.pop, h]

/-- A pop of an empty stack faults (R90). -/
theorem State.pop_of_empty {s : State} (h : s.sp = 0) : s.pop = .error (.stackUnderflow s.ia none) := by
  rw [State.pop, h]

/-! ## Accesses -/

/-- An access in range reaches its own address (R57). -/
theorem State.resolve_inRange (s : State) (kind : AccessKind) (ia : Nat) {a : Nat} (ha : a < s.cfg.memSize) :
    s.resolve kind ia a = .ok a := if_pos ha

/-- What an access that answers has reached (R57). -/
theorem State.resolve_ok {s : State} {kind : AccessKind} {ia a k : Nat} (h : s.resolve kind ia a = .ok k) :
    (a < s.cfg.memSize ∨ s.cfg.oobPolicy = .wrap) ∧ k = a % s.cfg.memSize := by
  unfold State.resolve at h
  split at h
  · rename_i ha
    cases h; exact ⟨.inl ha, (Nat.mod_eq_of_lt ha).symm⟩
  · split at h
    · cases h
    · cases h; exact ⟨.inr ‹_›, rfl⟩

/-- What an access that faults has raised (R57). -/
theorem State.resolve_error {s : State} {kind : AccessKind} {ia a : Nat} {f : Fault}
    (h : s.resolve kind ia a = .error f) :
    s.cfg.memSize ≤ a ∧ s.cfg.oobPolicy = .fault ∧ f = .memOutOfRange kind a ia none := by
  unfold State.resolve at h
  split at h
  · cases h
  · split at h
    · cases h; exact ⟨by omega, ‹_›, rfl⟩
    · cases h

/-- Everything a write does when it answers (R57). -/
theorem State.memWrite_ok {s t : State} {a : Nat} {b : Byte} (h : s.memWrite a b = .ok t) :
    (a < s.cfg.memSize ∨ s.cfg.oobPolicy = .wrap) ∧ t = s.setByte (a % s.cfg.memSize) b := by
  unfold State.memWrite at h
  split at h
  · rename_i k hk
    obtain ⟨h1, rfl⟩ := State.resolve_ok hk
    exact ⟨h1, (Except.ok.inj h).symm⟩
  · cases h

/-- Everything a read does when it answers (R57). -/
theorem State.memRead_ok {s : State} {kind : AccessKind} {ia a : Nat} {b : Byte}
    (h : s.memRead kind ia a = .ok b) :
    (a < s.cfg.memSize ∨ s.cfg.oobPolicy = .wrap) ∧ b = s.byteAt (a % s.cfg.memSize) := by
  unfold State.memRead at h
  split at h
  · rename_i k hk
    obtain ⟨h1, rfl⟩ := State.resolve_ok hk
    exact ⟨h1, (Except.ok.inj h).symm⟩
  · cases h

/-- What a read that faults has raised (R57). -/
theorem State.memRead_error {s : State} {kind : AccessKind} {ia a : Nat} {f : Fault}
    (h : s.memRead kind ia a = .error f) :
    s.cfg.memSize ≤ a ∧ s.cfg.oobPolicy = .fault ∧ f = .memOutOfRange kind a ia none := by
  unfold State.memRead at h
  split at h
  · cases h
  · cases h; exact State.resolve_error ‹_›

/-- What a write that faults has raised (R57). -/
theorem State.memWrite_error {s : State} {a : Nat} {b : Byte} {f : Fault} (h : s.memWrite a b = .error f) :
    s.cfg.memSize ≤ a ∧ s.cfg.oobPolicy = .fault ∧ f = .memOutOfRange .write a s.ia none := by
  unfold State.memWrite at h
  split at h
  · cases h
  · cases h; exact State.resolve_error ‹_›

/-- What an access answers depends on the state's memory and parameters alone. -/
theorem State.memRead_congr {s t : State} (hm : t.mem = s.mem) (hc : t.cfg = s.cfg) (kind : AccessKind) (ia a : Nat) :
    t.memRead kind ia a = s.memRead kind ia a := by
  unfold State.memRead State.resolve State.byteAt; rw [hm, hc]

/-- What the fetch answers depends on `pc`, memory and the parameters alone (R76). -/
theorem State.fetch_congr {s t : State} (hp : t.pc = s.pc) (hm : t.mem = s.mem) (hc : t.cfg = s.cfg) :
    t.fetch = s.fetch := by
  unfold State.fetch; rw [hp]; simp only [State.memRead_congr hm hc]

/-- The two bytes the fetch answers with (R53, R76). -/
theorem State.fetch_ok {s : State} {w : Word} (h : s.fetch = .ok w) :
    w = wordOfBytes (s.byteAt (s.pc % s.cfg.memSize)) (s.byteAt ((s.pc + 1) % s.cfg.memSize)) := by
  unfold State.fetch at h
  split at h
  · cases h
  · rename_i hi hhi
    split at h
    · cases h
    · rename_i lo hlo
      cases h
      rw [(State.memRead_ok hhi).2, (State.memRead_ok hlo).2]

@[simp] theorem State.setByte_byteAt (s : State) (a k : Nat) (b : Byte) :
    (s.setByte a b).byteAt k = if k = a then b else s.byteAt k := Memory.read_write s.mem a k b

/-! ## Framebuffer -/

@[simp] theorem State.togglePixel_pixel (s : State) (x px y py : Nat) :
    (s.togglePixel x y).pixel px py = if px = x ∧ py = y then !s.pixel x y else s.pixel px py := by
  unfold State.pixel Framebuffer.pixel State.togglePixel
  rw [getD_writeAt]
  by_cases hy : py = y
  · subst hy
    rw [if_pos rfl, getD_writeAt]
    by_cases hx : px = x <;> simp [hx, State.pixel, Framebuffer.pixel]
  · simp [hy]

@[simp] theorem State.clearFrame_pixel (s : State) (px py : Nat) : s.clearFrame.pixel px py = false := by
  unfold State.pixel Framebuffer.pixel State.clearFrame
  by_cases h : py < s.cfg.fbHeight <;> simp [h]

end Sys2Proof.Machine
end

