-- ==== Sys2Proof/Laws/PerInstr.lean ====
section
/-! SUPPORT. Statements made per instruction. Family `TableRow`: the word an instruction encodes to has the `match` value
of its row of spec/opcode_table.json under that row's `mask`. -/

namespace Sys2Proof.Laws

/-- The `mask` of the instruction's row (30_encoding.md R69, at the default `GROUP0_KEY`). -/
def rowMask : Instr → Word
  | .clearScreen => 0xF0FF
  | .ret => 0xF0FF
  | .jump _ => 0xF000
  | .call _ => 0xF000
  | .skipEqImm _ _ => 0xF000
  | .skipNeqImm _ _ => 0xF000
  | .skipEqReg _ _ => 0xF000
  | .setImm _ _ => 0xF000
  | .addImm _ _ => 0xF000
  | .setReg _ _ => 0xF00F
  | .orReg _ _ => 0xF00F
  | .andReg _ _ => 0xF00F
  | .xorReg _ _ => 0xF00F
  | .addReg _ _ => 0xF00F
  | .subReg _ _ => 0xF00F
  | .shiftRight _ _ => 0xF00F
  | .subRegReversed _ _ => 0xF00F
  | .shiftLeft _ _ => 0xF00F
  | .skipNeqReg _ _ => 0xF000
  | .setIndex _ => 0xF000
  | .jumpOffset _ _ => 0xF000
  | .random _ _ => 0xF000
  | .draw _ _ _ => 0xF000
  | .skipIfKeyDown _ => 0xF0FF
  | .skipIfKeyUp _ => 0xF0FF
  | .getDelay _ => 0xF0FF
  | .waitKey _ => 0xF0FF
  | .setDelay _ => 0xF0FF
  | .setSound _ => 0xF0FF
  | .addIndex _ => 0xF0FF
  | .fontChar _ => 0xF0FF
  | .bcd _ => 0xF0FF
  | .storeRegs _ => 0xF0FF
  | .loadRegs _ => 0xF0FF

/-- The `match` value of the instruction's row (R69). -/
def rowMatch : Instr → Word
  | .clearScreen => 0x00E0
  | .ret => 0x00EE
  | .jump _ => 0x1000
  | .call _ => 0x2000
  | .skipEqImm _ _ => 0x3000
  | .skipNeqImm _ _ => 0x4000
  | .skipEqReg _ _ => 0x5000
  | .setImm _ _ => 0x6000
  | .addImm _ _ => 0x7000
  | .setReg _ _ => 0x8000
  | .orReg _ _ => 0x8001
  | .andReg _ _ => 0x8002
  | .xorReg _ _ => 0x8003
  | .addReg _ _ => 0x8004
  | .subReg _ _ => 0x8005
  | .shiftRight _ _ => 0x8006
  | .subRegReversed _ _ => 0x8007
  | .shiftLeft _ _ => 0x800E
  | .skipNeqReg _ _ => 0x9000
  | .setIndex _ => 0xA000
  | .jumpOffset _ _ => 0xB000
  | .random _ _ => 0xC000
  | .draw _ _ _ => 0xD000
  | .skipIfKeyDown _ => 0xE09E
  | .skipIfKeyUp _ => 0xE0A1
  | .getDelay _ => 0xF007
  | .waitKey _ => 0xF00A
  | .setDelay _ => 0xF015
  | .setSound _ => 0xF018
  | .addIndex _ => 0xF01E
  | .fontChar _ => 0xF029
  | .bcd _ => 0xF033
  | .storeRegs _ => 0xF055
  | .loadRegs _ => 0xF065

/-- The encoding falls under the instruction's row. -/
def TableRow.Statement (i : Instr) : Prop := encode i &&& rowMask i = rowMatch i

theorem TableRow.clearScreen : TableRow.Statement (.clearScreen) := rfl
theorem TableRow.ret : TableRow.Statement (.ret) := rfl
theorem TableRow.jump (a : BitVec 12) : TableRow.Statement (.jump a) := packA_and_maskG _ _
theorem TableRow.call (a : BitVec 12) : TableRow.Statement (.call a) := packA_and_maskG _ _
theorem TableRow.skipEqImm (a : RegIdx) (b : Byte) : TableRow.Statement (.skipEqImm a b) := packA_and_maskG _ _
theorem TableRow.skipNeqImm (a : RegIdx) (b : Byte) : TableRow.Statement (.skipNeqImm a b) := packA_and_maskG _ _
theorem TableRow.skipEqReg (a : RegIdx) (b : RegIdx) : TableRow.Statement (.skipEqReg a b) := packA_and_maskG _ _
theorem TableRow.setImm (a : RegIdx) (b : Byte) : TableRow.Statement (.setImm a b) := packA_and_maskG _ _
theorem TableRow.addImm (a : RegIdx) (b : Byte) : TableRow.Statement (.addImm a b) := packA_and_maskG _ _
theorem TableRow.setReg (a : RegIdx) (b : RegIdx) : TableRow.Statement (.setReg a b) := packXYN_and_maskGN _ _ _ _
theorem TableRow.orReg (a : RegIdx) (b : RegIdx) : TableRow.Statement (.orReg a b) := packXYN_and_maskGN _ _ _ _
theorem TableRow.andReg (a : RegIdx) (b : RegIdx) : TableRow.Statement (.andReg a b) := packXYN_and_maskGN _ _ _ _
theorem TableRow.xorReg (a : RegIdx) (b : RegIdx) : TableRow.Statement (.xorReg a b) := packXYN_and_maskGN _ _ _ _
theorem TableRow.addReg (a : RegIdx) (b : RegIdx) : TableRow.Statement (.addReg a b) := packXYN_and_maskGN _ _ _ _
theorem TableRow.subReg (a : RegIdx) (b : RegIdx) : TableRow.Statement (.subReg a b) := packXYN_and_maskGN _ _ _ _
theorem TableRow.shiftRight (a : RegIdx) (b : RegIdx) : TableRow.Statement (.shiftRight a b) := packXYN_and_maskGN _ _ _ _
theorem TableRow.subRegReversed (a : RegIdx) (b : RegIdx) : TableRow.Statement (.subRegReversed a b) := packXYN_and_maskGN _ _ _ _
theorem TableRow.shiftLeft (a : RegIdx) (b : RegIdx) : TableRow.Statement (.shiftLeft a b) := packXYN_and_maskGN _ _ _ _
theorem TableRow.skipNeqReg (a : RegIdx) (b : RegIdx) : TableRow.Statement (.skipNeqReg a b) := packA_and_maskG _ _
theorem TableRow.setIndex (a : BitVec 12) : TableRow.Statement (.setIndex a) := packA_and_maskG _ _
theorem TableRow.jumpOffset (a : BitVec 12) (b : RegIdx) : TableRow.Statement (.jumpOffset a b) := packA_and_maskG _ _
theorem TableRow.random (a : RegIdx) (b : Byte) : TableRow.Statement (.random a b) := packA_and_maskG _ _
theorem TableRow.draw (a : RegIdx) (b : RegIdx) (c : Fin 16) : TableRow.Statement (.draw a b c) := packA_and_maskG _ _
theorem TableRow.skipIfKeyDown (a : RegIdx) : TableRow.Statement (.skipIfKeyDown a) := packXK_and_maskGNN _ _ _
theorem TableRow.skipIfKeyUp (a : RegIdx) : TableRow.Statement (.skipIfKeyUp a) := packXK_and_maskGNN _ _ _
theorem TableRow.getDelay (a : RegIdx) : TableRow.Statement (.getDelay a) := packXK_and_maskGNN _ _ _
theorem TableRow.waitKey (a : RegIdx) : TableRow.Statement (.waitKey a) := packXK_and_maskGNN _ _ _
theorem TableRow.setDelay (a : RegIdx) : TableRow.Statement (.setDelay a) := packXK_and_maskGNN _ _ _
theorem TableRow.setSound (a : RegIdx) : TableRow.Statement (.setSound a) := packXK_and_maskGNN _ _ _
theorem TableRow.addIndex (a : RegIdx) : TableRow.Statement (.addIndex a) := packXK_and_maskGNN _ _ _
theorem TableRow.fontChar (a : RegIdx) : TableRow.Statement (.fontChar a) := packXK_and_maskGNN _ _ _
theorem TableRow.bcd (a : RegIdx) : TableRow.Statement (.bcd a) := packXK_and_maskGNN _ _ _
theorem TableRow.storeRegs (a : RegIdx) : TableRow.Statement (.storeRegs a) := packXK_and_maskGNN _ _ _
theorem TableRow.loadRegs (a : RegIdx) : TableRow.Statement (.loadRegs a) := packXK_and_maskGNN _ _ _

end Sys2Proof.Laws
end

