-- ==== Sys2Proof/Laws/Scheduler.lean ====
section
/-! SUPPORT. What a tick, a poll and a step can do, said once: if it answers a next state, then one of these cases holds. -/

namespace Sys2Proof.Machine

/-- What `mapNext` answers with. -/
theorem mapNext_next {g : State → State} {o : Host.Outcome State Fault Refusal} {t : State}
    (h : mapNext g o = .next t) : ∃ u, o = .next u ∧ t = g u := by
  cases o with
  | next u => cases h; exact ⟨u, rfl, rfl⟩
  | fault f => cases h
  | refused r => cases h

/-- Two continuations of an outcome are one. -/
theorem mapNext_mapNext (g f : State → State) (o : Host.Outcome State Fault Refusal) :
    mapNext g (mapNext f o) = mapNext (fun t => g (f t)) o := by cases o <;> rfl

/-- Everything a tick does when it answers (R75 to R79). -/
theorem tick_next {s t : State} (h : tick s = .next t) :
    ∃ w, s.fetch = .ok w ∧
      ((∃ i, decode s.cfg.group0Key w = .instr i ∧ registersPresent s.cfg i = true ∧ exec i s.advance = .next t) ∨
        ((∃ u, decode s.cfg.group0Key w = .unassigned u) ∧ t = s.advance)) := by
  unfold tick at h
  split at h
  · cases h
  · rename_i w hw
    refine ⟨w, hw, ?_⟩
    split at h
    · rename_i i hi
      split at h
      case isFalse => cases h
      refine .inl ⟨i, hi, ‹_›, ?_⟩
      cases he : exec i s.advance with
      | next t' => rw [he] at h; exact h
      | fault f => rw [he] at h; cases h
      | refused r => rw [he] at h; cases h
    · rename_i u hu
      cases h
      exact .inr ⟨⟨u, hu⟩, rfl⟩

/-- Everything the cycle action does when it answers (R151, R152). -/
theorem cycleAction_next {s t : State} (h : cycleAction s = .next t) : ∃ u, tick s = .next u ∧ t = u.endCycle := by
  obtain ⟨u, hu, rfl⟩ := mapNext_next h
  exact ⟨u, hu, rfl⟩

/-- A tick whose word decodes runs that instruction, if the block has its registers (R75 to R79). -/
theorem tick_of_instr {s : State} {w : Word} {i : Instr} (hw : s.fetch = .ok w)
    (hi : decode s.cfg.group0Key w = .instr i) (hr : registersPresent s.cfg i = true) :
    tick s = recordWord w (exec i s.advance) := by
  unfold tick; rw [hw]; simp only [hi, hr, if_true]

/-- A tick whose instruction names a register the block does not have is refused. -/
theorem tick_of_absent {s : State} {w : Word} {i : Instr} (hw : s.fetch = .ok w)
    (hi : decode s.cfg.group0Key w = .instr i) (hr : registersPresent s.cfg i = false) :
    tick s = .refused (.noSuchRegister i) := by
  unfold tick; rw [hw]; simp [hi, hr]

/-- A block of 16 registers or more has every register that an instruction can name (R5, R12). -/
theorem registersPresent_of_le {cfg : Params} (h : 16 ≤ cfg.nRegs) (i : Instr) : registersPresent cfg i = true :=
  List.all_eq_true.mpr fun r _ => decide_eq_true (r.isLt.trans_le h)

/-- A poll at a time that has not decreased (R151, R160). -/
theorem poll_of_le {now : Nat} {s : State} (h : s.lastNow ≤ now) :
    poll now s =
      mapNext (fun t => (framePhase now (timerPhase now t)).setLastNow now) (cpuPhase now s.clearRepaint) := by
  unfold poll; rw [if_neg (Nat.not_lt.mpr h)]

/-- The cpu clock's part of a poll (R151). -/
theorem cpuPhase_next {now : Nat} {s t : State} (h : cpuPhase now s = .next t) :
    (due s.cfg.cpuHz s.kCpu s.t0 now = true ∧ cycleAction s = .next t) ∨
      (due s.cfg.cpuHz s.kCpu s.t0 now = false ∧ t = s) := by
  unfold cpuPhase at h
  split at h
  · exact .inl ⟨‹_›, h⟩
  · cases h; exact .inr ⟨by simpa using ‹¬ due s.cfg.cpuHz s.kCpu s.t0 now = true›, rfl⟩

/-- Everything a poll does when it answers (R151). -/
theorem poll_next {now : Nat} {s t : State} (h : poll now s = .next t) :
    s.lastNow ≤ now ∧ ∃ u, cpuPhase now s.clearRepaint = .next u ∧
      t = (framePhase now (timerPhase now u)).setLastNow now := by
  unfold poll at h
  split at h
  · cases h
  · rename_i hn
    refine ⟨Nat.le_of_not_lt hn, ?_⟩
    obtain ⟨u, hu, rfl⟩ := mapNext_next h
    exact ⟨u, hu, rfl⟩

/-- The timer clock's part of a poll (R151, R153). -/
theorem timerPhase_cases (now : Nat) (s : State) :
    (due s.cfg.timerHz s.kTimer s.t0 now = true ∧
      timerPhase now s = s.decayTimers.countTimer) ∨
    (due s.cfg.timerHz s.kTimer s.t0 now = false ∧ timerPhase now s = s) := by
  unfold timerPhase
  split
  · exact .inl ⟨‹_›, rfl⟩
  · exact .inr ⟨by simpa using ‹¬ due s.cfg.timerHz s.kTimer s.t0 now = true›, rfl⟩

/-- The frame clock's part of a poll (R151, R154). -/
theorem framePhase_cases (now : Nat) (s : State) :
    (due s.cfg.frameHz s.kFrame s.t0 now = true ∧ s.dirty = true ∧
      framePhase now s = State.countFrame { s with repaint := some s.fb, dirty := false }) ∨
    (due s.cfg.frameHz s.kFrame s.t0 now = true ∧ s.dirty = false ∧
      framePhase now s = s.countFrame) ∨
    (due s.cfg.frameHz s.kFrame s.t0 now = false ∧ framePhase now s = s) := by
  unfold framePhase State.frameAction
  cases hd : due s.cfg.frameHz s.kFrame s.t0 now <;> cases hs : s.dirty <;> simp_all

/-- Everything a key event does when it answers (R161). -/
theorem keyEvent_next {event : State → Nat → State} {k : Nat} {s t : State} (h : keyEvent event k s = .next t) :
    k < s.cfg.nKeys ∧ t = event s.clearRepaint k := by
  unfold keyEvent at h
  split at h
  · cases h; exact ⟨‹_›, rfl⟩
  · cases h

/-- Everything a step does when it answers: an input of the host, oldest first, or the poll the model chooses when none is
waiting. -/
theorem step_next {s t : State} (h : step s = .next t) :
    s.fault = none ∧
      ((s.hostInputs = [] ∧ poll s.nextCpuTime s = .next t) ∨
        (∃ k rest, s.hostInputs = .press k :: rest ∧ k < s.cfg.nKeys ∧
          t = (s.setInputs rest).clearRepaint.press k) ∨
        (∃ k rest, s.hostInputs = .release k :: rest ∧ k < s.cfg.nKeys ∧
          t = (s.setInputs rest).clearRepaint.release k) ∨
        (∃ now rest, s.hostInputs = .poll now :: rest ∧ poll now (s.setInputs rest) = .next t)) := by
  unfold step at h
  split at h
  · cases h
  · rename_i hf
    refine ⟨hf, ?_⟩
    unfold hostStep at h
    split at h
    · exact .inl ⟨‹_›, h⟩
    · rename_i k rest hh
      obtain ⟨hk, rfl⟩ := keyEvent_next h
      exact .inr (.inl ⟨k, rest, hh, hk, rfl⟩)
    · rename_i k rest hh
      obtain ⟨hk, rfl⟩ := keyEvent_next h
      exact .inr (.inr (.inl ⟨k, rest, hh, hk, rfl⟩))
    · rename_i now rest hh; exact .inr (.inr (.inr ⟨now, rest, hh, h⟩))

/-- The firing test of R150 as a comparison of numbers. -/
theorem due_iff (hz k t0 now : Nat) : due hz k t0 now = true ↔ (k + 1) * Config.nsPerSecond ≤ (now - t0) * hz := by
  simp [due]

/-! A key event's effect on one key (R41). -/

theorem State.press_keyDown (s : State) (k j : Nat) :
    (s.press k).keyDown j = if j = k then true else s.keyDown j := by
  unfold State.press
  split
  · rename_i hk; split
    · rename_i h; subst h; exact hk
    · rfl
  · exact getD_writeAt ..

theorem State.press_keyPressed (s : State) (k j : Nat) :
    (s.press k).keyPressed j = if j = k then s.keyPressed j || !s.keyDown j else s.keyPressed j := by
  unfold State.press
  split
  · rename_i hk; split
    · rename_i h; subst h; simp [hk]
    · rfl
  · rename_i hk
    refine (getD_writeAt ..).trans ?_
    split
    · rename_i h; subst h; simp [hk]
    · rfl

theorem State.release_keyDown (s : State) (k j : Nat) :
    (s.release k).keyDown j = if j = k then false else s.keyDown j := by
  unfold State.release
  split
  · exact getD_writeAt ..
  · rename_i hk; split
    · rename_i h; subst h; simpa using hk
    · rfl

theorem State.release_keyReleased (s : State) (k j : Nat) :
    (s.release k).keyReleased j = if j = k then s.keyReleased j || s.keyDown j else s.keyReleased j := by
  unfold State.release
  split
  · rename_i hk
    refine (getD_writeAt ..).trans ?_
    split
    · rename_i h; subst h; simp [hk]
    · rfl
  · rename_i hk; split
    · rename_i h; subst h; simp [hk]
    · rfl

/-- Clearing the edges clears every key's (R42). -/
theorem State.resetEdges_edges (s : State) (k : Nat) :
    s.resetEdges.keyPressed k = false ∧ s.resetEdges.keyReleased k = false :=
  ⟨getD_replicate_self .., getD_replicate_self ..⟩

/-- A run of the host that has come as far as `n + 1` inputs came as far as `n`, and stepped with the next one supplied. -/
theorem HostRun.outcome_succ_next {h : HostRun} {s u : State} {n : Nat} (hu : h.outcome s (n + 1) = .next u) :
    ∃ t, h.outcome s n = .next t ∧ step (t.supplied (h.input n) (h.byte n)) = .next u := by
  unfold HostRun.outcome at hu
  split at hu
  · exact ⟨_, ‹_›, hu⟩
  · cases hu
  · cases hu

/-- A run of at least one step that answers is that step and a run from where it leads. -/
theorem run_cons (M : Host.Core) {n : Nat} {s t : M.State} (h : M.run (n + 1) s = .next t) :
    ∃ u, M.step s = .next u ∧ M.run n u = .next t := by
  unfold Host.Core.run at h
  split at h
  · exact ⟨_, ‹_›, h⟩
  · cases h
  · cases h

/-- A safe run of at least one step is that step and a safe run from where it leads (R185). -/
theorem SafeRun.cons {n : Nat} {s t : State} (h : SafeRun (n + 1) s t) : ∃ u, step s = .next u ∧ SafeRun n u t :=
  run_cons Sys2Proof.core h

end Sys2Proof.Machine
end

