-- ==== Sys2Proof/Laws/Sizes.lean ====
section
/-! SUPPORT. What keeps the sizes of the arrays of State (R20, R27, R37, R40) and the widths of its registers (R8): every update
of them does, at a place the array has. -/

namespace Sys2Proof.Machine

/-- A change that leaves the parameters and the arrays alone leaves their sizes. -/
theorem Sized.congr {s t : State} (h : Sized s) (hc : t.cfg = s.cfg) (h0 : t.v = s.v) (h1 : t.stack = s.stack) (h2 : t.fb = s.fb)
    (h3 : t.down = s.down) (h4 : t.pressedEdge = s.pressedEdge) (h5 : t.releasedEdge = s.releasedEdge) : Sized t := by
  constructor <;> simp only [hc, h0, h1, h2, h3, h4, h5]
  exacts [h.v, h.stack, h.rows, h.columns, h.down, h.pressed, h.released]

theorem Sized.constructed (cfg : Params) : Sized (State.constructed cfg) where
  v := List.length_replicate
  stack := List.length_replicate
  rows := List.length_replicate
  columns _ h := by rw [List.eq_of_mem_replicate h]; exact List.length_replicate
  down := List.length_replicate
  pressed := List.length_replicate
  released := List.length_replicate

theorem Sized.resetEdges {s : State} (h : Sized s) : Sized s.resetEdges where
  v := h.v
  stack := h.stack
  rows := h.rows
  columns := h.columns
  down := h.down
  pressed := List.length_replicate
  released := List.length_replicate

theorem Sized.press {s : State} (h : Sized s) {k : Nat} (hk : k < s.cfg.nKeys) : Sized (s.press k) := by
  unfold State.press
  split
  · exact h
  · exact { h with
      down := (length_writeAt _ _ (h.down ▸ hk)).trans h.down
      pressed := (length_writeAt _ _ (h.pressed ▸ hk)).trans h.pressed }

theorem Sized.release {s : State} (h : Sized s) {k : Nat} (hk : k < s.cfg.nKeys) : Sized (s.release k) := by
  unfold State.release
  split
  · exact { h with
      down := (length_writeAt _ _ (h.down ▸ hk)).trans h.down
      released := (length_writeAt _ _ (h.released ▸ hk)).trans h.released }
  · exact h

/-- A write of a register the block has keeps the sizes. -/
theorem Sized.setReg {s : State} (h : Sized s) {x : Nat} (hx : x < s.cfg.nRegs) (n : Nat) : Sized (s.setReg x n) :=
  { h with v := (length_writeAt _ _ (h.v ▸ hx)).trans h.v }

/-- A push keeps the sizes. -/
theorem Sized.push {s t : State} (h : Sized s) (hp : s.push = .ok t) : Sized t := by
  obtain ⟨hs, rfl⟩ := State.push_ok hp
  exact { h with stack := (length_writeAt _ _ (h.stack ▸ hs)).trans h.stack }

theorem Sized.clearFrame {s : State} (h : Sized s) : Sized s.clearFrame :=
  { h with
    rows := List.length_replicate
    columns := fun _ hr => by rw [List.eq_of_mem_replicate hr]; exact List.length_replicate }

/-- A toggle of a pixel of the framebuffer keeps the sizes. -/
theorem Sized.togglePixel {s : State} (h : Sized s) {x y : Nat} (hx : x < s.cfg.fbWidth) (hy : y < s.cfg.fbHeight) :
    Sized (s.togglePixel x y) := by
  have hy' : y < s.fb.length := h.rows ▸ hy
  have hrow : (s.fb.getD y []).length = s.cfg.fbWidth := by
    rw [List.getD_eq_getElem _ _ hy']; exact h.columns _ (List.getElem_mem hy')
  exact { h with
    rows := (length_writeAt _ _ hy').trans h.rows
    columns := fun row hr => by
      rcases mem_writeAt hy' hr with rfl | hr
      · exact (length_writeAt _ _ (hrow ▸ hx)).trans hrow
      · exact h.columns row hr }

/-! ## Widths -/

/-- A change that leaves the parameters and the registers alone leaves them in range. -/
theorem InRange.congr {s t : State} (h : InRange s) (hc : t.cfg = s.cfg) (h1 : t.v = s.v) (h2 : t.pcBits = s.pcBits)
    (h3 : t.indexBits = s.indexBits) (h4 : t.stack = s.stack) : InRange t := by
  constructor <;> simp only [hc, h1, h2, h3, h4]
  exacts [h.v, h.pc, h.index, h.stack]

theorem InRange.constructed (cfg : Params) : InRange (State.constructed cfg) where
  v n h := by rw [List.eq_of_mem_replicate h]; exact Nat.two_pow_pos _
  pc := Nat.mod_lt _ (Nat.two_pow_pos _)
  index := Nat.two_pow_pos _
  stack n h := by rw [List.eq_of_mem_replicate h]; exact Nat.two_pow_pos _

/-- A write of a register truncates to its width. -/
theorem InRange.setReg {s : State} (h : InRange s) {x : Nat} (hx : x < s.v.length) (n : Nat) : InRange (s.setReg x n) :=
  { h with
    v := fun _ hm => (mem_writeAt hx hm).elim (fun he => he ▸ Nat.mod_lt _ (Nat.two_pow_pos _)) (h.v _) }

theorem InRange.setPc {s : State} (h : InRange s) (a : Nat) : InRange (s.setPc a) :=
  { h with pc := Nat.mod_lt _ (Nat.two_pow_pos _) }

theorem InRange.setIndex {s : State} (h : InRange s) (a : Nat) : InRange (s.setIndex a) :=
  { h with index := Nat.mod_lt _ (Nat.two_pow_pos _) }

/-- A push stores a `pc`. -/
theorem InRange.push {s t : State} (h : InRange s) (hs : s.sp < s.stack.length) (hp : s.push = .ok t) : InRange t := by
  obtain ⟨-, rfl⟩ := State.push_ok hp
  exact { h with
    stack := fun n hm => (mem_writeAt hs hm).elim (fun he => he ▸ Nat.mod_lt _ (Nat.two_pow_pos _)) (h.stack n) }

end Sys2Proof.Machine
end

