-- ==== Sys2Proof/Laws/Transfers.lean ====
section
/-! SUPPORT. What the two multi-byte transfers do, said once: bytes stored in ascending order (bcd, store-regs) and registers
loaded in ascending order (load-regs). -/

namespace Sys2Proof.Machine

/-! ## One access -/

theorem State.resolve_of_accessible {s : State} {kind : AccessKind} {ia a : Nat} (h : Accessible s a) :
    s.resolve kind ia a = .ok (a % s.cfg.memSize) := by
  unfold State.resolve
  split
  · rename_i ha; rw [Nat.mod_eq_of_lt ha]
  · rcases h with h | h
    · contradiction
    · rw [h]

theorem State.resolve_of_outOfRange {s : State} {kind : AccessKind} {ia a : Nat}
    (hp : s.cfg.oobPolicy = .fault) (h : s.cfg.memSize ≤ a) :
    s.resolve kind ia a = .error (.memOutOfRange kind a ia none) := by
  rw [State.resolve, if_neg (Nat.not_lt.mpr h), hp]

theorem State.memWrite_of_accessible {s : State} {a : Nat} (b : Byte) (h : Accessible s a) :
    s.memWrite a b = .ok (s.setByte (a % s.cfg.memSize) b) := by
  rw [State.memWrite, State.resolve_of_accessible h]

theorem State.memRead_of_accessible {s : State} {kind : AccessKind} {ia a : Nat} (h : Accessible s a) :
    s.memRead kind ia a = .ok (s.byteAt (a % s.cfg.memSize)) := by
  rw [State.memRead, State.resolve_of_accessible h]

/-- Two addresses less than the memory's size apart are different addresses of it. -/
theorem add_mod_ne {a d size : Nat} (h : 0 < d ∧ d < size) : a % size ≠ (a + d) % size := by
  rw [← Nat.mod_add_mod a size d]
  generalize hr : a % size = r
  have hlt : r < size := hr ▸ Nat.mod_lt _ (by omega)
  by_cases hs : r + d < size
  · rw [Nat.mod_eq_of_lt hs]; omega
  · rw [Nat.mod_eq_sub_mod (by omega), Nat.mod_eq_of_lt (by omega)]; omega

/-! ## Storing bytes -/

/-- Everything a store of a list of bytes does when it answers (R54, R57): it changes memory alone, at the addresses it
reached; each holds its byte where they are no more than memory has, and the form of memory is kept. -/
theorem State.storeBytes_ok {bs : List Byte} {s t : State} {a : Nat} (h : s.storeBytes a bs = .ok t) :
    (∀ k, k < bs.length → Accessible s (a + k)) ∧ t = { s with mem := t.mem } ∧
    (∀ addr, (∀ k, k < bs.length → addr ≠ (a + k) % s.cfg.memSize) → t.byteAt addr = s.byteAt addr) ∧
    (bs.length ≤ s.cfg.memSize → ∀ k (hk : k < bs.length), t.byteAt ((a + k) % s.cfg.memSize) = bs[k]) ∧
    (0 < s.cfg.memSize → s.mem.wf s.cfg.memSize = true → t.mem.wf s.cfg.memSize = true) := by
  induction bs generalizing s a with
  | nil =>
    cases h
    simp
  | cons b bs ih =>
    unfold State.storeBytes at h
    split at h
    case h_2 => cases h
    rename_i s' hs'
    obtain ⟨hacc, rfl⟩ := State.memWrite_ok hs'
    obtain ⟨i1, i2, i3, i4, i5⟩ := ih h
    refine ⟨?_, ?_, ?_, ?_, fun hz hw => i5 hz (Memory.wf_write b (Nat.mod_lt _ hz) hw)⟩
    · rintro (_ | k) hk
      · exact hacc
      · have := i1 k (by simpa using hk)
        rwa [Nat.add_assoc, Nat.add_comm 1 k] at this
    · rw [i2]; rfl
    · intro addr haddr
      rw [i3 addr fun k hk => by
        have := haddr (k + 1) (by simpa using hk)
        rwa [← Nat.add_assoc, Nat.add_right_comm] at this]
      have := haddr 0 (by simp)
      simpa using fun h : addr = a % s.cfg.memSize => absurd h this
    · intro hlen
      rw [List.length_cons] at hlen
      rintro (_ | k) hk
      · rw [i3 _ fun k hk' => ?_]
        · simp
        · have h1 : k < bs.length := hk'
          rw [Nat.add_zero, Nat.add_assoc, State.setByte_cfg]
          exact add_mod_ne (by omega)
      · have := i4 (Nat.le_of_succ_le hlen) k (by simpa using hk)
        rw [Nat.add_assoc, Nat.add_comm 1 k] at this
        simpa using this

/-- A store of a list of bytes answers where every address is accessible (R57). -/
theorem State.storeBytes_complete {bs : List Byte} {s : State} {a : Nat}
    (h : ∀ k, k < bs.length → Accessible s (a + k)) : ∃ t, s.storeBytes a bs = .ok t := by
  induction bs generalizing s a with
  | nil => exact ⟨s, rfl⟩
  | cons b bs ih =>
    rw [State.storeBytes, State.memWrite_of_accessible b (by simpa using h 0 (by simp))]
    exact ih fun k hk => by
      have := h (k + 1) (by simpa using hk)
      rwa [← Nat.add_assoc, Nat.add_right_comm] at this

/-- Under `OOB_POLICY` = `FAULT` a store that reaches `MEM_SIZE` faults at the first address that does (R57, R143). -/
theorem State.storeBytes_fault {bs : List Byte} {s : State} {a : Nat} (hp : s.cfg.oobPolicy = .fault)
    (h : s.cfg.memSize < a + bs.length) (hne : bs ≠ []) :
    s.storeBytes a bs = .error (.memOutOfRange .write (max a s.cfg.memSize) s.ia none) := by
  induction bs generalizing s a with
  | nil => contradiction
  | cons b bs ih =>
    by_cases ha : a < s.cfg.memSize
    · rw [State.storeBytes, State.memWrite_of_accessible b (.inl ha)]
      rw [List.length_cons] at h
      have hne' : bs ≠ [] := by rintro rfl; simp at h; omega
      rw [show max a s.cfg.memSize = max (a + 1) s.cfg.memSize by omega]
      exact ih (s := s.setByte _ b) hp (by rw [State.setByte_cfg]; omega) hne'
    · rw [State.storeBytes, State.memWrite, State.resolve_of_outOfRange hp (by omega)]
      rw [Nat.max_eq_left (by omega)]

/-! ## Loading registers -/

/-- Everything a load of a list of registers does when it answers (R54, R57): it changes those registers alone, each
to the byte at its address. -/
theorem State.loadBytes_ok {xs : List Nat} {s t : State} {a : Nat} (h : s.loadBytes a xs = .ok t)
    (hnd : xs.Nodup) :
    (∀ k, k < xs.length → Accessible s (a + k)) ∧ t = { s with v := t.v } ∧
    (∀ r, r ∉ xs → t.reg r = s.reg r) ∧
    (∀ k (hk : k < xs.length), t.reg xs[k] = (s.byteAt ((a + k) % s.cfg.memSize)).toNat % 2 ^ s.cfg.regW) := by
  induction xs generalizing s a with
  | nil =>
    cases h
    simp
  | cons x xs ih =>
    unfold State.loadBytes at h
    split at h
    case h_2 => cases h
    rename_i b hb
    obtain ⟨hacc, rfl⟩ := State.memRead_ok hb
    rw [List.nodup_cons] at hnd
    obtain ⟨i1, i2, i3, i4⟩ := ih h hnd.2
    refine ⟨?_, ?_, ?_, ?_⟩
    · rintro (_ | k) hk
      · exact hacc
      · have := i1 k (by simpa using hk)
        rwa [Nat.add_assoc, Nat.add_comm 1 k] at this
    · rw [i2]; rfl
    · intro r hr
      rw [List.mem_cons, not_or] at hr
      rw [i3 r hr.2, State.setReg_reg, if_neg hr.1]
    · rintro (_ | k) hk
      · simp [i3 x hnd.1]
      · have := i4 k (by simpa using hk)
        rw [Nat.add_assoc, Nat.add_comm 1 k] at this
        simpa using this

/-- A load answers where every address is accessible (R57). -/
theorem State.loadBytes_complete {xs : List Nat} {s : State} {a : Nat}
    (h : ∀ k, k < xs.length → Accessible s (a + k)) : ∃ t, s.loadBytes a xs = .ok t := by
  induction xs generalizing s a with
  | nil => exact ⟨s, rfl⟩
  | cons x xs ih =>
    rw [State.loadBytes, State.memRead_of_accessible (by simpa using h 0 (by simp))]
    exact ih fun k hk => by
      have := h (k + 1) (by simpa using hk)
      rwa [← Nat.add_assoc, Nat.add_right_comm] at this

/-- Under `OOB_POLICY` = `FAULT` a load that reaches `MEM_SIZE` faults at the first address that does (R57, R143). -/
theorem State.loadBytes_fault {xs : List Nat} {s : State} {a : Nat} (hp : s.cfg.oobPolicy = .fault)
    (h : s.cfg.memSize < a + xs.length) (hne : xs ≠ []) :
    s.loadBytes a xs = .error (.memOutOfRange .read (max a s.cfg.memSize) s.ia none) := by
  induction xs generalizing s a with
  | nil => contradiction
  | cons x xs ih =>
    by_cases ha : a < s.cfg.memSize
    · rw [State.loadBytes, State.memRead_of_accessible (.inl ha)]
      rw [List.length_cons] at h
      have hne' : xs ≠ [] := by rintro rfl; simp at h; omega
      rw [show max a s.cfg.memSize = max (a + 1) s.cfg.memSize by omega]
      exact ih (s := s.setReg x _) hp (by rw [State.setReg_cfg]; omega) hne'
    · rw [State.loadBytes, State.memRead, State.resolve_of_outOfRange hp (by omega)]
      rw [Nat.max_eq_left (by omega)]

/-! ## Transfers that fault, and what a transfer never changes -/

theorem State.storeBytes_error {bs : List Byte} {s : State} {a : Nat} {f : Fault}
    (h : s.storeBytes a bs = .error f) :
    s.cfg.oobPolicy = .fault ∧ ∃ addr, s.cfg.memSize ≤ addr ∧ f = .memOutOfRange .write addr s.ia none := by
  induction bs generalizing s a with
  | nil => cases h
  | cons b bs ih =>
    unfold State.storeBytes at h
    split at h
    · rename_i u hu
      obtain ⟨-, rfl⟩ := State.memWrite_ok hu
      have := ih h
      exact this
    · rename_i e he
      cases h
      obtain ⟨h1, h2, h3⟩ := State.memWrite_error he
      exact ⟨h2, a, h1, h3⟩

theorem State.loadBytes_error {xs : List Nat} {s : State} {a : Nat} {f : Fault}
    (h : s.loadBytes a xs = .error f) :
    s.cfg.oobPolicy = .fault ∧ ∃ addr, s.cfg.memSize ≤ addr ∧ f = .memOutOfRange .read addr s.ia none := by
  induction xs generalizing s a with
  | nil => cases h
  | cons x xs ih =>
    unfold State.loadBytes at h
    split at h
    · have := ih h
      exact this
    · rename_i e he
      cases h
      obtain ⟨h1, h2, h3⟩ := State.memRead_error he
      exact ⟨h2, a, h1, h3⟩

/-- Loading changes registers alone. -/
theorem State.loadBytes_rest {xs : List Nat} {s t : State} {a : Nat} (h : s.loadBytes a xs = .ok t) :
    t = { s with v := t.v } := by
  induction xs generalizing s a with
  | nil => cases h; rfl
  | cons x xs ih =>
    unfold State.loadBytes at h
    split at h
    · rw [ih h]; rfl
    · cases h

/-- Loading registers that the block has keeps the sizes and the widths. -/
theorem State.loadBytes_sized {xs : List Nat} {s t : State} {a : Nat} (hx : ∀ x ∈ xs, x < s.cfg.nRegs) (hs : Sized s)
    (hr : InRange s) (h : s.loadBytes a xs = .ok t) : Sized t ∧ InRange t := by
  induction xs generalizing s a with
  | nil => cases h; exact ⟨hs, hr⟩
  | cons x xs ih =>
    unfold State.loadBytes at h
    split at h
    · have hx0 := hx x (List.mem_cons_self ..)
      exact ih (s := s.setReg x _) (fun y hy => hx y (List.mem_cons_of_mem _ hy)) (hs.setReg hx0 _)
        (hr.setReg (hs.v ▸ hx0) _) h
    · cases h

/-! ## Register lists -/

@[simp] theorem regsUpTo_length (x : RegIdx) : (regsUpTo x).length = x.val + 1 := List.length_range

theorem regsUpTo_nodup (x : RegIdx) : (regsUpTo x).Nodup := List.nodup_range

@[simp] theorem mem_regsUpTo (x : RegIdx) (r : Nat) : r ∈ regsUpTo x ↔ r < x.val + 1 := List.mem_range

@[simp] theorem regsUpTo_getElem (x : RegIdx) (k : Nat) (hk : k < (regsUpTo x).length) : (regsUpTo x)[k] = k :=
  List.getElem_range ..

end Sys2Proof.Machine
end

