-- ==== Sys2Proof/Laws/Sprites.lean ====
section
/-! SUPPORT. What the rasterizer does, said once (45_display.md R129, R130): drawing toggles a set of pixels, and VF and the
dirty flag follow from that set. -/

namespace Sys2Proof.Machine

/-- `t` is `s` with exactly the pixels of `T` toggled, VF set to 1 if one of them was on, the dirty flag set if there is
one, and nothing else changed. -/
structure Toggled (T : Nat → Nat → Prop) (s t : State) : Prop where
  rest : t = { s with fb := t.fb, dirty := t.dirty, v := t.v }
  regs : ∀ r, r ≠ s.cfg.flagReg → t.reg r = s.reg r
  inside : ∀ px py, T px py → t.pixel px py = !s.pixel px py
  outside : ∀ px py, ¬ T px py → t.pixel px py = s.pixel px py
  flagOn : (∃ px py, T px py ∧ s.pixel px py = true) → t.reg s.cfg.flagReg = 1 % 2 ^ s.cfg.regW
  flagKept : (∀ px py, T px py → s.pixel px py = false) → t.reg s.cfg.flagReg = s.reg s.cfg.flagReg
  dirty : t.dirty = true ↔ s.dirty = true ∨ ∃ px py, T px py

theorem Toggled.none (s : State) {T : Nat → Nat → Prop} (hT : ∀ px py, ¬ T px py) : Toggled T s s where
  rest := rfl
  regs _ _ := rfl
  inside px py h := absurd h (hT px py)
  outside _ _ _ := rfl
  flagOn := fun ⟨px, py, h, _⟩ => absurd h (hT px py)
  flagKept _ := rfl
  dirty := ⟨.inl, fun h => h.elim id fun ⟨px, py, h⟩ => absurd h (hT px py)⟩

theorem Toggled.congr {T T' : Nat → Nat → Prop} {s t : State} (h : Toggled T s t)
    (hT : ∀ px py, T px py ↔ T' px py) : Toggled T' s t := by
  have : T = T' := funext fun px => funext fun py => propext (hT px py)
  rwa [← this]

/-- Two toggles of disjoint sets, one after the other, toggle their union. -/
theorem Toggled.trans {T T' : Nat → Nat → Prop} {s u t : State} (h : Toggled T s u) (h' : Toggled T' u t)
    (hd : ∀ px py, T px py → ¬ T' px py) : Toggled (fun px py => T px py ∨ T' px py) s t := by
  have same : ∀ px py, T' px py → u.pixel px py = s.pixel px py :=
    fun px py hT' => h.outside px py fun hT => hd px py hT hT'
  have hcfg : u.cfg = s.cfg := by rw [h.rest]
  have kept' : (∀ px py, T' px py → u.pixel px py = false) → t.reg s.cfg.flagReg = u.reg s.cfg.flagReg := by
    rw [← hcfg]; exact h'.flagKept
  refine ⟨?_, fun r hr => (h'.regs r (hcfg ▸ hr)).trans (h.regs r hr), ?_, ?_, ?_, ?_, ?_⟩
  · rw [h'.rest, h.rest]
  · rintro px py (hT | hT)
    · rw [h'.outside px py (hd px py hT), h.inside px py hT]
    · rw [h'.inside px py hT, same px py hT]
  · intro px py hn
    rw [not_or] at hn
    rw [h'.outside px py hn.2, h.outside px py hn.1]
  · rintro ⟨px, py, hT, hp⟩
    by_cases hc : ∃ px py, T' px py ∧ u.pixel px py = true
    · rw [← hcfg]; exact h'.flagOn hc
    · have hk : ∀ px py, T' px py → u.pixel px py = false := fun px py hT' => by
        by_contra hne; exact hc ⟨px, py, hT', by simpa using hne⟩
      rw [kept' hk]
      rcases hT with hT | hT
      · exact h.flagOn ⟨px, py, hT, hp⟩
      · exact absurd (hk px py hT) (by rw [same px py hT, hp]; simp)
  · intro hk
    rw [kept' fun px py hT => by rw [same px py hT]; exact hk px py (.inr hT)]
    exact h.flagKept fun px py hT => hk px py (.inl hT)
  · rw [h'.dirty, h.dirty]
    constructor
    · rintro ((hs | ⟨px, py, hT⟩) | ⟨px, py, hT⟩)
      · exact .inl hs
      · exact .inr ⟨px, py, .inl hT⟩
      · exact .inr ⟨px, py, .inr hT⟩
    · rintro (hs | ⟨px, py, hT | hT⟩)
      · exact .inl (.inl hs)
      · exact .inl (.inr ⟨px, py, hT⟩)
      · exact .inr ⟨px, py, hT⟩

/-- One set sprite bit toggles one pixel. -/
theorem State.plot_toggles (s : State) (x y : Nat) :
    Toggled (fun px py => px = x ∧ py = y) s (s.plot x y) := by
  have hnew : (s.togglePixel x y).pixel x y = !s.pixel x y := by simp
  cases hp : s.pixel x y with
  | true =>
    have hplot : s.plot x y = (s.togglePixel x y).setFlag true := by simp [State.plot, hnew, hp]
    rw [hplot]
    refine ⟨rfl, fun r hr => ?_, ?_, ?_, fun _ => ?_, ?_, ?_⟩
    · rw [State.setFlag_eq, State.setReg_reg, State.togglePixel_cfg, if_neg hr, State.togglePixel_reg]
    · rintro px py ⟨rfl, rfl⟩; simp
    · intro px py hn; simp [hn]
    · rw [State.setFlag_eq, State.setReg_reg, State.togglePixel_cfg, if_pos rfl]; rfl
    · intro hk; rw [hk x y ⟨rfl, rfl⟩] at hp; cases hp
    · simp
  | false =>
    have hplot : s.plot x y = s.togglePixel x y := by simp [State.plot, hnew, hp]
    rw [hplot]
    refine ⟨rfl, fun r _ => by simp, ?_, ?_, ?_, fun _ => by simp, ?_⟩
    · rintro px py ⟨rfl, rfl⟩; simp
    · intro px py hn; simp [hn]
    · rintro ⟨px, py, ⟨rfl, rfl⟩, hp'⟩; rw [hp'] at hp; cases hp
    · simp

/-- The low `k` bits of a sprite byte drawn from column `x` have a set bit at column `px`. -/
abbrev bitsCover (b : Byte) (k x px : Nat) : Prop := x ≤ px ∧ px < x + k ∧ b.getLsbD (x + k - 1 - px) = true

/-- One sprite row toggles the pixels of its row that its set bits cover, columns past the edge clipped. -/
theorem State.drawBits_toggles (b : Byte) (y k x : Nat) (s : State) :
    Toggled (fun px py => px < s.cfg.fbWidth ∧ py = y ∧ bitsCover b k x px) s (State.drawBits b y k x s) := by
  induction k generalizing x s with
  | zero => exact Toggled.none s fun px py h => by omega
  | succ k ih =>
    unfold State.drawBits
    split
    · rename_i hx
      by_cases hb : b.getLsbD k = true
      · rw [if_pos hb]
        have hplot := State.plot_toggles s x y
        have hrow := ih (x + 1) (s.plot x y)
        rw [show (s.plot x y).cfg = s.cfg by rw [hplot.rest]] at hrow
        refine (hplot.trans hrow ?_).congr ?_
        · rintro px py ⟨rfl, -⟩ ⟨-, -, h, -⟩
          omega
        · intro px py
          constructor
          · rintro (⟨rfl, rfl⟩ | ⟨h0, rfl, h1, h2, h3⟩)
            · refine ⟨hx, rfl, Nat.le_refl _, by simp, ?_⟩
              rw [show px + (k + 1) - 1 - px = k by omega]; exact hb
            · refine ⟨h0, rfl, by omega, by omega, ?_⟩
              rwa [show x + (k + 1) - 1 - px = x + 1 + k - 1 - px by omega]
          · rintro ⟨h0, rfl, h1, h2, h3⟩
            by_cases he : px = x
            · exact .inl ⟨he, rfl⟩
            · refine .inr ⟨h0, rfl, by omega, by omega, ?_⟩
              rwa [show x + 1 + k - 1 - px = x + (k + 1) - 1 - px by omega]
      · rw [if_neg hb]
        refine (ih (x + 1) s).congr fun px py => ?_
        constructor
        · rintro ⟨h0, rfl, h1, h2, h3⟩
          refine ⟨h0, rfl, by omega, by omega, ?_⟩
          rwa [show x + (k + 1) - 1 - px = x + 1 + k - 1 - px by omega]
        · rintro ⟨h0, rfl, h1, h2, h3⟩
          have he : px ≠ x := by
            intro he; rw [he, show x + (k + 1) - 1 - x = k by omega] at h3; exact hb h3
          refine ⟨h0, rfl, by omega, by omega, ?_⟩
          rwa [show x + 1 + k - 1 - px = x + (k + 1) - 1 - px by omega]
    · exact Toggled.none s fun px py h => by omega

theorem bitsCover_eight (b : Byte) (x px : Nat) : bitsCover b 8 x px ↔ spriteCovers b x px = true := by
  simp only [bitsCover, spriteCovers, Bool.and_eq_true, decide_eq_true_eq, and_assoc]
  constructor
  · rintro ⟨h1, h2, h3⟩
    exact ⟨h1, h2, by rwa [show 7 - (px - x) = x + 8 - 1 - px by omega]⟩
  · rintro ⟨h1, h2, h3⟩
    exact ⟨h1, h2, by rwa [show x + 8 - 1 - px = 7 - (px - x) by omega]⟩

/-- The pixels covered by the sprite rows before row `j`, row `i` drawn from column `L i`. -/
def rowsBefore (s : State) (top : Nat) (L : Nat → Nat) (j : Nat) (px py : Nat) : Prop :=
  px < s.cfg.fbWidth ∧ py < s.cfg.fbHeight ∧ ∃ i, i < j ∧ py = top + i ∧ spriteCovers (spriteByte s i) (L i) px = true

/-- Everything a sequence of sprite rows does when it answers: from a state where the rows before row `j` are drawn, it
draws `n` more, provided `col` finds each row's starting column (R129). -/
theorem State.drawRows_toggles {col : State → Nat} {L : Nat → Nat} {s : State} {top : Nat}
    (hcol : ∀ j u, Toggled (rowsBefore s top L j) s u → col u = L j) (n : Nat) :
    ∀ (j : Nat) (u t : State), Toggled (rowsBefore s top L j) s u →
      State.drawRows col n j (top + j) u = .ok t → Toggled (rowsBefore s top L (j + n)) s t := by
  induction n with
  | zero => intro j u t hu h; cases h; exact hu
  | succ n ih =>
    intro j u t hu h
    have hcfg : u.cfg = s.cfg := by rw [hu.rest]
    unfold State.drawRows at h
    split at h
    · rename_i hy
      split at h
      case h_2 => cases h
      rename_i b hb
      have hindex : u.index = s.index := by rw [hu.rest]; rfl
      have hmem : u.mem = s.mem := by rw [hu.rest]
      have hbyte : b = spriteByte s j := by
        rw [(State.memRead_ok hb).2]
        simp only [State.byteAt, spriteByte, State.reached, State.indexPlus, hindex, hmem, hcfg]
      rw [hcol j u hu, hbyte] at h
      have hrow := State.drawBits_toggles (spriteByte s j) (top + j) 8 (L j) u
      have hnext : Toggled (rowsBefore s top L (j + 1)) s (State.drawBits (spriteByte s j) (top + j) 8 (L j) u) := by
        refine (hu.trans hrow ?_).congr fun px py => ?_
        · rintro px py ⟨-, -, i, hi, he, -⟩ ⟨-, rfl, -⟩
          omega
        · simp only [bitsCover_eight, hcfg]
          rw [hcfg] at hy
          constructor
          · rintro (⟨h0, h0', i, hi, h1, h2⟩ | ⟨h0, rfl, h2⟩)
            · exact ⟨h0, h0', i, by omega, h1, h2⟩
            · exact ⟨h0, hy, j, by omega, rfl, h2⟩
          · rintro ⟨h0, h0', i, hi, h1, h2⟩
            by_cases hij : i = j
            · subst hij; exact .inr ⟨h0, h1, h2⟩
            · exact .inl ⟨h0, h0', i, by omega, h1, h2⟩
      have := ih (j + 1) _ t hnext (by rw [← h, Nat.add_assoc])
      rwa [Nat.add_assoc, Nat.add_comm 1 n] at this
    · rename_i hy
      cases h
      rw [hcfg] at hy
      exact hu.congr fun px py => ⟨fun ⟨h0, h0', i, hi, h1, h2⟩ => ⟨h0, h0', i, by omega, h1, h2⟩,
        fun ⟨h0, h0', i, hi, h1, h2⟩ => ⟨h0, h0', i, by omega, h1, h2⟩⟩

theorem State.drawBits_keeps (b : Byte) (y k x : Nat) (s : State) :
    (State.drawBits b y k x s).index = s.index ∧ (State.drawBits b y k x s).cfg = s.cfg ∧
      (State.drawBits b y k x s).ia = s.ia := by
  have h := (State.drawBits_toggles b y k x s).rest
  exact ⟨by rw [h]; rfl, by rw [h], by rw [h]; rfl⟩

/-- A sequence of sprite rows answers where every row it reads is accessible: those above the bottom edge (R129). -/
theorem State.drawRows_complete (col : State → Nat) (n : Nat) :
    ∀ (j y : Nat) (u : State), (∀ i, i < n → y + i < u.cfg.fbHeight → Accessible u (u.indexPlus (j + i))) →
      ∃ t, State.drawRows col n j y u = .ok t := by
  induction n with
  | zero => exact fun _ _ u _ => ⟨u, rfl⟩
  | succ n ih =>
    intro j y u hacc
    unfold State.drawRows
    split
    · rename_i hy
      rw [State.memRead_of_accessible (by simpa using hacc 0 (by omega) (by simpa using hy))]
      refine ih (j + 1) (y + 1) _ fun i hi hyi => ?_
      obtain ⟨h1, h2, -⟩ := State.drawBits_keeps (u.byteAt (u.indexPlus j % u.cfg.memSize)) y 8 (col u) u
      have := hacc (i + 1) (by omega) (by rw [h2] at hyi; omega)
      rw [Accessible, State.indexPlus, h1, h2, Nat.add_assoc j 1 i, Nat.add_comm 1 i]
      exact this
    · exact ⟨u, rfl⟩

/-- Under `OOB_POLICY` = `FAULT` sprite rows of which one that is read reaches `MEM_SIZE` fault at the first address that
does (R129, R57). -/
theorem State.drawRows_fault (col : State → Nat) (n : Nat) :
    ∀ (j y : Nat) (u : State), u.cfg.oobPolicy = .fault → 0 < min n (u.cfg.fbHeight - y) →
      u.cfg.memSize < u.indexPlus j + min n (u.cfg.fbHeight - y) →
      State.drawRows col n j y u = .error (.memOutOfRange .read (max (u.indexPlus j) u.cfg.memSize) u.ia none) := by
  induction n with
  | zero => intro j y u _ h; simp at h
  | succ n ih =>
    intro j y u hp hpos hout
    have hy : y < u.cfg.fbHeight := by omega
    unfold State.drawRows
    rw [if_pos hy]
    by_cases ha : u.indexPlus j < u.cfg.memSize
    · rw [State.memRead_of_accessible (.inl ha)]
      obtain ⟨h1, h2, h3⟩ := State.drawBits_keeps (u.byteAt (u.indexPlus j % u.cfg.memSize)) y 8 (col u) u
      have hidx : ∀ w : State, w.index = u.index → w.indexPlus (j + 1) = u.indexPlus j + 1 := fun w hw => by
        simp only [State.indexPlus, hw]; omega
      have := ih (j + 1) (y + 1) _ (by rw [h2]; exact hp) (by rw [h2]; omega)
        (by rw [hidx _ h1, h2]; omega)
      rw [hidx _ h1, h2] at this
      rw [show max (u.indexPlus j) u.cfg.memSize = max (u.indexPlus j + 1) u.cfg.memSize by omega]
      rw [h3] at this
      exact this
    · rw [State.memRead, State.resolve_of_outOfRange hp (by omega)]
      rw [Nat.max_eq_left (by omega)]

/-- What a sequence of sprite rows never changes, whatever columns it starts them at. -/
theorem State.drawRows_rest {col : State → Nat} (n : Nat) :
    ∀ (j y : Nat) (u t : State), State.drawRows col n j y u = .ok t →
      t = { u with v := t.v, fb := t.fb, dirty := t.dirty } ∧ ∀ r, r ≠ u.cfg.flagReg → t.reg r = u.reg r := by
  induction n with
  | zero => intro j y u t h; cases h; exact ⟨rfl, fun _ _ => rfl⟩
  | succ n ih =>
    intro j y u t h
    unfold State.drawRows at h
    split at h
    · rename_i hy
      split at h
      case h_2 => cases h
      rename_i b hb
      obtain ⟨h1, h2⟩ := ih _ _ _ _ h
      have hT := State.drawBits_toggles b y 8 (col u) u
      exact ⟨by rw [h1, hT.rest], fun r hr => (h2 r (by rwa [hT.rest])).trans (hT.regs r hr)⟩
    · cases h; exact ⟨rfl, fun _ _ => rfl⟩

/-- What a sequence of sprite rows that faults has raised (R57). -/
theorem State.drawRows_error {col : State → Nat} (n : Nat) :
    ∀ (j y : Nat) (u : State) (f : Fault), State.drawRows col n j y u = .error f →
      u.cfg.oobPolicy = .fault ∧ ∃ addr, u.cfg.memSize ≤ addr ∧ f = .memOutOfRange .read addr u.ia none := by
  induction n with
  | zero => intro j y u f h; cases h
  | succ n ih =>
    intro j y u f h
    unfold State.drawRows at h
    split at h
    · rename_i hy
      split at h
      · rename_i b hb
        obtain ⟨h1, h2, h3⟩ := State.drawBits_keeps b y 8 (col u) u
        have := ih _ _ _ _ h
        rw [h2, h3] at this
        exact this
      · rename_i e he
        cases h
        obtain ⟨h1, h2, h3⟩ := State.memRead_error he
        exact ⟨h2, _, h1, h3⟩
    · cases h

/-! ## Sizes -/

/-- A plotted pixel of the framebuffer keeps the sizes and the widths. -/
theorem State.plot_sized {s : State} {x y : Nat} (hf : s.cfg.flagReg < s.cfg.nRegs) (hx : x < s.cfg.fbWidth)
    (hy : y < s.cfg.fbHeight) (h : Sized s ∧ InRange s) : Sized (s.plot x y) ∧ InRange (s.plot x y) := by
  have ht : Sized (s.togglePixel x y) ∧ InRange (s.togglePixel x y) :=
    ⟨h.1.togglePixel hx hy, h.2.congr rfl rfl rfl rfl rfl⟩
  unfold State.plot
  dsimp only
  split
  · exact ht
  · exact ⟨ht.1.setReg hf _, ht.2.setReg (ht.1.v ▸ hf) _⟩

/-- A sprite row keeps the sizes of the arrays and the widths of the registers. -/
theorem State.drawBits_sized (b : Byte) {y : Nat} (k x : Nat) {s : State} (hf : s.cfg.flagReg < s.cfg.nRegs)
    (hy : y < s.cfg.fbHeight) (h : Sized s ∧ InRange s) :
    Sized (State.drawBits b y k x s) ∧ InRange (State.drawBits b y k x s) := by
  induction k generalizing x s with
  | zero => exact h
  | succ k ih =>
    unfold State.drawBits
    split
    · rename_i hx
      split
      · have hc : (s.plot x y).cfg = s.cfg := by rw [(State.plot_toggles s x y).rest]
        exact ih (x + 1) (hc ▸ hf) (hc ▸ hy) (State.plot_sized hf hx hy h)
      · exact ih (x + 1) hf hy h
    · exact h

/-- A sequence of sprite rows keeps the sizes of the arrays and the widths of the registers. -/
theorem State.drawRows_sized {col : State → Nat} (n : Nat) :
    ∀ (j y : Nat) (u t : State), u.cfg.flagReg < u.cfg.nRegs → Sized u ∧ InRange u →
      State.drawRows col n j y u = .ok t → Sized t ∧ InRange t := by
  induction n with
  | zero => intro j y u t _ hu h; cases h; exact hu
  | succ n ih =>
    intro j y u t hf hu h
    unfold State.drawRows at h
    split at h
    · rename_i hy
      split at h
      case h_2 => cases h
      rename_i b _
      exact ih _ _ _ _ ((State.drawBits_keeps b y 8 (col u) u).2.1 ▸ hf) (State.drawBits_sized b 8 _ hf hy hu) h
    · cases h; exact hu

/-! ## Starting coordinates and collisions -/

/-- At a width of 64 the mask is a remainder, as the corner cases of R129 put it. -/
theorem State.startX_eq {s : State} (h : s.cfg.fbWidth = 64) (x : RegIdx) : s.startX x = s.reg x % 64 := by
  rw [State.startX, h]; exact Nat.and_two_pow_sub_one_eq_mod _ 6

/-- At a height of 32 the mask is a remainder. -/
theorem State.startY_eq {s : State} (h : s.cfg.fbHeight = 32) (y : RegIdx) : s.startY y = s.reg y % 32 := by
  rw [State.startY, h]; exact Nat.and_two_pow_sub_one_eq_mod _ 5

theorem spriteRowCollides_iff (s : State) (top r left : Nat) :
    spriteRowCollides s top r left = true ↔ ∃ px py, px < s.cfg.fbWidth ∧ py < s.cfg.fbHeight ∧
      py = top + r ∧ spriteCovers (spriteByte s r) left px = true ∧ s.pixel px py = true := by
  simp only [spriteRowCollides, Bool.and_eq_true, decide_eq_true_eq, List.any_eq_true, List.mem_range]
  constructor
  · rintro ⟨h, px, hp, h1, h2⟩; exact ⟨px, _, hp, h, rfl, h1, h2⟩
  · rintro ⟨px, _, hp, h, rfl, h1, h2⟩; exact ⟨h, px, hp, h1, h2⟩

/-- VF before row `j` of a `TEXT_ORDER` draw with X the flag register is 1 exactly when an earlier row covered a pixel that was
on. -/
theorem spriteFlagBefore_iff (s : State) (top j : Nat) :
    spriteFlagBefore s top j = true ↔
      ∃ px py, rowsBefore s top (fun i => flagColumn s (spriteFlagBefore s top i)) j px py ∧ s.pixel px py = true := by
  induction j with
  | zero => simp [spriteFlagBefore, rowsBefore]
  | succ j ih =>
    rw [spriteFlagBefore, Bool.or_eq_true, ih, spriteRowCollides_iff]
    constructor
    · rintro (⟨px, py, ⟨h0, h0', i, hi, h1, h2⟩, h3⟩ | ⟨px, py, h0, h0', h1, h2, h3⟩)
      · exact ⟨px, py, ⟨h0, h0', i, by omega, h1, h2⟩, h3⟩
      · exact ⟨px, py, ⟨h0, h0', j, by omega, h1, h2⟩, h3⟩
    · rintro ⟨px, py, ⟨h0, h0', i, hi, h1, h2⟩, h3⟩
      by_cases hij : i = j
      · subst hij; exact .inr ⟨px, py, h0, h0', h1, h2, h3⟩
      · exact .inl ⟨px, py, ⟨h0, h0', i, by omega, h1, h2⟩, h3⟩

/-! ## The draw instruction -/

/-- Under either order a draw is a sequence of sprite rows from row `spriteTop`, started with VF reset, whose columns are those
of `spriteLeft` (R129). -/
theorem execDraw_rows (s : State) (x y : RegIdx) (n : Fin 16) : ∃ col,
    execDraw x y n s = finish (State.drawRows col n.val 0 (spriteTop s y) (s.setFlag false)) ∧
    ∀ j u, Toggled (rowsBefore (s.setFlag false) (spriteTop s y) (spriteLeft s x (spriteTop s y)) j) (s.setFlag false) u →
      col u = spriteLeft s x (spriteTop s y) j := by
  cases ho : s.cfg.drawOrder with
  | latchFirst =>
    exact ⟨fun _ => s.startX x, by simp only [execDraw, spriteTop, ho], fun j u _ => by simp only [spriteLeft, ho]⟩
  | textOrder =>
    have htop : (s.setFlag false).startY y = spriteTop s y := by
      by_cases hy : (y : Nat) = s.cfg.flagReg <;> simp [spriteTop, ho, State.startY, hy]
    refine ⟨fun t => t.startX x, by simp only [execDraw, ho, htop], fun j u hu => ?_⟩
    have hc : u.cfg = s.cfg := by rw [hu.rest]; rfl
    show u.startX x = _
    by_cases hx : (x : Nat) = s.cfg.flagReg
    · have hL : spriteLeft s x (spriteTop s y) = fun r => flagColumn s (spriteFlagBefore s (spriteTop s y) r) := by
        funext r; simp [spriteLeft, ho, hx]
      rw [hL] at hu ⊢
      have hiff := spriteFlagBefore_iff s (spriteTop s y) j
      rw [State.startX, hx, hc]
      cases hf : spriteFlagBefore s (spriteTop s y) j with
      | true =>
        have := hu.flagOn (hiff.mp hf)
        rw [State.setFlag_eq, State.setReg_cfg] at this
        rw [this]; simp [flagColumn, hf]
      | false =>
        have := hu.flagKept fun px py h => by
          by_contra hne
          rw [hiff.mpr ⟨px, py, h, by simpa using hne⟩] at hf; cases hf
        rw [State.setFlag_eq, State.setReg_cfg] at this
        rw [this]; simp [flagColumn, hf]
    · have := hu.regs x hx
      rw [State.startX, this, hc]; simp [spriteLeft, ho, hx, State.startX]

/-- The rows a draw covers are its touch set (R130). -/
theorem rowsBefore_iff_touches (s : State) (x y : RegIdx) (n : Fin 16) (px py : Nat) :
    rowsBefore (s.setFlag false) (spriteTop s y) (spriteLeft s x (spriteTop s y)) n.val px py ↔
      spriteTouches s x y n px py := by
  constructor
  · rintro ⟨h0, h0', i, hi, h1, h2⟩
    have : py - spriteTop s y = i := by omega
    exact ⟨h0, h0', by omega, by omega, by rw [this]; exact h2⟩
  · rintro ⟨h0, h0', h1, h2, h3⟩
    exact ⟨h0, h0', py - spriteTop s y, by omega, by omega, h3⟩

end Sys2Proof.Machine
end

