-- ==== Sys2Proof/Tests/Slice0.lean ====
section
/-! SUPPORT. The model's own tests. Expected values are those of spec/95_test_vectors.md (its ids V-… and W…) and of the
examples in the rules; words are written out from the fields of 30_encoding.md R69. Then, for every obligation with
hypotheses, a witness that meets them, one for each clause, at the boundary of its range. -/

namespace Sys2Proof.Machine.Test

/-! ## Helpers -/

/-- Reset with the instruction word at `pc` and some registers set. -/
def start (word : Nat) (regs : List (Nat × Nat)) : State :=
  regs.foldl (fun s p => s.setReg p.1 p.2) (State.reset.withFetchWord 16 word)

/-- The state an outcome reached. -/
def done : Host.Outcome State Fault Refusal → Option State
  | .next t => some t
  | .fault _ => none
  | .refused _ => none

/-- The fault an outcome ended in. -/
def raised : Host.Outcome State Fault Refusal → Option Fault
  | .next _ => none
  | .fault f => some f
  | .refused _ => none

/-- A reading of the state an outcome reached. -/
def seen {α : Type} (f : State → α) (o : Host.Outcome State Fault Refusal) : Option α := (done o).map f

/-- The state in classic mode. -/
def classic (s : State) : State := { s with cfg := { s.cfg with classicMode := true } }

/-- The state with `INDEX_OVERFLOW_FLAG` on. -/
def flagged (s : State) : State := { s with cfg := { s.cfg with indexOverflowFlag := true } }

/-- The state under `TEXT_ORDER` of the flag write. -/
def textOrder (s : State) : State := { s with cfg := { s.cfg with vfOrder := .textOrder } }

/-- The state under `LATCH_FIRST`. -/
def latchFirst (s : State) : State := { s with cfg := { s.cfg with drawOrder := .latchFirst } }

/-- The state under `OOB_POLICY` = `WRAP`. -/
def wrapping (s : State) : State := { s with cfg := { s.cfg with oobPolicy := .wrap } }

/-- The state with the call stack full. -/
def fullStack (s : State) : State := { s with sp := 16 }

/-- The state with key `k` down. -/
def withKeyDown (k : Nat) (s : State) : State := { s with down := writeAt false s.down k true }

/-- The state with the pressed edge of key `k` set. -/
def withEdge (k : Nat) (s : State) : State := { s with pressedEdge := writeAt false s.pressedEdge k true }

/-- A block of other sizes (R5): 2 stack entries, 4 keys, a 16 × 8 screen, V3 the flag register. -/
def small (s : State) : State :=
  { s with cfg := { s.cfg with stackDepth := 2, nKeys := 4, fbWidth := 16, fbHeight := 8, flagReg := 3 } }

/-- A block of other widths (R5): 8 registers of 4 bits, V7 the flag register, `pc` and `I` of 12 bits. -/
def narrow (s : State) : State :=
  { s with cfg := { s.cfg with nRegs := 8, regW := 4, flagReg := 7, pcW := 12, iW := 12 } }

/-- The number of pixels that are on. -/
def pixelsOn (s : State) : Nat := (s.fb.map fun row => row.countP id).sum

/-- An outcome with a state is a next state. -/
theorem next_of_done {o : Host.Outcome State Fault Refusal} (h : (done o).isSome = true) : ∃ t, o = .next t := by
  cases o with
  | next t => exact ⟨t, rfl⟩
  | fault f => cases h
  | refused r => cases h

/-- A host that polls just after each cpu period. -/
def pollEvery : HostRun where
  input k := .poll (1428572 * (k + 1))
  byte _ := 0

/-- The launch of an image that is one return, which finds the stack empty. -/
def returnLaunch : Launch where
  cfg := resetParams
  font := fontAtlas
  t0 := 0
  image := [0x00, 0xEE]

/-- The state that launch gives. -/
def returnLaunched : State := (returnLaunch.start.toOption).getD State.reset

theorem start_of_ok (h : returnLaunch.start.toOption.isSome = true) : returnLaunch.start = .ok returnLaunched := by
  unfold returnLaunched
  cases hs : returnLaunch.start with
  | ok s => rfl
  | error e => rw [hs] at h; cases h

/-- An outcome with a fault is that fault. -/
theorem fault_of_raised {o : Host.Outcome State Fault Refusal} {f : Fault} (h : raised o = some f) : o = .fault f := by
  cases o with
  | next t => cases h
  | fault g => cases h; rfl
  | refused r => cases h

/-- An image of `n` bytes. -/
def image (n : Nat) : List Byte := List.replicate n 0x60

theorem image_length (n : Nat) : (image n).length = n := List.length_replicate

/-! ## Well-formedness: the one check, and an ill-formed term that it refuses -/

theorem test_illformed_jumpOffset_refused : (Instr.jumpOffset 0x300 5).wellFormed = false := by decide

theorem test_wellformed_jumpOffset : (Instr.jumpOffset 0x300 3).wellFormed = true := by decide

/-! ## Decoding: every constructor's word, bit by bit (R69) -/

theorem test_decode_group0 :
    decode .nn 0b0000_0000_1110_0000 = .instr .clearScreen ∧ decode .nn 0b0000_0000_1110_1110 = .instr .ret := by decide

theorem test_decode_addresses :
    decode .nn 0b0001_0010_0011_0100 = .instr (.jump 0x234) ∧
    decode .nn 0b0010_1010_1011_1100 = .instr (.call 0xABC) ∧
    decode .nn 0b1010_0010_1111_0000 = .instr (.setIndex 0x2F0) ∧
    decode .nn 0b1011_1111_1000_0000 = .instr (.jumpOffset 0xF80 15) := by decide

theorem test_decode_immediates :
    decode .nn 0b0011_0001_0100_0010 = .instr (.skipEqImm 1 0x42) ∧
    decode .nn 0b0100_0001_0100_0011 = .instr (.skipNeqImm 1 0x43) ∧
    decode .nn 0b0110_1010_0010_1011 = .instr (.setImm 10 0x2B) ∧
    decode .nn 0b0111_0010_0010_0000 = .instr (.addImm 2 0x20) ∧
    decode .nn 0b1100_0011_0000_1111 = .instr (.random 3 0x0F) := by decide

theorem test_decode_two_registers :
    decode .nn 0b0101_0001_0010_1111 = .instr (.skipEqReg 1 2) ∧
    decode .nn 0b1001_0001_0010_0000 = .instr (.skipNeqReg 1 2) ∧
    decode .nn 0b1101_0100_1100_0111 = .instr (.draw 4 12 7) := by decide

theorem test_decode_group8 :
    decode .nn 0b1000_0001_0011_0000 = .instr (.setReg 1 3) ∧ decode .nn 0b1000_0001_0010_0001 = .instr (.orReg 1 2) ∧
    decode .nn 0b1000_0001_0010_0010 = .instr (.andReg 1 2) ∧ decode .nn 0b1000_0001_0010_0011 = .instr (.xorReg 1 2) ∧
    decode .nn 0b1000_0000_0001_0100 = .instr (.addReg 0 1) ∧ decode .nn 0b1000_0000_0001_0101 = .instr (.subReg 0 1) ∧
    decode .nn 0b1000_0001_0010_0110 = .instr (.shiftRight 1 2) ∧
    decode .nn 0b1000_0000_0001_0111 = .instr (.subRegReversed 0 1) ∧
    decode .nn 0b1000_0001_0010_1110 = .instr (.shiftLeft 1 2) := by decide

theorem test_decode_groupE :
    decode .nn 0b1110_0011_1001_1110 = .instr (.skipIfKeyDown 3) ∧
    decode .nn 0b1110_0011_1010_0001 = .instr (.skipIfKeyUp 3) := by decide

theorem test_decode_groupF :
    decode .nn 0b1111_0101_0000_0111 = .instr (.getDelay 5) ∧ decode .nn 0b1111_0011_0000_1010 = .instr (.waitKey 3) ∧
    decode .nn 0b1111_0101_0001_0101 = .instr (.setDelay 5) ∧ decode .nn 0b1111_0101_0001_1000 = .instr (.setSound 5) ∧
    decode .nn 0b1111_0010_0001_1110 = .instr (.addIndex 2) ∧ decode .nn 0b1111_0100_0010_1001 = .instr (.fontChar 4) ∧
    decode .nn 0b1111_1010_0011_0011 = .instr (.bcd 10) ∧ decode .nn 0b1111_0001_0101_0101 = .instr (.storeRegs 1) ∧
    decode .nn 0b1111_0001_0110_0101 = .instr (.loadRegs 1) := by decide

/-- V-DEC-2, V-DEC-6, V-DEC-7. -/
theorem test_decode_unassigned :
    decode .nn 0x0000 = .unassigned .group0 ∧ decode .nn 0x8128 = .unassigned .group8 ∧
    decode .nn 0xE000 = .unassigned .groupE ∧ decode .nn 0xF00B = .unassigned .groupF := by decide

/-- V-DEC-4, V-DEC-5. -/
theorem test_decode_group0_keys :
    decode .nn 0x05EE = .instr .ret ∧ decode .fullWord 0x05EE = .unassigned .group0 ∧
    decode .fullWord 0x00EE = .instr .ret := by decide

theorem test_encode_words :
    encode (.draw 0 1 5) = 0xD015 ∧ encode (.addReg 0 1) = 0x8014 ∧ encode (.jumpOffset 0x2F0 2) = 0xB2F0 ∧
    encode (.setImm 6 0x05) = 0x6605 ∧ encode (.loadRegs 2) = 0xF265 ∧ encode (.skipIfKeyUp 3) = 0xE3A1 := by decide

theorem test_decodeTableWord : decodeTableWord 16 0x1234 = some (.jump 0x234) ∧ decodeTableWord 16 0x8008 = none := by
  decide

/-! ## One tick of each instruction -/

set_option maxRecDepth 20000 in
/-- V-DRW-13, V-DRW-14. -/
theorem test_clearScreen :
    seen (fun t => (pixelsOn t, t.dirty, t.pc)) (tick ((start 0x00E0 []).togglePixel 0 0)) = some (0, true, 0x202) := by
  decide

/-- V-FLOW-7. -/
theorem test_ret_empty : raised (tick (start 0x00EE [])) = some (.stackUnderflow 0x200 (some 0x00EE)) := by decide

/-- The example of R90. -/
theorem test_ret :
    seen (fun t => (t.pc, t.sp)) (tick { start 0x00EE [] with sp := 1, stack := State.reset.stack.set 0 0x202 }) =
      some (0x202, 0) := by decide

/-- V-DEC-1. -/
theorem test_jump : seen State.pc (tick (start 0x1234 [])) = some 0x234 := by decide

/-- V-FLOW-4. -/
theorem test_call :
    seen (fun t => (t.pc, t.sp, t.stackAt 0)) (tick (start 0x2ABC [])) = some (0xABC, 1, 0x202) := by decide

/-- V-FLOW-6. -/
theorem test_call_full :
    raised (tick (fullStack (start 0x2300 []))) = some (.stackOverflow 0x200 (some 0x2300)) := by decide

/-- V-SKIP-1. -/
theorem test_skipEqImm :
    seen State.pc (tick (start 0x3142 [(1, 0x42)])) = some 0x204 ∧
    seen State.pc (tick (start 0x3143 [(1, 0x42)])) = some 0x202 := by decide

/-- V-SKIP-2. -/
theorem test_skipNeqImm :
    seen State.pc (tick (start 0x4142 [(1, 0x42)])) = some 0x202 ∧
    seen State.pc (tick (start 0x4100 [(1, 0x42)])) = some 0x204 := by decide

/-- V-DEC-8. -/
theorem test_skipEqReg : seen State.pc (tick (start 0x512F [(1, 7), (2, 7)])) = some 0x204 := by decide

/-- V-DEC-9, V-SKIP-5. -/
theorem test_skipNeqReg :
    seen State.pc (tick (start 0x912F [(1, 7), (2, 8)])) = some 0x204 ∧
    seen State.pc (tick (start 0x9330 [])) = some 0x202 := by decide

/-- The example of R107. -/
theorem test_setImm : seen (·.reg 10) (tick (start 0x6A2B [])) = some 0x2B := by decide

/-- V-ALU-2. -/
theorem test_addImm_keeps_flag :
    seen (fun t => (t.reg 0, t.reg 15)) (tick (start 0x7001 [(0, 0xFF), (15, 0x55)])) = some (0, 0x55) := by decide

/-- V-ALU-4. -/
theorem test_setReg : seen (·.reg 1) (tick (start 0x8130 [(3, 9)])) = some 9 := by decide

/-- V-ALU-5. -/
theorem test_or : seen (fun t => (t.reg 1, t.reg 15)) (tick (start 0x8121 [(1, 0xF0), (2, 0x0F), (15, 0x33)])) =
    some (0xFF, 0x33) := by decide

/-- The example of R111. -/
theorem test_and : seen (·.reg 1) (tick (start 0x8122 [(1, 0x3C), (2, 0x0F)])) = some 0x0C := by decide

/-- The example of R112, V-ALU-7. -/
theorem test_xor :
    seen (·.reg 1) (tick (start 0x8123 [(1, 0x3C), (2, 0x0F)])) = some 0x33 ∧
    seen (·.reg 1) (tick (start 0x8113 [(1, 0xF0)])) = some 0 := by decide

/-- W2, with the correction of 90_conflicts.md C1. -/
theorem test_addReg :
    seen (fun t => (t.reg 0, t.reg 15)) (tick (start 0x8014 [(0, 10), (1, 250)])) = some (4, 1) ∧
    seen (fun t => (t.reg 0, t.reg 15)) (tick (start 0x8014 [(0, 0x7F), (1, 0x80)])) = some (0xFF, 0) := by decide

/-- V-ALU-12, V-ALU-13. -/
theorem test_addReg_flag_register :
    seen (·.reg 15) (tick (textOrder (start 0x8F14 [(15, 0xFF), (1, 2)]))) = some 1 ∧
    seen (fun t => (t.reg 1, t.reg 15)) (tick (start 0x81F4 [(1, 0x10), (15, 5)])) = some (0x15, 0) := by decide

/-- W3, V-ALU-14. -/
theorem test_subReg :
    seen (fun t => (t.reg 0, t.reg 15)) (tick (start 0x8015 [(0, 5), (1, 10)])) = some (251, 0) ∧
    seen (fun t => (t.reg 0, t.reg 15)) (tick (start 0x8015 [(0, 10), (1, 10)])) = some (0, 1) := by decide

/-- V-ALU-16, V-ALU-17, V-ALU-18. -/
theorem test_subReg_orders :
    seen (·.reg 15) (tick (start 0x8F15 [(15, 5), (1, 3)])) = some 1 ∧
    seen (·.reg 15) (tick (textOrder (start 0x8F15 [(15, 5), (1, 3)]))) = some 254 ∧
    seen (fun t => (t.reg 1, t.reg 15)) (tick (textOrder (start 0x81F5 [(1, 5), (15, 3)]))) = some (4, 1) ∧
    seen (·.reg 15) (tick (textOrder (start 0x8FF5 [(15, 9)]))) = some 0 := by decide

/-- V-ALU-19, V-ALU-20. -/
theorem test_shiftRight :
    seen (fun t => (t.reg 1, t.reg 15)) (tick (start 0x8106 [(1, 0x01)])) = some (0, 1) ∧
    seen (fun t => (t.reg 1, t.reg 15)) (tick (classic (start 0x8126 [(1, 0xFF), (2, 0x04)]))) = some (2, 0) := by decide

/-- V-ALU-21, V-ALU-22, V-ALU-23. -/
theorem test_shiftRight_flag_register :
    seen (·.reg 15) (tick (start 0x8F06 [(15, 3)])) = some 1 ∧
    seen (·.reg 15) (tick (textOrder (start 0x8F06 [(15, 3)]))) = some 0 ∧
    seen (·.reg 15) (tick (classic (start 0x8F16 [(1, 5)]))) = some 1 ∧
    seen (fun t => (t.reg 1, t.reg 15)) (tick (classic (start 0x81F6 [(15, 5)]))) = some (2, 1) := by decide

/-- V-ALU-25, V-ALU-26. -/
theorem test_subRegReversed :
    seen (fun t => (t.reg 0, t.reg 15)) (tick (start 0x8017 [(0, 10), (1, 5)])) = some (251, 0) ∧
    seen (fun t => (t.reg 2, t.reg 15)) (tick (start 0x8227 [(2, 0x33)])) = some (0, 1) := by decide

/-- V-ALU-27, V-ALU-28. -/
theorem test_subRegReversed_orders :
    seen (·.reg 15) (tick (start 0x8F17 [(15, 3), (1, 5)])) = some 1 ∧
    seen (·.reg 15) (tick (textOrder (start 0x8F17 [(15, 3), (1, 5)]))) = some 4 ∧
    seen (fun t => (t.reg 1, t.reg 15)) (tick (textOrder (start 0x81F7 [(1, 3), (15, 5)]))) = some (254, 1) := by decide

/-- V-ALU-29, V-ALU-30. -/
theorem test_shiftLeft :
    seen (fun t => (t.reg 1, t.reg 15)) (tick (start 0x810E [(1, 0x40)])) = some (0x80, 0) ∧
    seen (fun t => (t.reg 1, t.reg 15)) (tick (classic (start 0x812E [(1, 0), (2, 0x81)]))) = some (2, 1) := by decide

/-- V-ALU-31. -/
theorem test_shiftLeft_flag_register :
    seen (·.reg 15) (tick (start 0x8F0E [(15, 0x81)])) = some 1 ∧
    seen (·.reg 15) (tick (textOrder (start 0x8F0E [(15, 0x81)]))) = some 2 := by decide

/-- V-IDX-1. -/
theorem test_setIndex : seen State.index (tick (start 0xAFFF [])) = some 0xFFF := by decide

/-- V-FLOW-9. -/
theorem test_jumpOffset :
    seen State.pc (tick (classic (start 0xB300 [(0, 4), (3, 8)]))) = some 0x304 ∧
    seen State.pc (tick (start 0xB300 [(0, 4), (3, 8)])) = some 0x308 := by decide

/-- V-FLOW-11. -/
theorem test_jumpOffset_above_memory : seen State.pc (tick (start 0xBFFF [(15, 0xFF)])) = some 0x10FE := by decide

/-- V-ALU-34: NN = 0 gives 0 whatever the free byte is, and one byte is drawn. -/
theorem test_random (s : State) :
    seen (fun t => (t.reg 3, t.draws)) (exec (.random 3 0) s) = some (0, s.draws + 1) := by
  simp [seen, done, exec, execRandom]

/-- The example of R118 with a byte that the host has supplied. -/
theorem test_random_host_byte :
    seen (fun t => (t.reg 3, t.hostBytes)) (tick { start 0xC30F [] with hostBytes := [0xAB, 0x01] }) = some (0x0B, [0x01]) := by
  decide

set_option maxRecDepth 20000 in
/-- V-DRW-1; and V-DRW-9 with the byte F0 of glyph 0. -/
theorem test_draw :
    seen (fun t => (pixelsOn t, t.pixel 0 0, t.pixel 4 0, t.pixel 1 1, t.reg 15, t.dirty))
      (tick ((start 0xD015 []).setIndex 0x050)) = some (14, true, false, false, 0, true) ∧
    seen (fun t => (pixelsOn t, t.pixel 5 3, t.pixel 6 3, t.reg 15))
      (tick (((start 0xD011 [(0, 5), (1, 3)]).setIndex 0x050).togglePixel 5 3)) = some (3, false, true, 1) := by decide

set_option maxRecDepth 20000 in
/-- V-DRW-4 and V-DRW-5 with the byte F0 of glyph 0, V-DRW-8, V-DRW-11. -/
theorem test_draw_edges :
    seen (fun t => (pixelsOn t, t.pixel 6 1, t.pixel 9 1)) (tick ((start 0xD011 [(0, 70), (1, 33)]).setIndex 0x050)) =
      some (4, true, true) ∧
    seen (fun t => (pixelsOn t, t.pixel 62 0, t.pixel 63 0)) (tick ((start 0xD011 [(0, 62)]).setIndex 0x050)) =
      some (2, true, true) ∧
    raised (tick ((start 0xD015 [(1, 29)]).setIndex 0xFFE)) =
      some (.memOutOfRange .read 0x1000 0x200 (some 0xD015)) ∧
    seen (fun t => (t.pixel 0 0, t.pixel 32 0)) (tick (latchFirst ((start 0xDF11 [(15, 0x20)]).setIndex 0x050))) =
      some (false, true) := by decide

/-- V-SKIP-7, V-SKIP-8. -/
theorem test_skipIfKeyDown :
    seen State.pc (tick (withKeyDown 10 (start 0xE39E [(3, 10)]))) = some 0x204 ∧
    seen State.pc (tick (withEdge 10 (start 0xE39E [(3, 10)]))) = some 0x202 := by decide

/-- V-SKIP-10. -/
theorem test_skipIfKeyDown_number :
    raised (tick (start 0xE09E [(0, 16)])) = some (.keyIndexOutOfRange 16 0x200 (some 0xE09E)) := by decide

/-- V-SKIP-9, V-SKIP-11. -/
theorem test_skipIfKeyUp :
    seen State.pc (tick (start 0xE0A1 [(0, 15)])) = some 0x204 ∧
    raised (tick (start 0xE0A1 [(0, 255)])) = some (.keyIndexOutOfRange 255 0x200 (some 0xE0A1)) := by decide

/-- V-TK-1. -/
theorem test_getDelay : seen (·.reg 5) (tick ((start 0xF507 []).setDt 0x3C)) = some 0x3C := by decide

/-- V-TK-7. -/
theorem test_waitKey_least :
    seen (fun t => (t.reg 0, t.pc)) (tick (withEdge 9 (withEdge 3 (start 0xF00A [])))) = some (3, 0x202) := by decide

/-- V-TK-8. -/
theorem test_waitKey_waits : seen State.pc (tick (withKeyDown 5 (start 0xF00A []))) = some 0x200 := by decide

/-- The example of R132. -/
theorem test_setDelay : seen State.dt (tick (start 0xF515 [(5, 0x3C)])) = some 0x3C := by decide

/-- V-TK-3. -/
theorem test_setSound : seen (fun t => (t.st, t.soundOn)) (tick (start 0xF518 [(5, 2)])) = some (2, true) := by decide

/-- V-IDX-3. -/
theorem test_addIndex :
    seen (fun t => (t.index, t.reg 15)) (tick (flagged ((start 0xF01E [(0, 0xFF), (15, 7)]).setIndex 0xF01))) =
      some (0x1000, 1) ∧
    seen (fun t => (t.index, t.reg 15)) (tick ((start 0xF01E [(0, 0xFF), (15, 7)]).setIndex 0xF01)) =
      some (0x1000, 7) := by decide

/-- V-IDX-2, V-IDX-4. -/
theorem test_addIndex_below :
    seen (fun t => (t.index, t.reg 15)) (tick (flagged ((start 0xF01E [(0, 0xFF), (15, 7)]).setIndex 0xF00))) =
      some (0xFFF, 7) ∧
    seen (fun t => (t.index, t.reg 15)) (tick (flagged ((start 0xF01E [(0, 1), (15, 7)]).setIndex 0xFFFF))) =
      some (0, 7) := by decide

/-- V-IDX-7. -/
theorem test_fontChar :
    seen State.index (tick (start 0xF029 [(0, 15)])) = some 0x09B ∧
    seen State.index (tick (start 0xF029 [(0, 255)])) = some 0x54B := by decide

/-- W5. -/
theorem test_bcd :
    seen (fun t => (t.byteAt 0x300, t.byteAt 0x301, t.byteAt 0x302, t.index))
      (tick ((start 0xF533 [(5, 234)]).setIndex 0x300)) = some (2, 3, 4, 0x300) := by decide

/-- V-IDX-9. -/
theorem test_bcd_outOfRange :
    raised (tick ((start 0xF033 [(0, 123)]).setIndex 0xFFE)) =
      some (.memOutOfRange .write 0x1000 0x200 (some 0xF033)) ∧
    seen (fun t => (t.byteAt 0xFFE, t.byteAt 0)) (tick (wrapping ((start 0xF033 [(0, 123)]).setIndex 0xFFE))) =
      some (1, 3) := by decide

/-- The example of R124. -/
theorem test_storeRegs :
    seen (fun t => (t.byteAt 0x300, t.byteAt 0x301, t.index))
      (tick (classic ((start 0xF155 [(0, 1), (1, 2)]).setIndex 0x300))) = some (1, 2, 0x302) := by decide

/-- V-IDX-16: the font is writable. -/
theorem test_storeRegs_font :
    seen (fun t => (t.byteAt 0x050, t.index)) (tick ((start 0xF055 [(0, 0xFF)]).setIndex 0x050)) =
      some (0xFF, 0x050) := by decide

/-- V-IDX-12. -/
theorem test_loadRegs :
    seen (fun t => (t.reg 0, t.reg 1, t.index))
      (tick ((((start 0xF165 []).setIndex 0x300).setByte 0x300 7).setByte 0x301 9)) = some (7, 9, 0x300) := by decide

/-- V-IDX-15. -/
theorem test_loadRegs_outOfRange :
    raised (tick ((start 0xF065 []).setIndex 0x1000)) = some (.memOutOfRange .read 0x1000 0x200 (some 0xF065)) ∧
    seen (·.reg 0) (tick (wrapping ((start 0xF065 []).setIndex 0x1050))) = some 0xF0 := by decide

/-! ## Fetch, poll, keys and the fault record -/

/-- V-DEC-2, V-DEC-12, V-DEC-13. -/
theorem test_fetch :
    seen State.pc (tick State.reset) = some 0x202 ∧
    raised (tick (State.reset.setPc 0x1000)) = some (.memOutOfRange .fetch 0x1000 0x1000 none) ∧
    raised (tick (State.reset.setPc 0xFFF)) = some (.memOutOfRange .fetch 0x1000 0xFFF none) := by decide

/-- V-SCH-1, V-SCH-2, V-SCH-4. -/
theorem test_poll_clocks :
    seen (fun t => (t.kCpu, t.kTimer, t.kFrame)) (poll 1428571 State.reset) = some (0, 0, 0) ∧
    seen (fun t => (t.kCpu, t.kTimer, t.kFrame)) (poll 1428572 State.reset) = some (1, 0, 0) ∧
    seen (fun t => (t.kCpu, t.kTimer, t.kFrame)) (poll 16666667 State.reset) = some (1, 1, 1) := by decide

/-- V-SCH-7: the instruction reads DT before the same poll's decay. -/
theorem test_poll_order :
    seen (fun t => (t.reg 0, t.dt)) (poll 16666667 ((start 0xF007 []).setDt 5)) = some (5, 4) := by decide

/-- V-SCH-9: a dirty framebuffer is handed over once. -/
theorem test_poll_repaint :
    seen (fun t => (t.dirty, t.repaint.isSome)) (poll 16666667 (start 0x00E0 [])) = some (false, true) := by decide

/-- V-SCH-10: the faulting poll counts no clock, and the state records the fault for good. -/
theorem test_fault_is_final :
    (start 0x00EE []).afterStep.fault = some (.stackUnderflow 0x200 (some 0x00EE)) ∧
    (start 0x00EE []).afterStep.afterStep.kCpu = 0 := by decide

/-- V-IDX-9, V-IDX-14: the bytes before the faulting one are in place. -/
theorem test_fault_leaves_earlier_bytes :
    (let t := ((start 0xF033 [(0, 123)]).setIndex 0xFFE).afterStep
     (t.byteAt 0xFFE, t.byteAt 0xFFF, t.pc, t.fault.isSome)) = (1, 2, 0x202, true) ∧
    (let t := ((start 0xF155 [(0, 1), (1, 2)]).setIndex 0xFFF).afterStep
     (t.byteAt 0xFFF, t.index)) = (1, 0xFFF) := by decide

/-- V-DRW-8: the rows before the faulting one are drawn. -/
theorem test_fault_leaves_earlier_rows :
    (let t := (((start 0xD015 [(1, 29)]).setIndex 0xFFE).setByte 0xFFF 0x80).afterStep
     (t.pixel 0 29, t.pixel 0 30, t.dirty, t.kCpu)) = (false, true, true, 0) := by decide

/-- The rules at those sizes: overflow of the third call, key 4 no key, a sprite from 17 starting at 1 and clipped at row 7, the
carry in V3. -/
theorem test_small_block :
    raised (tick { small (start 0x2300 []) with sp := 2 }) = some (.stackOverflow 0x200 (some 0x2300)) ∧
    raised (tick (small (start 0xE09E [(0, 4)]))) = some (.keyIndexOutOfRange 4 0x200 (some 0xE09E)) ∧
    seen (fun t => (t.pixel 1 7, t.pixel 4 7, t.pixel 5 7, t.pixel 1 8))
      (tick (small ((start 0xD015 [(0, 17), (1, 15)]).setIndex 0x050))) = some (true, true, false, false) ∧
    seen (fun t => (t.reg 0, t.reg 3, t.reg 15)) (tick (small (start 0x8014 [(0, 10), (1, 250)]))) = some (4, 1, 0) := by
  decide

/-- The rules at those widths: sum, carry and shifted-out bit of 4 bits, the flag in V7, `pc` and `I` modulo 4096, and V8 absent. -/
theorem test_narrow_block :
    seen (fun t => (t.reg 0, t.reg 7)) (tick (narrow (start 0x8014 [(0, 10), (1, 9)]))) = some (3, 1) ∧
    seen (fun t => (t.reg 0, t.reg 7)) (tick (narrow (start 0x800E [(0, 9)]))) = some (2, 1) ∧
    seen (fun t => (t.reg 0, t.reg 7)) (tick (narrow (start 0x8015 [(0, 1), (1, 2)]))) = some (15, 0) ∧
    seen State.index (tick (narrow ((start 0xF01E [(0, 2)]).setIndex 0xFFF))) = some 1 ∧
    seen State.pc (tick (narrow (start 0xB7FF [(7, 3)]))) = some 0x802 ∧
    seen State.pc (tick ((narrow (State.reset.setPc 0xFFE)).withFetchWord 16 0x3000)) = some 2 ∧
    seen State.pc (tick (narrow (start 0x8834 []))) = none ∧ registersPresent (narrow State.reset).cfg (.addReg 8 3) = false := by
  decide

set_option maxRecDepth 20000 in
/-- A launch with a memory of 0x400 bytes, the font at 0x100 and programs at 0x300: the font, the image, zeroed memory, `pc`. -/
theorem test_launch_other_places :
    (match launch { resetParams with memSize := 0x400, fontBase := 0x100, progBase := 0x300 } fontAtlas 7 [0x12, 0x34] with
      | .ok t => (t.byteAt 0x100, t.byteAt 0x14F, t.byteAt 0x301, t.byteAt 0x050, t.pc, t.t0)
      | .error _ => (0, 0, 0, 0, 0, 0)) = (0xF0, 0x80, 0x34, 0, 0x300, 7) := by decide

/-- V-TK-9, V-TK-10. -/
theorem test_key_events :
    (((State.reset.press 4).release 4).keyDown 4, ((State.reset.press 4).release 4).keyPressed 4,
      ((State.reset.press 4).release 4).keyReleased 4) = (false, true, true) ∧
    ((withKeyDown 4 State.reset).press 4).keyPressed 4 = false := by decide

/-- The first step from reset polls when the cpu clock is due and runs the word of the host's choice there. -/
theorem test_step_runs_fetch_word :
    seen (fun t => (t.reg 10, t.pc, t.kCpu, t.lastNow)) (step (State.reset.withFetchWord 16 0x6A2B)) =
      some (0x2B, 0x202, 1, 1428572) := by decide

/-! ## Witnesses: a concrete input for the hypotheses of every obligation that has some -/

theorem witness_DecodeOfEncodeIsTheInstruction :
    (Instr.jumpOffset 0xFFF 15).wellFormed = true ∧ (Instr.draw 15 0 15).wellFormed = true := by decide

/-- One word for each of the three clauses. -/
theorem witness_DecodedWordIsEncodedButForUndecodedBits :
    decode .fullWord 0x00E0 = .instr .clearScreen ∧ decode .nn 0x0FEE = .instr .ret ∧
    decode .nn 0x9F0F = .instr (.skipNeqReg 15 0) := by decide

theorem witness_FetchIsBigEndianAtAnyAddress : (State.reset.setPc 0xFFE).pc + 1 < State.reset.cfg.memSize := by decide

/-- The three clauses, at their boundaries. -/
theorem witness_FetchOutOfRangeFaultsOrWraps :
    (State.reset.setPc 0x1000).cfg.oobPolicy = .fault ∧ State.reset.cfg.memSize ≤ (State.reset.setPc 0x1000).pc ∧
    (State.reset.setPc 0xFFF).pc + 1 = State.reset.cfg.memSize ∧
    (wrapping (State.reset.setPc 0xFFFF)).cfg.oobPolicy = .wrap := by decide

/-- Both ways in which the poll's time is given. -/
theorem witness_StepRunsTheDecodedInstruction :
    let s := start 0x6A2B []
    let q := s.setInputs [.poll 1428572, .press 3]
    (s.fault = none ∧ s.hostInputs = [] ∧ s.lastNow ≤ s.nextCpuTime ∧
      due s.cfg.cpuHz s.kCpu s.t0 s.nextCpuTime = true ∧ decode s.cfg.group0Key 0x6A2B = .instr (.setImm 10 0x2B)) ∧
    (q.fault = none ∧ q.hostInputs = .poll 1428572 :: [.press 3] ∧ q.lastNow ≤ 1428572 ∧
      due q.cfg.cpuHz q.kCpu q.t0 1428572 = true) := by decide

theorem witness_StepRunsTheDecodedInstruction_absent :
    registersPresent (narrow (start 0x6A2B [])).cfg (.setImm 10 0x2B) = false ∧
    registersPresent (narrow (start 0x6A2B [])).cfg (.setImm 7 0x2B) = true ∧ 16 ≤ State.reset.cfg.nRegs := by decide

theorem witness_StepRunsTheDecodedInstruction_fetch : (start 0x6A2B []).fetch = .ok 0x6A2B ∧ (narrow (start 0x6A2B [])).fetch = .ok 0x6A2B := ⟨rfl, rfl⟩

/-- A poll whose cpu clock is not due, one that fetches an unassigned word, and no input. -/
theorem witness_StepIsTheWaitingPoll :
    let s := State.reset.setInputs [.poll 5, .release 2]
    s.fault = none ∧ s.hostInputs = .poll 5 :: [.release 2] ∧ due s.cfg.cpuHz s.kCpu s.t0 5 = false ∧
    (State.reset.setInputs [.poll 1428572]).hostInputs = .poll 1428572 :: [] ∧ State.reset.hostInputs = [] := by decide

/-- One fault for each of the clauses: the word's fetch and decoding, and the fault of its instruction. -/
theorem witness_FaultRecordsItsAddressAndWord :
    let fault (s : State) (i : Instr) := raised (exec i (s.setPc (s.pc + 2)))
    decode .nn 0x2300 = .instr (.call 0x300) ∧
    fault (fullStack (start 0x2300 [])) (.call 0x300) = some (.stackOverflow 0x200 none) ∧
    decode .nn 0x00EE = .instr .ret ∧ fault (start 0x00EE []) .ret = some (.stackUnderflow 0x200 none) ∧
    decode .nn 0xE09E = .instr (.skipIfKeyDown 0) ∧
    fault (start 0xE09E [(0, 16)]) (.skipIfKeyDown 0) = some (.keyIndexOutOfRange 16 0x200 none) ∧
    decode .nn 0xF065 = .instr (.loadRegs 0) ∧
    fault ((start 0xF065 []).setIndex 0x1000) (.loadRegs 0) = some (.memOutOfRange .read 0x1000 0x200 none) := by decide

theorem witness_FaultRecordsItsAddressAndWord_fetch :
    (fullStack (start 0x2300 [])).fetch = .ok 0x2300 ∧ (start 0x00EE []).fetch = .ok 0x00EE ∧
    (start 0xE09E [(0, 16)]).fetch = .ok 0xE09E ∧ ((start 0xF065 []).setIndex 0x1000).fetch = .ok 0xF065 :=
  ⟨rfl, rfl, rfl, rfl⟩

theorem witness_UnassignedWordIsANoOp :
    State.reset.fetch = .ok 0x0000 ∧ decode State.reset.cfg.group0Key 0x0000 = .unassigned .group0 := ⟨rfl, rfl⟩

theorem witness_IdleHostPollsWhenTheCpuFallsDue :
    0 < State.reset.cfg.cpuHz ∧ State.reset.t0 ≤ State.reset.lastNow ∧ State.reset.lastNow ≤ 1428571 ∧
    1428571 < State.reset.nextCpuTime := by decide

/-- The default, the narrowest register that holds every NN. -/
theorem witness_SetImmAndAddImm : 8 ≤ State.reset.cfg.regW := by decide

theorem witness_AddRegWritesSumThenCarry : (14 : Nat) ≠ State.reset.cfg.flagReg := by decide

/-- The default, and the narrowest `pc` that holds every target. -/
theorem witness_JumpSetsPc : 12 ≤ State.reset.cfg.pcW ∧ 12 ≤ (narrow State.reset).cfg.pcW := by decide

/-- Both orders, with X and Y the flag register and another one. -/
theorem witness_SubRegInBothOrders :
    State.reset.cfg.vfOrder = .flagLast ∧ (textOrder State.reset).cfg.vfOrder = .textOrder ∧
    (3 : Nat) ≠ State.reset.cfg.flagReg := by decide

theorem witness_SubRegReversedInBothOrders :
    State.reset.cfg.vfOrder = .flagLast ∧ (textOrder State.reset).cfg.vfOrder = .textOrder ∧
    (14 : Nat) ≠ State.reset.cfg.flagReg := by decide

theorem witness_ShiftRightInBothModesAndOrders :
    (14 : Nat) ≠ State.reset.cfg.flagReg ∧ State.reset.cfg.vfOrder = .flagLast ∧ (textOrder State.reset).cfg.vfOrder = .textOrder ∧
    (classic State.reset).cfg.classicMode = true ∧ State.reset.cfg.classicMode = false := by decide

theorem witness_ShiftLeftInBothModesAndOrders :
    (0 : Nat) ≠ State.reset.cfg.flagReg ∧ State.reset.cfg.vfOrder = .flagLast ∧ (textOrder State.reset).cfg.vfOrder = .textOrder ∧
    (classic State.reset).cfg.classicMode = true ∧ State.reset.cfg.classicMode = false := by decide

/-- The last free entry, and the full stack. -/
theorem witness_CallPushesOrOverflows :
    ({ State.reset with sp := 15 } : State).sp < State.reset.cfg.stackDepth ∧
    State.reset.cfg.stackDepth ≤ (fullStack State.reset).sp := by decide

theorem witness_ReturnPopsOrUnderflows :
    0 < ({ State.reset with sp := 1 } : State).sp ∧ 0 < (fullStack State.reset).sp ∧ State.reset.sp = 0 := by decide

theorem witness_JumpOffsetAddsTheSelectedRegister : (Instr.jumpOffset 0xF80 15).wellFormed = true := by decide

/-- A call, and a state a later instruction leaves. -/
theorem witness_ReturnComesBackAfterTheCall :
    ∃ t, exec (.call 0x300) State.reset = .next t ∧ (t.setReg 3 7).sp = t.sp ∧ (t.setReg 3 7).stack = t.stack ∧
      (t.setReg 3 7).cfg.pcW = t.cfg.pcW :=
  ⟨_, rfl, rfl, rfl, rfl⟩

theorem witness_SkipsOnAKey :
    (State.reset.setReg 3 15).reg 3 < State.reset.cfg.nKeys ∧ State.reset.cfg.nKeys ≤ (State.reset.setReg 3 16).reg 3 := by decide

/-- The defaults, and the narrowest `I` that holds every NNN. -/
theorem witness_SetIndexAndFontChar :
    12 ≤ (narrow State.reset).cfg.iW ∧ 12 ≤ State.reset.cfg.iW ∧ State.reset.cfg.fontBase = 0x050 ∧
    State.reset.cfg.glyphBytes = 5 ∧ State.reset.cfg.regW = 8 ∧ State.reset.cfg.iW = 16 := by decide

/-- The last addresses in range under `FAULT`, and any under `WRAP`. -/
theorem witness_BcdStoresThreeDigits :
    AccessibleFromIndex (State.reset.setIndex 0xFFD) 3 ∧ AccessibleFromIndex (wrapping (State.reset.setIndex 0xFFFF)) 3 ∧
    3 ≤ State.reset.cfg.memSize := by
  unfold AccessibleFromIndex Accessible; decide

theorem witness_StoreRegsStoresV0ToVX :
    AccessibleFromIndex (State.reset.setIndex 0xFF0) ((15 : RegIdx).val + 1) ∧
    AccessibleFromIndex (State.reset.setIndex 0xFFF) ((0 : RegIdx).val + 1) ∧
    (15 : RegIdx).val < State.reset.cfg.memSize := by
  unfold AccessibleFromIndex Accessible; decide

theorem witness_LoadRegsLoadsV0ToVX :
    AccessibleFromIndex (State.reset.setIndex 0xFF0) ((15 : RegIdx).val + 1) ∧
    AccessibleFromIndex (wrapping (State.reset.setIndex 0x1000)) ((0 : RegIdx).val + 1) := by
  unfold AccessibleFromIndex Accessible; decide

theorem witness_TransfersOutOfRangeFault :
    State.reset.cfg.oobPolicy = .fault ∧ State.reset.cfg.memSize < (State.reset.setIndex 0xFFE).index + 3 ∧
    State.reset.cfg.memSize < (State.reset.setIndex 0xFF1).index + ((15 : RegIdx).val + 1) ∧
    State.reset.cfg.memSize < (State.reset.setIndex 0x1000).index + ((0 : RegIdx).val + 1) := by decide

/-- V-DRW-7: the two rows that are read lie at the end of memory. -/
theorem witness_DrawTogglesExactlyItsTouchSet :
    AccessibleFromIndex ((State.reset.setReg 1 30).setIndex 0xFFE)
      (spriteRowsRead ((State.reset.setReg 1 30).setIndex 0xFFE) 1 5) := by
  unfold AccessibleFromIndex Accessible; decide

/-- V-DRW-8; V-DRW-7, where the three clipped rows lie past the end of memory; and no row at all. -/
theorem witness_DrawOutOfRangeFaults :
    let s := (State.reset.setReg 1 29).setIndex 0xFFE
    let q := (State.reset.setReg 1 30).setIndex 0xFFE
    s.cfg.oobPolicy = .fault ∧ 0 < spriteRowsRead s 1 5 ∧ s.cfg.memSize < s.index + spriteRowsRead s 1 5 ∧
    q.cfg.oobPolicy = .fault ∧ q.index + spriteRowsRead q 1 5 = q.cfg.memSize ∧ spriteRowsRead q 1 0 = 0 := by decide

theorem witness_DrawTwiceRestoresEveryPixel :
    (0 : Nat) ≠ State.reset.cfg.flagReg ∧ (1 : Nat) ≠ State.reset.cfg.flagReg ∧ 0 < State.reset.cfg.regW ∧
    ∃ t, exec (.draw 0 1 1) (State.reset.setIndex 0x050) = .next t :=
  ⟨by decide, by decide, by decide, _, rfl⟩

/-- The least key, the greatest key, and no key. -/
theorem witness_WaitKeyTakesTheLeastPressedKeyOrStays :
    (0 < State.reset.cfg.nKeys ∧ (withEdge 0 (withEdge 9 State.reset)).keyPressed 0 = true) ∧
    (15 < State.reset.cfg.nKeys ∧ (withEdge 15 State.reset).keyPressed 15 = true ∧
      ∀ j, j < 15 → (withEdge 15 State.reset).keyPressed j = false) ∧
    ∀ k, k < State.reset.cfg.nKeys → State.reset.keyPressed k = false := by decide

/-- The greatest key pressed, the least released, and the least number that is no key. -/
theorem witness_KeyEventsChangeOnlyTheirKey :
    let s := State.reset.setInputs [.press 15]
    let q := (withKeyDown 0 State.reset).setInputs [.release 0, .poll 5]
    s.fault = none ∧ s.hostInputs = .press 15 :: [] ∧ q.fault = none ∧
    q.hostInputs = .release 0 :: [.poll 5] ∧ 15 < s.cfg.nKeys ∧ 0 < q.cfg.nKeys ∧
    (State.reset.setInputs [.press 16]).hostInputs = .press 16 :: [] ∧ State.reset.cfg.nKeys ≤ 16 := by decide

theorem witness_EdgesClearAfterTheCycleTickOnly :
    (∃ u, tick (withEdge 4 (start 0x6A2B [])) = .next u) ∧ (withEdge 4 State.reset).lastNow ≤ 1428571 ∧
    due (withEdge 4 State.reset).cfg.cpuHz (withEdge 4 State.reset).kCpu (withEdge 4 State.reset).t0 1428571 = false :=
  ⟨⟨_, rfl⟩, by decide, by decide⟩

/-- A poll in which every clock is due, and one in which none is. -/
theorem witness_PollRunsCycleThenTimerThenFrame :
    ((start 0x00E0 []).lastNow ≤ 16666667 ∧ due 700 0 0 16666667 = true ∧ due 60 0 0 16666667 = true ∧
      ∃ u, cycleAction (start 0x00E0 []).clearRepaint = .next u) ∧
    (State.reset.lastNow ≤ 1428571 ∧ due 700 0 0 1428571 = false) :=
  ⟨⟨by decide, by decide, by decide, _, rfl⟩, by decide, by decide⟩

theorem witness_EachClockFiresOnceIffDue : (done (poll 16666667 (start 0x6A2B []))).isSome = true := by decide

/-- Exact counts at 0, polled again after just under one cpu period, which is within every clock's period. -/
theorem witness_PunctualPollsKeepEveryClockExact :
    (done (poll 1428571 (start 0x6A2B []))).isSome = true ∧ (start 0x6A2B []).t0 ≤ (start 0x6A2B []).lastNow ∧
    (start 0x6A2B []).kCpu = exactFirings 700 0 0 ∧ (1428571 - 0) * 700 ≤ 1000000000 ∧
    (16666666 - 0) * 60 ≤ 1000000000 := by decide

theorem witness_FaultEndsThePollAndTheRun :
    (start 0x00EE []).lastNow ≤ 1428572 ∧ due 700 0 0 1428572 = true ∧
    raised (tick (start 0x00EE []).clearRepaint) = some (.stackUnderflow 0x200 (some 0x00EE)) ∧
    raised (step (start 0x00EE [])) = some (.stackUnderflow 0x200 (some 0x00EE)) := by decide

set_option maxRecDepth 20000 in
/-- A launched program that faults at its first tick, and a claim whose end point it has not reached. -/
theorem witness_FaultEndsThePollAndTheRun_claim :
    returnLaunch.start = .ok returnLaunched ∧
    pollEvery.outcome returnLaunched 1 = .fault (.stackUnderflow 0x200 (some 0x00EE)) ∧
    ∀ m, m < 1 → ¬ pollEvery.atEnd returnLaunched (.parked 0x300) m := by
  have hpc : returnLaunched.pc = 0x200 := by decide
  refine ⟨start_of_ok (by decide), fault_of_raised (by decide), fun m hm => ?_⟩
  rintro ⟨t, ht, hp, -⟩
  obtain rfl : m = 0 := by omega
  cases ht
  rw [hpc] at hp; cases hp

theorem witness_DecreasingTimeIsRefused : 4 < (State.reset.setLastNow 5).lastNow := by decide

theorem witness_OnlyCallAndReturnTouchTheStack :
    (∃ t, exec (.jump 0x234) State.reset = .next t) ∧ Instr.jump 0x234 ≠ .ret ∧ ∀ nnn, Instr.jump 0x234 ≠ .call nnn :=
  ⟨⟨_, rfl⟩, by decide, nofun⟩

theorem witness_OnlyClearAndDrawTouchTheDisplay :
    (∃ t, exec (.setSound 2) State.reset = .next t) ∧ Instr.setSound 2 ≠ .clearScreen ∧
    ∀ x y n, Instr.setSound 2 ≠ .draw x y n :=
  ⟨⟨_, rfl⟩, by decide, nofun⟩

/-- One instruction for each of the clauses. -/
theorem witness_OnlyIndexInstructionsWriteIndex :
    seen (fun t => decide (t.index ≠ State.reset.index)) (exec (.setIndex 1) State.reset) = some true ∧
    seen (fun t => decide (t.index ≠ 0)) (exec (.addIndex 0) (State.reset.setReg 0 1)) = some true ∧
    seen (fun t => decide (t.index ≠ 0)) (exec (.fontChar 0) State.reset) = some true ∧
    seen (fun t => decide (t.index ≠ 0)) (exec (.loadRegs 0) (classic State.reset)) = some true := by decide

theorem witness_OnlyTheirInstructionsWriteMemoryAndTimers :
    (∃ t, exec (.random 3 0x0F) State.reset = .next t) ∧ (∀ x, Instr.random 3 0x0F ≠ .bcd x) ∧
    (∀ x, Instr.random 3 0x0F ≠ .storeRegs x) ∧ (∀ x, Instr.random 3 0x0F ≠ .setDelay x) ∧
    ∀ x, Instr.random 3 0x0F ≠ .setSound x :=
  ⟨⟨_, rfl⟩, nofun, nofun, nofun, nofun⟩

theorem witness_OnlyListedRegistersChange :
    (∃ t, exec (.subReg 15 3) State.reset = .next t) ∧ (2 : Nat) ∉ writtenRegs State.reset.cfg.flagReg (.subReg 15 3) :=
  ⟨⟨_, rfl⟩, by decide⟩

theorem witness_NoInstructionTouchesHiddenState : ∃ t, exec .clearScreen State.reset = .next t := ⟨_, rfl⟩

/-- One fault for each of the clauses. -/
theorem witness_InstructionsFaultOnlyAsListed :
    raised (exec (.call 0x300) (fullStack State.reset)) = some (.stackOverflow 0x1FE none) ∧
    raised (exec .ret State.reset) = some (.stackUnderflow 0x1FE none) ∧
    raised (exec (.skipIfKeyUp 0) (State.reset.setReg 0 16)) = some (.keyIndexOutOfRange 16 0x1FE none) ∧
    raised (exec (.loadRegs 0) (State.reset.setIndex 0x1000)) = some (.memOutOfRange .read 0x1000 0x1FE none) ∧
    raised (exec (.bcd 0) (State.reset.setIndex 0xFFE)) = some (.memOutOfRange .write 0x1000 0x1FE none) := by decide

/-- The default sizes with the longest image that is accepted, and with no image. -/
theorem witness_LaunchLoadsFontAndImage :
    0 < resetParams.memSize ∧ fontAtlas.length = resetParams.glyphs * resetParams.glyphBytes ∧
    resetParams.fontBase + fontAtlas.length ≤ resetParams.memSize ∧
    (image 3584).length ≤ resetParams.memSize - resetParams.progBase ∧
    (image 0).length ≤ resetParams.memSize - resetParams.progBase ∧ { resetParams with nRegs := 15 }.nRegs ≤ resetParams.flagReg :=
  ⟨by decide, rfl, by decide, (image_length 3584).le, by decide, by decide⟩

/-- The shortest image that is refused. -/
theorem witness_LaunchLoadsFontAndImage_refused : resetParams.memSize - resetParams.progBase < (image 3585).length := by
  rw [image_length]; decide

/-- The reset state meets the invariant and steps. -/
theorem witness_EveryStepKeepsTheInvariant : Inv State.reset ∧ ∃ t, step State.reset = .next t :=
  ⟨{ memSize := by decide, mem := rfl, sized := Sized.constructed resetParams,
     inRange := InRange.constructed resetParams, flagReg := by decide, sp := Nat.zero_le _, time := Nat.le_refl 0, cpu := Nat.zero_le _, timer := Nat.zero_le _, frame := Nat.zero_le _,
     edges := fun k => ⟨fun h => by simp [State.keyPressed, State.reset, State.constructed] at h,
       fun h => by simp [State.keyReleased, State.reset, State.constructed] at h⟩, repaint := fun _ h => by cases h }, next_of_done (by decide)⟩

/-- V-FLOW-1: the self-jump at 0x200, parked, and a safe run of one step from it. -/
theorem witness_ParkedStaysParked :
    Parked 0x200 (start 0x1200 []) ∧ (∃ t, SafeRun 1 (start 0x1200 []) t) ∧
    (start 0x1200 []).lastNow ≤ 1428572 ∧ pollEvery.outcome (start 0x1200 []) 0 = .next (start 0x1200 []) ∧
    ∃ u, pollEvery.outcome (start 0x1200 []) (0 + 1) = .next u :=
  ⟨⟨rfl, rfl⟩, next_of_done (by decide), by decide, rfl, next_of_done (by decide)⟩

end Sys2Proof.Machine.Test
end

section
/-! PROOFS. Frames of the named updates of State, and how the frames of two updates in a row compose: what an instruction's
whole frame is proved from. -/

namespace Sys2Proof.Machine

theorem SameHidden.trans {s t u : State} (h : SameHidden s t) (h' : SameHidden t u) : SameHidden s u := by
  obtain ⟨down, pressed, released, kCpu, kTimer, kFrame, t0, lastNow, fault, cfg, inputs, repaint⟩ := h
  obtain ⟨down', pressed', released', kCpu', kTimer', kFrame', t0', lastNow', fault', cfg', inputs', repaint'⟩ := h'
  exact ⟨down'.trans down, pressed'.trans pressed, released'.trans released, kCpu'.trans kCpu, kTimer'.trans kTimer,
    kFrame'.trans kFrame, t0'.trans t0, lastNow'.trans lastNow, fault'.trans fault, cfg'.trans cfg, inputs'.trans inputs,
    repaint'.trans repaint⟩

/-- Two changes in a row leave open what either leaves open. -/
theorem Frame.trans {parts parts' : List Part} {regs regs' : List Nat} {s t u : State} (h : Frame parts regs s t)
    (h' : Frame parts' regs' t u) : Frame (parts ++ parts') (regs ++ regs') s u := by
  obtain ⟨reg, pc, index, stack, dt, st, mem, fb, draws, hidden⟩ := h
  obtain ⟨reg', pc', index', stack', dt', st', mem', fb', draws', hidden'⟩ := h'
  simp only [Frame, List.mem_append, not_or]
  refine ⟨fun r hr => ?_, fun o => (pc' o.2).trans (pc o.1), fun o => (index' o.2).trans (index o.1),
    fun o => ⟨(stack' o.2).1.trans (stack o.1).1, (stack' o.2).2.trans (stack o.1).2⟩,
    fun o => (dt' o.2).trans (dt o.1), fun o => (st' o.2).trans (st o.1),
    fun o a ha => (mem' o.2 a ha).trans (mem o.1 a ha),
    fun o => ⟨fun px py => ((fb' o.2).1 px py).trans ((fb o.1).1 px py), (fb' o.2).2.trans (fb o.1).2⟩,
    fun o => ⟨(draws' o.2).1.trans (draws o.1).1, (draws' o.2).2.trans (draws o.1).2⟩, hidden.trans hidden'⟩
  obtain ⟨hs, ht⟩ := not_or.mp (mt List.mem_append.mpr hr)
  exact (reg' r ht).trans (reg r hs)

/-- A write of a register changes no other register and nothing else. -/
theorem Frame.setReg (s : State) (x n : Nat) : Frame [] [x] s (s.setReg x n) := by
  have other : SameRegsExcept [x] s (s.setReg x n) := fun r hr => by
    rw [State.setReg_reg, if_neg (mt List.mem_singleton.mpr hr)]
  simp [Frame, SameHidden, SameBytesExcept, other]

/-- A draw of a random byte changes nothing but the draws (R118). -/
theorem Frame.countDraw (s : State) : Frame [.draws] [] s s.countDraw := by
  simp [Frame, SameHidden, SameRegsExcept, SameBytesExcept]

end Sys2Proof.Machine
end

section
/-! PROOFS. The host's side of a step: the byte it draws (43_alu.md R118) and the input it takes (00_scope.md R15). -/

namespace Sys2Proof.Machine

theorem exec_random (x : RegIdx) (nn : Byte) (s : State) :
    exec (.random x nn) s = .next (s.countDraw.setReg x (s.nextByte &&& nn).toNat) := rfl

theorem State.nextByte_of_supplied {s : State} {b : Byte} {rest : List Byte} (h : s.hostBytes = b :: rest) :
    s.nextByte = b := by
  rw [State.nextByte, h, List.headD_cons]

theorem State.nextByte_of_none_supplied {s : State} (h : s.hostBytes = []) : s.nextByte = Config.freeByte s.draws := by
  rw [State.nextByte, h, List.headD_nil]

/-- Settles O17: random is a draw followed by the write of a register, and the byte drawn is the oldest supplied or the free
value. -/
theorem randomMasksOneFreeByte : Obligations.RandomMasksOneFreeByte := by
  intro x nn s
  refine ⟨_, exec_random x nn s, fun b rest h => ?_, fun h => ?_, rfl, (Frame.countDraw s).trans (Frame.setReg _ x _)⟩
  · simp [State.nextByte_of_supplied h, h]
  · simp [State.nextByte_of_none_supplied h, h]

/-- With no fault recorded a step takes the host's next input (R15). -/
theorem step_of_no_fault {s : State} (h : s.fault = none) : step s = hostStep s := by
  rw [step, h]

theorem hostStep_of_poll {s : State} {now : Nat} {rest : List HostInput} (h : s.hostInputs = .poll now :: rest) :
    hostStep s = poll now (s.setInputs rest) := by
  rw [hostStep, h]

theorem hostStep_of_no_input {s : State} (h : s.hostInputs = []) : hostStep s = poll s.nextCpuTime s := by
  rw [hostStep, h]

/-- Settles O59, by the host's step in each of the two cases of its queue. -/
theorem stepIsTheWaitingPoll : Obligations.StepIsTheWaitingPoll := by
  intro s hf
  rw [step_of_no_fault hf]
  exact ⟨fun _ _ => hostStep_of_poll, hostStep_of_no_input⟩

end Sys2Proof.Machine
end

section
/-! PROOFS. The launch (60_exceptions.md R164, 70_reset_and_hazards.md R170, R173): memory zeroed, then the font, then the image,
each a list of writes; and which of its cases a launch is. -/

namespace Sys2Proof.Machine

/-- A list of writes no longer than the room above its first address keeps the canonical form; an empty one does wherever it
would begin. -/
theorem Memory.wf_writeAll_of_le_sub {size : Nat} {m : Memory} {a : Nat} {bs : List Byte} (hlen : bs.length ≤ size - a)
    (h : m.wf size = true) : (m.writeAll a bs).wf size = true := by
  cases bs with
  | nil => exact h
  | cons b bs =>
    have : a + (b :: bs).length ≤ size := by rw [List.length_cons] at hlen ⊢; omega
    exact Memory.wf_writeAll this h

/-- What a launch leaves in memory: zeros, the font over them, the image over both (R170). -/
def launchedMemory (cfg : Params) (font image : List Byte) : Memory :=
  ((zeroedMemory cfg).writeAll cfg.fontBase font).writeAll cfg.progBase image

/-- Every address of zeroed memory reads as 0 (R170): those that read as the default font unlisted are written. -/
theorem read_zeroedMemory {cfg : Params} {a : Nat} (ha : a < cfg.memSize) : (zeroedMemory cfg).read a = 0 := by
  rw [zeroedMemory, Memory.read_writeAll, List.length_replicate, getD_replicate_self]
  split
  · rfl
  · have : ¬ (Config.fontBase ≤ a ∧ a < Config.fontBase + Config.glyphs * Config.glyphBytes) := by omega
    rw [Memory.read, initialByte, if_neg this]

theorem wf_zeroedMemory (cfg : Params) : (zeroedMemory cfg).wf cfg.memSize = true :=
  Memory.wf_writeAll_of_le_sub (by rw [List.length_replicate]; exact Nat.min_le_right ..) (Memory.wf_nil _)

section
variable {cfg : Params} {font image : List Byte}

/-- The image is written last, so it stands whatever it overlaps (R170). -/
theorem read_launchedMemory_image {k : Nat} (hk : k < image.length) :
    (launchedMemory cfg font image).read (cfg.progBase + k) = image.getD k 0 := by
  rw [launchedMemory, Memory.read_writeAll, if_pos (by omega), Nat.add_sub_cancel_left]

theorem read_launchedMemory_of_not_image {a : Nat} (ha : a < cfg.progBase ∨ cfg.progBase + image.length ≤ a) :
    (launchedMemory cfg font image).read a = ((zeroedMemory cfg).writeAll cfg.fontBase font).read a := by
  rw [launchedMemory, Memory.read_writeAll, if_neg (by omega)]

theorem read_launchedMemory_font {k : Nat} (hk : k < font.length)
    (ho : cfg.fontBase + k < cfg.progBase ∨ cfg.progBase + image.length ≤ cfg.fontBase + k) :
    (launchedMemory cfg font image).read (cfg.fontBase + k) = font.getD k 0 := by
  rw [read_launchedMemory_of_not_image ho, Memory.read_writeAll, if_pos (by omega), Nat.add_sub_cancel_left]

theorem read_launchedMemory_rest {a : Nat} (ha : a < cfg.memSize)
    (hf : a < cfg.fontBase ∨ cfg.fontBase + font.length ≤ a)
    (hi : a < cfg.progBase ∨ cfg.progBase + image.length ≤ a) : (launchedMemory cfg font image).read a = 0 := by
  rw [read_launchedMemory_of_not_image hi, Memory.read_writeAll, if_neg (by omega), read_zeroedMemory ha]

theorem wf_launchedMemory (hf : cfg.fontBase + font.length ≤ cfg.memSize)
    (hi : image.length ≤ cfg.memSize - cfg.progBase) : (launchedMemory cfg font image).wf cfg.memSize = true :=
  Memory.wf_writeAll_of_le_sub hi (Memory.wf_writeAll hf (wf_zeroedMemory cfg))

/-- The flag register is what a launch checks first (log entry 23). -/
theorem launch_of_no_flag_register (t0 : Nat) (h : cfg.nRegs ≤ cfg.flagReg) :
    launch cfg font t0 image = .error .noFlagRegister := if_pos h

/-- A launch with a flag register and a font that fits in memory is decided by the image's length (R173). -/
theorem launch_of_font_fits (t0 : Nat) (hr : cfg.flagReg < cfg.nRegs) (hm : 0 < cfg.memSize)
    (hl : font.length = cfg.glyphs * cfg.glyphBytes) (hf : cfg.fontBase + font.length ≤ cfg.memSize) :
    launch cfg font t0 image =
      if cfg.memSize - cfg.progBase < image.length then .error (.imageTooLong image.length)
      else .ok { State.constructed cfg with t0 := t0, lastNow := t0, mem := launchedMemory cfg font image } := by
  rw [launch, if_neg (Nat.not_le.mpr hr), if_neg hm.ne', if_neg (not_not.mpr hl), if_neg (Nat.not_lt.mpr hf)]
  rfl

end

/-- Settles O55: an image that fits is the last of three lists of writes, and the launch's other cases are its refusals. -/
theorem launchLoadsFontAndImage : Obligations.LaunchLoadsFontAndImage := by
  intro cfg font image t0 hm hl hf
  refine ⟨fun hr hi => ?_, fun hr hi => ?_, launch_of_no_flag_register t0⟩
  · refine ⟨_, (launch_of_font_fits t0 hr hm hl hf).trans (if_neg (Nat.not_lt.mpr hi)), ?_⟩
    exact ⟨fun _ => read_launchedMemory_image, fun _ => read_launchedMemory_font, fun _ => read_launchedMemory_rest,
      wf_launchedMemory hf hi, rfl⟩
  · exact (launch_of_font_fits t0 hr hm hl hf).trans (if_pos hi)

end Sys2Proof.Machine
end

section
/-! PROOFS. What the instructions with a branch answer, said once: the updates of State that lead to the next state. -/

namespace Sys2Proof.Machine

variable {s t : State}

/-- A meaning that carries on what an operation answered with, where it answered. -/
theorem finish_map_next {α : Type} {o : Except Fault α} {g : α → State} (h : finish (o.map g) = .next t) :
    ∃ a, o = .ok a ∧ t = g a := by
  cases o with
  | ok a => cases h; exact ⟨a, rfl, rfl⟩
  | error f => cases h

theorem execRet_next (h : execRet s = .next t) : ∃ n, s.sp = n + 1 ∧ t = (s.setSp n).setPc (s.stackAt n) :=
  State.pop_ok (finish_next h)

theorem execCall_eq (nnn : BitVec 12) (s : State) :
    execCall nnn s = finish (s.push.map fun u => u.setPc nnn.toNat) := by
  rw [execCall]; cases s.push <;> rfl

theorem execCall_next {nnn : BitVec 12} (h : execCall nnn s = .next t) :
    ∃ u, s.push = .ok u ∧ t = u.setPc nnn.toNat :=
  finish_map_next ((execCall_eq nnn s).symm.trans h)

theorem execSkipIfKeyDown_eq (x : RegIdx) (s : State) :
    execSkipIfKeyDown x s = finish ((s.keyOf x).map fun k => s.skipIf (s.keyDown k)) := by
  rw [execSkipIfKeyDown]; cases s.keyOf x <;> rfl

theorem execSkipIfKeyDown_next {x : RegIdx} (h : execSkipIfKeyDown x s = .next t) :
    ∃ k, s.keyOf x = .ok k ∧ t = s.skipIf (s.keyDown k) :=
  finish_map_next ((execSkipIfKeyDown_eq x s).symm.trans h)

theorem execSkipIfKeyUp_eq (x : RegIdx) (s : State) :
    execSkipIfKeyUp x s = finish ((s.keyOf x).map fun k => s.skipIf (!s.keyDown k)) := by
  rw [execSkipIfKeyUp]; cases s.keyOf x <;> rfl

theorem execSkipIfKeyUp_next {x : RegIdx} (h : execSkipIfKeyUp x s = .next t) :
    ∃ k, s.keyOf x = .ok k ∧ t = s.skipIf (!s.keyDown k) :=
  finish_map_next ((execSkipIfKeyUp_eq x s).symm.trans h)

theorem execWaitKey_next {x : RegIdx} (h : execWaitKey x s = .next t) :
    (∃ k, s.leastPressed = some k ∧ t = s.setReg x k) ∨ (s.leastPressed = none ∧ t = s.setPc s.ia) := by
  have h := Host.Outcome.next.inj h
  split at h
  · exact .inl ⟨_, ‹_›, h.symm⟩
  · exact .inr ⟨‹_›, h.symm⟩

theorem execAddIndex_next {x : RegIdx} (h : execAddIndex x s = .next t) :
    ∃ a, a = (s.index + s.reg x) % 2 ^ s.cfg.iW ∧
      (((s.cfg.indexOverflowFlag && aboveRange a) = true ∧ t = (s.setIndex a).setFlag true) ∨
        ((s.cfg.indexOverflowFlag && aboveRange a) = false ∧ t = s.setIndex a)) := by
  have h := Host.Outcome.next.inj h
  refine ⟨_, rfl, ?_⟩
  split at h
  · exact .inl ⟨‹_›, h.symm⟩
  · exact .inr ⟨Bool.eq_false_of_not_eq_true ‹_›, h.symm⟩

theorem execStoreRegs_eq (x : RegIdx) (s : State) :
    execStoreRegs x s =
      finish ((s.storeBytes (s.indexPlus 0) ((regsUpTo x).map s.regByte)).map fun u => u.classicAdvance x) := by
  rw [execStoreRegs]; cases s.storeBytes (s.indexPlus 0) ((regsUpTo x).map s.regByte) <;> rfl

theorem execStoreRegs_next {x : RegIdx} (h : execStoreRegs x s = .next t) :
    ∃ u, s.storeBytes (s.indexPlus 0) ((regsUpTo x).map s.regByte) = .ok u ∧ t = u.classicAdvance x :=
  finish_map_next ((execStoreRegs_eq x s).symm.trans h)

theorem execLoadRegs_eq (x : RegIdx) (s : State) :
    execLoadRegs x s = finish ((s.loadBytes (s.indexPlus 0) (regsUpTo x)).map fun u => u.classicAdvance x) := by
  rw [execLoadRegs]; cases s.loadBytes (s.indexPlus 0) (regsUpTo x) <;> rfl

theorem execLoadRegs_next {x : RegIdx} (h : execLoadRegs x s = .next t) :
    ∃ u, s.loadBytes (s.indexPlus 0) (regsUpTo x) = .ok u ∧ t = u.classicAdvance x :=
  finish_map_next ((execLoadRegs_eq x s).symm.trans h)

theorem execDraw_next {x y : RegIdx} {n : Fin 16} (h : execDraw x y n s = .next t) :
    ∃ col, State.drawRows col n.val 0 (spriteTop s y) (s.setFlag false) = .ok t := by
  obtain ⟨col, hrows, -⟩ := execDraw_rows s x y n
  exact ⟨col, finish_next (hrows.symm.trans h)⟩

end Sys2Proof.Machine
end

section
/-! PROOFS. What an instruction leaves alone (10_state.md R22, R26, R27, R29 to R33, R37, R39, R51): the parts of State that
it may write are listed once, and the rules that only some instructions write a part are read off that list. -/

namespace Sys2Proof.Machine

/-- The parts of the state that an instruction may write, beside the registers of `writtenRegs`. -/
def writtenParts (cfg : Params) : Instr → List Part
  | .clearScreen | .draw _ _ _ => [.display]
  | .ret | .call _ => [.pc, .stack]
  | .jump _ | .jumpOffset _ _ => [.pc]
  | .skipEqImm _ _ | .skipNeqImm _ _ | .skipEqReg _ _ | .skipNeqReg _ _ | .skipIfKeyDown _ | .skipIfKeyUp _ => [.pc]
  | .waitKey _ => [.pc]
  | .setImm _ _ | .addImm _ _ | .setReg _ _ | .orReg _ _ | .andReg _ _ | .xorReg _ _ => []
  | .addReg _ _ | .subReg _ _ | .subRegReversed _ _ | .shiftRight _ _ | .shiftLeft _ _ | .getDelay _ => []
  | .setIndex _ | .addIndex _ | .fontChar _ => [.index]
  | .random _ _ => [.draws]
  | .setDelay _ => [.delay]
  | .setSound _ => [.sound]
  | .bcd _ => [.memory]
  | .storeRegs _ => .memory :: if cfg.classicMode then [.index] else []
  | .loadRegs _ => if cfg.classicMode then [.index] else []

/-- Everything is as before except the parts in `parts` and the registers in `regs`: `Frame`, with memory and the framebuffer
compared whole. -/
structure Keeps (parts : List Part) (regs : List Nat) (s t : State) : Prop where
  reg : SameRegsExcept regs s t
  pc : .pc ∉ parts → t.pcBits = s.pcBits
  index : .index ∉ parts → t.indexBits = s.indexBits
  stack : .stack ∉ parts → t.sp = s.sp ∧ t.stack = s.stack
  delay : .delay ∉ parts → t.dt = s.dt
  sound : .sound ∉ parts → t.st = s.st
  memory : .memory ∉ parts → t.mem = s.mem
  display : .display ∉ parts → t.fb = s.fb ∧ t.dirty = s.dirty
  draws : .draws ∉ parts → t.draws = s.draws ∧ t.hostBytes = s.hostBytes
  hidden : SameHidden s t

theorem SameHidden.refl (s : State) : SameHidden s s := ⟨rfl, rfl, rfl, rfl, rfl, rfl, rfl, rfl, rfl, rfl, rfl, rfl⟩

theorem SameHidden.cfg {s t : State} (h : SameHidden s t) : t.cfg = s.cfg := by
  obtain ⟨-, -, -, -, -, -, -, -, -, cfg, -, -⟩ := h
  exact cfg

namespace Keeps

variable {parts : List Part} {regs : List Nat} {s t u : State}

theorem refl (parts : List Part) (regs : List Nat) (s : State) : Keeps parts regs s s where
  reg _ _ := rfl
  pc _ := rfl
  index _ := rfl
  stack _ := ⟨rfl, rfl⟩
  delay _ := rfl
  sound _ := rfl
  memory _ := rfl
  display _ := ⟨rfl, rfl⟩
  draws _ := ⟨rfl, rfl⟩
  hidden := .refl s

theorem trans (h : Keeps parts regs s t) (h' : Keeps parts regs t u) : Keeps parts regs s u where
  reg r hr := (h'.reg r hr).trans (h.reg r hr)
  pc o := (h'.pc o).trans (h.pc o)
  index o := (h'.index o).trans (h.index o)
  stack o := ⟨(h'.stack o).1.trans (h.stack o).1, (h'.stack o).2.trans (h.stack o).2⟩
  delay o := (h'.delay o).trans (h.delay o)
  sound o := (h'.sound o).trans (h.sound o)
  memory o := (h'.memory o).trans (h.memory o)
  display o := ⟨(h'.display o).1.trans (h.display o).1, (h'.display o).2.trans (h.display o).2⟩
  draws o := ⟨(h'.draws o).1.trans (h.draws o).1, (h'.draws o).2.trans (h.draws o).2⟩
  hidden := h.hidden.trans h'.hidden

theorem frame (h : Keeps parts regs s t) : Frame parts regs s t := by
  have hcfg := h.hidden.cfg
  refine ⟨h.reg, fun o => ?_, fun o => ?_, h.stack, h.delay, h.sound, fun o a _ => ?_,
    fun o => ⟨fun px py => ?_, (h.display o).2⟩, h.draws, h.hidden⟩
  · rw [State.pc, h.pc o, hcfg, State.pc]
  · rw [State.index, h.index o, hcfg, State.index]
  · rw [State.byteAt, h.memory o, State.byteAt]
  · rw [State.pixel, (h.display o).1, State.pixel]

/-! ### The named updates -/

theorem setReg {x : Nat} (hx : x ∈ regs) (n : Nat) : Keeps parts regs s (s.setReg x n) :=
  { refl parts regs s with reg := fun r hr => by rw [State.setReg_reg, if_neg (ne_of_mem_of_not_mem hx hr).symm] }

theorem setPc (h : .pc ∈ parts) (a : Nat) : Keeps parts regs s (s.setPc a) :=
  { refl parts regs s with pc := fun o => absurd h o }

theorem setIndex (h : .index ∈ parts) (a : Nat) : Keeps parts regs s (s.setIndex a) :=
  { refl parts regs s with index := fun o => absurd h o }

theorem setDt (h : .delay ∈ parts) (b : Byte) : Keeps parts regs s (s.setDt b) :=
  { refl parts regs s with delay := fun o => absurd h o }

theorem setSt (h : .sound ∈ parts) (b : Byte) : Keeps parts regs s (s.setSt b) :=
  { refl parts regs s with sound := fun o => absurd h o }

theorem countDraw (h : .draws ∈ parts) : Keeps parts regs s s.countDraw :=
  { refl parts regs s with draws := fun o => absurd h o }

theorem clearFrame (h : .display ∈ parts) : Keeps parts regs s s.clearFrame :=
  { refl parts regs s with display := fun o => absurd h o }

theorem setSp (h : .stack ∈ parts) (n : Nat) : Keeps parts regs s (s.setSp n) :=
  { refl parts regs s with stack := fun o => absurd h o }

theorem push (h : .stack ∈ parts) (hp : s.push = .ok t) : Keeps parts regs s t := by
  obtain ⟨-, rfl⟩ := State.push_ok hp
  exact { refl parts regs s with stack := fun o => absurd h o }

theorem skipIf (h : .pc ∈ parts) (c : Bool) : Keeps parts regs s (s.skipIf c) := by
  cases c
  · exact refl ..
  · exact setPc h _

theorem shiftCopy {x : RegIdx} (hx : x.val ∈ regs) (y : RegIdx) : Keeps parts regs s (s.shiftCopy x y) := by
  unfold State.shiftCopy
  split
  · exact setReg hx _
  · exact refl ..

theorem writeFlagged {x : RegIdx} (hx : x.val ∈ regs) (hf : s.cfg.flagReg ∈ regs) (result : State → Nat)
    (flag : State → Bool) : Keeps parts regs s (s.writeFlagged x result flag) := by
  obtain ⟨-, h⟩ | ⟨-, h⟩ := State.writeFlagged_cases s x result flag <;> rw [h]
  · exact (setReg hx _).trans (setReg hf _)
  · exact (setReg hf _).trans (setReg hx _)

theorem classicAdvance (h : s.cfg.classicMode = true → .index ∈ parts) (x : RegIdx) :
    Keeps parts regs s (s.classicAdvance x) := by
  unfold State.classicAdvance
  split
  · exact setIndex (h ‹_›) _
  · exact refl ..

theorem storeBytes {a : Nat} {bs : List Byte} (hm : .memory ∈ parts) (h : s.storeBytes a bs = .ok t) :
    Keeps parts regs s t := by
  obtain ⟨-, rest, -⟩ := State.storeBytes_ok h
  rw [rest]
  exact { refl parts regs s with memory := fun o => absurd hm o }

theorem loadBytes {a : Nat} {xs : List Nat} (hnd : xs.Nodup) (hxs : xs ⊆ regs) (h : s.loadBytes a xs = .ok t) :
    Keeps parts regs s t := by
  obtain ⟨-, rest, other, -⟩ := State.loadBytes_ok h hnd
  have other : SameRegsExcept regs s t := fun r hr => other r (mt (@hxs r) hr)
  rw [rest] at other ⊢
  exact { refl parts regs s with reg := other }

theorem drawRows {col : State → Nat} {n j y : Nat} (hd : .display ∈ parts) (hf : s.cfg.flagReg ∈ regs)
    (h : State.drawRows col n j y s = .ok t) : Keeps parts regs s t := by
  obtain ⟨rest, other⟩ := State.drawRows_rest n j y s t h
  have other : SameRegsExcept regs s t := fun r hr => other r fun he => hr (he ▸ hf)
  rw [rest] at other ⊢
  exact { refl parts regs s with reg := other, display := fun o => absurd hd o }

end Keeps

/-- Every instruction writes its `writtenParts` and `writtenRegs` alone. -/
theorem exec_keeps {i : Instr} {s t : State} (h : exec i s = .next t) :
    Keeps (writtenParts s.cfg i) (writtenRegs s.cfg.flagReg i) s t := by
  cases i
  case clearScreen => cases h; exact .clearFrame (by simp [writtenParts])
  case ret =>
    obtain ⟨n, -, rfl⟩ := execRet_next h
    exact (Keeps.setSp (by simp [writtenParts]) _).trans (.setPc (by simp [writtenParts]) _)
  case call nnn =>
    obtain ⟨u, hu, rfl⟩ := execCall_next h
    exact (Keeps.push (by simp [writtenParts]) hu).trans (.setPc (by simp [writtenParts]) _)
  case jump nnn | jumpOffset nnn x => cases h; exact .setPc (by simp [writtenParts]) _
  case skipEqImm x nn | skipNeqImm x nn | skipEqReg x y | skipNeqReg x y =>
    cases h; exact .skipIf (by simp [writtenParts]) _
  case skipIfKeyDown x => obtain ⟨k, -, rfl⟩ := execSkipIfKeyDown_next h; exact .skipIf (by simp [writtenParts]) _
  case skipIfKeyUp x => obtain ⟨k, -, rfl⟩ := execSkipIfKeyUp_next h; exact .skipIf (by simp [writtenParts]) _
  case setImm x _ | addImm x _ | setReg x _ | orReg x _ | andReg x _ | xorReg x _ | getDelay x =>
    cases h; exact .setReg (by simp [writtenRegs]) _
  case addReg x y =>
    cases h
    exact (Keeps.setReg (by simp [writtenRegs]) _).trans (.setReg (by simp [writtenRegs]) _)
  case subReg x y | subRegReversed x y =>
    cases h; exact .writeFlagged (by simp [writtenRegs]) (by simp [writtenRegs]) _ _
  case shiftRight x y | shiftLeft x y =>
    cases h
    exact (Keeps.shiftCopy (by simp [writtenRegs]) y).trans
      (.writeFlagged (by simp [writtenRegs]) (by simp [writtenRegs]) _ _)
  case random x nn =>
    cases h
    exact (Keeps.countDraw (by simp [writtenParts])).trans (.setReg (by simp [writtenRegs]) _)
  case waitKey x =>
    obtain ⟨k, -, rfl⟩ | ⟨-, rfl⟩ := execWaitKey_next h
    · exact .setReg (by simp [writtenRegs]) k
    · exact .setPc (by simp [writtenParts]) _
  case setDelay x => cases h; exact .setDt (by simp [writtenParts]) _
  case setSound x => cases h; exact .setSt (by simp [writtenParts]) _
  case setIndex nnn | fontChar x => cases h; exact .setIndex (by simp [writtenParts]) _
  case addIndex x =>
    obtain ⟨a, -, ⟨-, rfl⟩ | ⟨-, rfl⟩⟩ := execAddIndex_next h
    · exact (Keeps.setIndex (by simp [writtenParts]) a).trans (.setReg (by simp [writtenRegs]) _)
    · exact .setIndex (by simp [writtenParts]) a
  case bcd x => exact .storeBytes (by simp [writtenParts]) (finish_next h)
  case storeRegs x =>
    obtain ⟨u, hu, rfl⟩ := execStoreRegs_next h
    have hk : Keeps (writtenParts s.cfg (.storeRegs x)) [] s u := .storeBytes (by simp [writtenParts]) hu
    exact hk.trans (.classicAdvance (fun hc => by simp [writtenParts, ← hk.hidden.cfg, hc]) x)
  case loadRegs x =>
    obtain ⟨u, hu, rfl⟩ := execLoadRegs_next h
    have hk : Keeps (writtenParts s.cfg (.loadRegs x)) (regsUpTo x) s u :=
      .loadBytes (regsUpTo_nodup x) (List.Subset.refl _) hu
    exact hk.trans (.classicAdvance (fun hc => by simp [writtenParts, ← hk.hidden.cfg, hc]) x)
  case draw x y n =>
    obtain ⟨col, hrows⟩ := execDraw_next h
    exact (Keeps.setReg (by simp [writtenRegs]) _).trans
      (.drawRows (by simp [writtenParts]) (by simp [writtenRegs]) hrows)

/-! ### Which instructions write a part -/

section
variable {cfg : Params} {i : Instr}

theorem stack_mem_writtenParts : .stack ∈ writtenParts cfg i ↔ i = .ret ∨ ∃ nnn, i = .call nnn := by
  cases i <;> simp [writtenParts]

theorem display_mem_writtenParts : .display ∈ writtenParts cfg i ↔ i = .clearScreen ∨ ∃ x y n, i = .draw x y n := by
  cases i <;> simp [writtenParts]

theorem index_mem_writtenParts : .index ∈ writtenParts cfg i ↔
    (∃ nnn, i = .setIndex nnn) ∨ (∃ x, i = .addIndex x) ∨ (∃ x, i = .fontChar x) ∨
    (cfg.classicMode = true ∧ ∃ x, i = .storeRegs x ∨ i = .loadRegs x) := by
  cases i <;> simp [writtenParts]

theorem memory_mem_writtenParts : .memory ∈ writtenParts cfg i ↔ (∃ x, i = .bcd x) ∨ ∃ x, i = .storeRegs x := by
  cases i <;> simp [writtenParts]

theorem delay_mem_writtenParts : .delay ∈ writtenParts cfg i ↔ ∃ x, i = .setDelay x := by
  cases i <;> simp [writtenParts]

theorem sound_mem_writtenParts : .sound ∈ writtenParts cfg i ↔ ∃ x, i = .setSound x := by
  cases i <;> simp [writtenParts]

end

/-- Settles O47: the stack is a written part of call and return alone. -/
theorem onlyCallAndReturnTouchTheStack : Obligations.OnlyCallAndReturnTouchTheStack := by
  intro i s t h hret hcall
  exact (exec_keeps h).stack fun hm => (stack_mem_writtenParts.mp hm).elim hret (not_exists.mpr hcall)

/-- Settles O48: the display is a written part of clear-screen and draw alone. -/
theorem onlyClearAndDrawTouchTheDisplay : Obligations.OnlyClearAndDrawTouchTheDisplay := by
  intro i s t h hclear hdraw
  exact (exec_keeps h).display fun hm =>
    (display_mem_writtenParts.mp hm).elim hclear fun ⟨x, y, n, hi⟩ => hdraw x y n hi

/-- Settles O49: an instruction that changes `I` has it among its written parts. -/
theorem onlyIndexInstructionsWriteIndex : Obligations.OnlyIndexInstructionsWriteIndex := by
  intro i s t h hne
  obtain ⟨-, -, index, -⟩ := (exec_keeps h).frame
  exact index_mem_writtenParts.mp (by_contra fun hm => hne (index hm))

/-- Settles O50: memory and each timer are written parts of the instructions listed alone. -/
theorem onlyTheirInstructionsWriteMemoryAndTimers : Obligations.OnlyTheirInstructionsWriteMemoryAndTimers := by
  intro i s t h
  have keeps := exec_keeps h
  refine ⟨fun hbcd hstore => keeps.memory fun hm => ?_, fun hd => keeps.delay fun hm => ?_,
    fun hs => keeps.sound fun hm => ?_⟩
  · exact (memory_mem_writtenParts.mp hm).elim (not_exists.mpr hbcd) (not_exists.mpr hstore)
  · exact not_exists.mpr hd (delay_mem_writtenParts.mp hm)
  · exact not_exists.mpr hs (sound_mem_writtenParts.mp hm)

/-- Settles O51: the registers an instruction keeps are all but its written ones. -/
theorem onlyListedRegistersChange : Obligations.OnlyListedRegistersChange := fun _ _ _ h => (exec_keeps h).reg

/-- Settles O52: hidden state is no part that any instruction writes. -/
theorem noInstructionTouchesHiddenState : Obligations.NoInstructionTouchesHiddenState := fun _ _ _ h =>
  (exec_keeps h).hidden

end Sys2Proof.Machine
end

section
/-! PROOFS. The call stack (10_state.md R28, 41_flow.md R90, R92). -/

namespace Sys2Proof.Machine

theorem execCall_of_free (nnn : BitVec 12) {s : State} (h : s.sp < s.cfg.stackDepth) :
    execCall nnn s = .next (((s.setStack s.sp s.pc).setSp (s.sp + 1)).setPc nnn.toNat) := by
  rw [execCall_eq, State.push_of_free h]; rfl

theorem execCall_of_full (nnn : BitVec 12) {s : State} (h : s.cfg.stackDepth ≤ s.sp) :
    execCall nnn s = .fault (.stackOverflow s.ia none) := by
  rw [execCall_eq, State.push_of_full h]; rfl

theorem execRet_of_used {s : State} {n : Nat} (h : s.sp = n + 1) :
    execRet s = .next ((s.setSp n).setPc (s.stackAt n)) := by
  rw [execRet, State.pop_of_used h]; rfl

theorem execRet_of_empty {s : State} (h : s.sp = 0) : execRet s = .fault (.stackUnderflow s.ia none) := by
  rw [execRet, State.pop_of_empty h]; rfl

/-- Settles O19: a call is a push and a jump. -/
theorem callPushesOrOverflows : Obligations.CallPushesOrOverflows := by
  intro nnn s
  refine ⟨fun hfree => ?_, execCall_of_full nnn⟩
  have hcall : exec (.call nnn) s = _ := execCall_of_free nnn hfree
  exact ⟨_, hcall, by simp, rfl, by simp, fun j hj => by simp [hj], (exec_keeps hcall).frame⟩

/-- Settles O20: a return is a pop. -/
theorem returnPopsOrUnderflows : Obligations.ReturnPopsOrUnderflows := by
  intro s
  refine ⟨fun hused => ?_, execRet_of_empty⟩
  obtain ⟨n, hn⟩ := Nat.exists_eq_add_one.mpr hused
  have hret : exec .ret s = _ := execRet_of_used hn
  exact ⟨_, hret, hn.symm, by simp [hn], rfl, (exec_keeps hret).frame⟩

/-- Settles O22: the return pops the entry that the call pushed. -/
theorem returnComesBackAfterTheCall : Obligations.ReturnComesBackAfterTheCall := by
  intro nnn s t u hcall hsp hstack hpcW
  obtain ⟨v, hpush, rfl⟩ := execCall_next hcall
  obtain ⟨-, rfl⟩ := State.push_ok hpush
  refine ⟨_, execRet_of_used hsp, ?_, rfl⟩
  calc ((u.setSp s.sp).setPc (u.stackAt s.sp)).pc
    _ = u.stackAt s.sp := by simp
    _ = ((s.setStack s.sp s.pc).setSp (s.sp + 1)).stackAt s.sp := by rw [State.stackAt, hstack, hpcW]; rfl
    _ = s.pc := by simp

end Sys2Proof.Machine
end

section
/-! PROOFS. The exported framebuffer (10_state.md R38). -/

namespace Sys2Proof.Machine

/-- Place `j` of block `k`, where every block has length `w`. -/
theorem getElem?_flatMap_of_const {α β : Type} (f : α → List β) {w j : Nat} (hj : j < w) {l : List α} {k : Nat}
    {a : α} (hf : ∀ b ∈ l, (f b).length = w) (hk : l[k]? = some a) : (l.flatMap f)[k * w + j]? = (f a)[j]? := by
  induction l generalizing k with
  | nil => cases hk
  | cons b l ih =>
    have hb : (f b).length = w := hf b (List.mem_cons_self ..)
    rw [List.flatMap_cons]
    cases k with
    | zero =>
      cases hk
      rw [Nat.zero_mul, Nat.zero_add, List.getElem?_append_left (hb ▸ hj)]
    | succ k =>
      rw [Nat.succ_mul, Nat.add_right_comm, List.getElem?_append_right (by omega), hb, Nat.add_sub_cancel]
      exact ih (fun c hc => hf c (List.mem_cons_of_mem _ hc)) hk

/-- Settles O36: the exported cells are one block of `FB_W` for each row. -/
theorem exportedCellsAreRowMajor : Obligations.ExportedCellsAreRowMajor := by
  intro s
  constructor
  · simp [exportedCells, List.length_flatMap, Nat.mul_comm]
  · intro px py hx hy
    rw [exportedCells, getElem?_flatMap_of_const _ hx (by simp) (List.getElem?_range hy), List.getElem?_map,
      List.getElem?_range hx]
    rfl

end Sys2Proof.Machine
end

section
/-! PROOFS. Key events and the key edges (10_state.md R41, R42, 60_exceptions.md R152). -/

namespace Sys2Proof.Machine

theorem hostStep_of_press {s : State} {k : Nat} {rest : List HostInput} (h : s.hostInputs = .press k :: rest) :
    hostStep s = keyEvent State.press k (s.setInputs rest) := by
  rw [hostStep, h]

theorem hostStep_of_release {s : State} {k : Nat} {rest : List HostInput} (h : s.hostInputs = .release k :: rest) :
    hostStep s = keyEvent State.release k (s.setInputs rest) := by
  rw [hostStep, h]

theorem keyEvent_of_key (event : State → Nat → State) {k : Nat} {s : State} (h : k < s.cfg.nKeys) :
    keyEvent event k s = .next (event s.clearRepaint k) := if_pos h

theorem keyEvent_of_no_key (event : State → Nat → State) {k : Nat} {s : State} (h : s.cfg.nKeys ≤ k) :
    keyEvent event k s = .refused (.keyNotOnKeypad k) := if_neg (Nat.not_lt.mpr h)

/-- Settles O40: a step with a key event waiting is that event, and each changes its own key alone. -/
theorem keyEventsChangeOnlyTheirKey : Obligations.KeyEventsChangeOnlyTheirKey := by
  intro s k rest hf
  rw [step_of_no_fault hf]
  refine ⟨fun hin hk => ?_, fun hin hk => ?_, fun hin hk => ?_⟩
  · refine ⟨_, (hostStep_of_press hin).trans (keyEvent_of_key _ hk), (State.press_keyDown ..).trans (if_pos rfl),
      (State.press_keyPressed ..).trans (if_pos rfl), fun j hj => ⟨?_, ?_⟩, by simp [SameHidden], by simp⟩
    · exact (State.press_keyDown ..).trans (if_neg hj)
    · exact (State.press_keyPressed ..).trans (if_neg hj)
  · refine ⟨_, (hostStep_of_release hin).trans (keyEvent_of_key _ hk), (State.release_keyDown ..).trans (if_pos rfl),
      (State.release_keyReleased ..).trans (if_pos rfl), fun j hj => ⟨?_, ?_⟩, by simp [SameHidden], by simp⟩
    · exact (State.release_keyDown ..).trans (if_neg hj)
    · exact (State.release_keyReleased ..).trans (if_neg hj)
  · obtain hin | hin := hin
    · exact (hostStep_of_press hin).trans (keyEvent_of_no_key _ hk)
    · exact (hostStep_of_release hin).trans (keyEvent_of_no_key _ hk)

theorem cycleAction_of_next {s u : State} (h : tick s = .next u) : cycleAction s = .next u.endCycle := by
  rw [cycleAction, h]; rfl

theorem cpuPhase_of_not_due {now : Nat} {s : State} (h : due s.cfg.cpuHz s.kCpu s.t0 now = false) :
    cpuPhase now s = .next s := by
  simp [cpuPhase, h]

/-- A poll in which the cpu clock is not due runs the other two clocks alone (R151). -/
theorem poll_of_cpu_not_due {now : Nat} {s : State} (hle : s.lastNow ≤ now)
    (h : due s.cfg.cpuHz s.kCpu s.t0 now = false) :
    poll now s = .next ((framePhase now (timerPhase now s.clearRepaint)).setLastNow now) := by
  rw [poll_of_le hle, cpuPhase_of_not_due (s := s.clearRepaint) h]; rfl

/-- Settles O41: the cycle action ends with `resetEdges`, and no other part of a poll writes an edge. -/
theorem edgesClearAfterTheCycleTickOnly : Obligations.EdgesClearAfterTheCycleTickOnly := by
  constructor
  · intro s u h
    exact ⟨_, cycleAction_of_next h, rfl, rfl, State.resetEdges_edges u, by simp⟩
  · intro now s hle h
    exact ⟨_, poll_of_cpu_not_due hle h, by simp⟩

end Sys2Proof.Machine
end

section
/-! PROOFS. What the invariant asks of the block alone, without its clocks, edges and repaint event: every update of State
that an instruction makes keeps it (10_state.md R20, R21, R23, R26, R27, R34, R37, R40). -/

namespace Sys2Proof.Machine

/-- The part of `Inv` that an instruction can touch: memory, the arrays, the registers and `sp`. -/
structure Fits (s : State) : Prop where
  memSize : 0 < s.cfg.memSize
  mem : s.mem.wf s.cfg.memSize = true
  sized : Sized s
  inRange : InRange s
  flagReg : s.cfg.flagReg < s.cfg.nRegs
  sp : s.sp ≤ s.cfg.stackDepth

theorem Inv.fits {s : State} (h : Inv s) : Fits s where
  memSize := h.memSize
  mem := h.mem
  sized := h.sized
  inRange := h.inRange
  flagReg := h.flagReg
  sp := h.sp

namespace Fits

variable {s t : State}

/-- A change that leaves the parameters, memory, the arrays and the registers alone. -/
theorem congr (h : Fits s) (hc : t.cfg = s.cfg := by simp) (hm : t.mem = s.mem := by simp) (hv : t.v = s.v := by simp)
    (hpc : t.pcBits = s.pcBits := by simp) (hi : t.indexBits = s.indexBits := by simp) (hsp : t.sp = s.sp := by simp)
    (hst : t.stack = s.stack := by simp) (hfb : t.fb = s.fb := by simp) (hd : t.down = s.down := by simp)
    (hp : t.pressedEdge = s.pressedEdge := by simp) (hr : t.releasedEdge = s.releasedEdge := by simp) : Fits t where
  memSize := hc ▸ h.memSize
  mem := by rw [hm, hc]; exact h.mem
  sized := h.sized.congr hc hv hst hfb hd hp hr
  inRange := h.inRange.congr hc hv hpc hi hst
  flagReg := hc ▸ h.flagReg
  sp := by rw [hsp, hc]; exact h.sp

theorem constructed {cfg : Params} (hm : 0 < cfg.memSize) (hf : cfg.flagReg < cfg.nRegs) : Fits (.constructed cfg) where
  memSize := hm
  mem := Memory.wf_nil _
  sized := .constructed cfg
  inRange := .constructed cfg
  flagReg := hf
  sp := Nat.zero_le _

/-! ### The named updates -/

theorem setReg (h : Fits s) {x : Nat} (hx : x < s.cfg.nRegs) (n : Nat) : Fits (s.setReg x n) :=
  { h with sized := h.sized.setReg hx n, inRange := h.inRange.setReg (h.sized.v ▸ hx) n }

theorem setFlag (h : Fits s) (b : Bool) : Fits (s.setFlag b) := h.setReg h.flagReg _

theorem setPc (h : Fits s) (a : Nat) : Fits (s.setPc a) :=
  { h with sized := h.sized.congr rfl rfl rfl rfl rfl rfl rfl, inRange := h.inRange.setPc a }

theorem setIndex (h : Fits s) (a : Nat) : Fits (s.setIndex a) :=
  { h with sized := h.sized.congr rfl rfl rfl rfl rfl rfl rfl, inRange := h.inRange.setIndex a }

theorem clearFrame (h : Fits s) : Fits s.clearFrame :=
  { h with sized := h.sized.clearFrame, inRange := h.inRange.congr rfl rfl rfl rfl rfl }

theorem push (h : Fits s) (hp : s.push = .ok t) : Fits t := by
  have hsized := h.sized.push hp
  obtain ⟨hs, rfl⟩ := State.push_ok hp
  exact { h with sized := hsized, inRange := h.inRange.push (h.sized.stack ▸ hs) hp, sp := hs }

theorem pop (h : Fits s) (hp : s.pop = .ok t) : Fits t := by
  obtain ⟨n, hn, rfl⟩ := State.pop_ok hp
  have hle : n ≤ s.cfg.stackDepth := by have := h.sp; omega
  exact { h with
    sized := h.sized.congr rfl rfl rfl rfl rfl rfl rfl
    inRange := (h.inRange.congr rfl rfl rfl rfl rfl : InRange (s.setSp n)).setPc _
    sp := hle }

theorem skipIf (h : Fits s) (c : Bool) : Fits (s.skipIf c) := by
  cases c
  · exact h
  · exact h.setPc _

theorem shiftCopy (h : Fits s) {x : RegIdx} (hx : x.val < s.cfg.nRegs) (y : RegIdx) : Fits (s.shiftCopy x y) := by
  unfold State.shiftCopy
  split
  · exact h.setReg hx _
  · exact h

theorem writeFlagged (h : Fits s) {x : RegIdx} (hx : x.val < s.cfg.nRegs) (result : State → Nat) (flag : State → Bool) :
    Fits (s.writeFlagged x result flag) := by
  obtain ⟨-, he⟩ | ⟨-, he⟩ := State.writeFlagged_cases s x result flag <;> rw [he]
  · exact (h.setReg hx _).setFlag _
  · exact (h.setFlag _).setReg hx _

theorem classicAdvance (h : Fits s) (x : RegIdx) : Fits (s.classicAdvance x) := by
  unfold State.classicAdvance
  split
  · exact h.setIndex _
  · exact h

theorem storeBytes (h : Fits s) {a : Nat} {bs : List Byte} (hs : s.storeBytes a bs = .ok t) : Fits t := by
  obtain ⟨-, rest, -, -, hwf⟩ := State.storeBytes_ok hs
  have hmem := hwf h.memSize h.mem
  rw [rest] at hmem ⊢
  exact { h with
    mem := hmem
    sized := h.sized.congr rfl rfl rfl rfl rfl rfl rfl
    inRange := h.inRange.congr rfl rfl rfl rfl rfl }

theorem loadBytes (h : Fits s) {a : Nat} {xs : List Nat} (hx : ∀ x ∈ xs, x < s.cfg.nRegs)
    (hl : s.loadBytes a xs = .ok t) : Fits t := by
  obtain ⟨hsized, hrange⟩ := State.loadBytes_sized hx h.sized h.inRange hl
  have rest := State.loadBytes_rest hl
  rw [rest] at hsized hrange ⊢
  exact { h with sized := hsized, inRange := hrange }

theorem drawRows (h : Fits s) {col : State → Nat} {n j y : Nat} (hd : State.drawRows col n j y s = .ok t) : Fits t := by
  obtain ⟨hsized, hrange⟩ := State.drawRows_sized n j y s t h.flagReg ⟨h.sized, h.inRange⟩ hd
  obtain ⟨rest, -⟩ := State.drawRows_rest n j y s t hd
  rw [rest] at hsized hrange ⊢
  exact { h with sized := hsized, inRange := hrange }

end Fits

/-- A block that has the registers an instruction names has each of them. -/
theorem registersPresent_lt {cfg : Params} {i : Instr} {x : RegIdx} (h : registersPresent cfg i = true)
    (hx : x ∈ namedRegs cfg i) : x.val < cfg.nRegs := of_decide_eq_true (List.all_eq_true.mp h x hx)

/-- Every instruction whose registers the block has keeps memory, the arrays, the registers and `sp` as they should be. -/
theorem exec_fits {i : Instr} {s t : State} (hs : Fits s) (hr : registersPresent s.cfg i = true)
    (h : exec i s = .next t) : Fits t := by
  have hx {x : RegIdx} := registersPresent_lt (x := x) hr
  cases i
  case clearScreen => cases h; exact hs.clearFrame
  case ret => exact hs.pop (finish_next h)
  case call nnn => obtain ⟨u, hu, rfl⟩ := execCall_next h; exact (hs.push hu).setPc _
  case jump nnn | jumpOffset nnn x => cases h; exact hs.setPc _
  case skipEqImm x nn | skipNeqImm x nn | skipEqReg x y | skipNeqReg x y => cases h; exact hs.skipIf _
  case skipIfKeyDown x => obtain ⟨k, -, rfl⟩ := execSkipIfKeyDown_next h; exact hs.skipIf _
  case skipIfKeyUp x => obtain ⟨k, -, rfl⟩ := execSkipIfKeyUp_next h; exact hs.skipIf _
  case setImm x _ | addImm x _ | setReg x _ | orReg x _ | andReg x _ | xorReg x _ | getDelay x =>
    cases h; exact hs.setReg (hx (by simp [namedRegs])) _
  case addReg x y => cases h; exact (hs.setReg (hx (by simp [namedRegs])) _).setFlag _
  case subReg x y | subRegReversed x y => cases h; exact hs.writeFlagged (hx (by simp [namedRegs])) _ _
  case shiftRight x y | shiftLeft x y =>
    have hx : x.val < s.cfg.nRegs := hx (by dsimp only [namedRegs]; split <;> simp)
    cases h
    exact (hs.shiftCopy hx y).writeFlagged (by rwa [State.shiftCopy_cfg]) _ _
  case random x nn =>
    cases h
    have hdrawn : Fits s.countDraw := hs.congr
    exact hdrawn.setReg (hx (by simp [namedRegs])) _
  case waitKey x =>
    obtain ⟨k, -, rfl⟩ | ⟨-, rfl⟩ := execWaitKey_next h
    · exact hs.setReg (hx (by simp [namedRegs])) k
    · exact hs.setPc _
  case setDelay x | setSound x => cases h; exact hs.congr
  case setIndex nnn | fontChar x => cases h; exact hs.setIndex _
  case addIndex x =>
    obtain ⟨a, -, ⟨-, rfl⟩ | ⟨-, rfl⟩⟩ := execAddIndex_next h
    · exact (hs.setIndex a).setFlag true
    · exact hs.setIndex a
  case bcd x => exact hs.storeBytes (finish_next h)
  case storeRegs x =>
    obtain ⟨u, hu, rfl⟩ := execStoreRegs_next h
    exact (hs.storeBytes hu).classicAdvance x
  case loadRegs x =>
    obtain ⟨u, hu, rfl⟩ := execLoadRegs_next h
    have hlast : x.val < s.cfg.nRegs := hx (by simp [namedRegs])
    exact (hs.loadBytes (fun r hmem => by rw [mem_regsUpTo] at hmem; omega) hu).classicAdvance x
  case draw x y n =>
    obtain ⟨col, hrows⟩ := execDraw_next h
    exact (hs.setFlag false).drawRows hrows

end Sys2Proof.Machine
end

section
/-! PROOFS. What a poll keeps: the parts of the invariant that a tick cannot touch, the clocks' counts (60_exceptions.md
R150, R156), the key edges (10_state.md R42) and the repaint event (R154). -/

namespace Sys2Proof.Machine

/-- A tick changes no hidden state, as no instruction does (R33). -/
theorem tick_hidden {s t : State} (h : tick s = .next t) : SameHidden s t := by
  obtain ⟨w, -, ⟨i, -, -, hexec⟩ | ⟨-, rfl⟩⟩ := tick_next h
  · exact (exec_keeps hexec).hidden
  · exact .refl s

theorem tick_fits {s t : State} (hs : Fits s) (h : tick s = .next t) : Fits t := by
  obtain ⟨w, -, ⟨i, -, hr, hexec⟩ | ⟨-, rfl⟩⟩ := tick_next h
  · exact exec_fits (hs.setPc _) hr hexec
  · exact hs.setPc _

theorem Fits.endCycle {s : State} (h : Fits s) : Fits s.endCycle :=
  { h with
    sized := h.sized.resetEdges.congr rfl rfl rfl rfl rfl rfl rfl
    inRange := h.inRange.congr rfl rfl rfl rfl rfl }

theorem cpuPhase_fits {now : Nat} {s t : State} (hs : Fits s) (h : cpuPhase now s = .next t) : Fits t := by
  obtain ⟨-, h⟩ | ⟨-, rfl⟩ := cpuPhase_next h
  · obtain ⟨u, hu, rfl⟩ := cycleAction_next h
    exact (tick_fits hs hu).endCycle
  · exact hs

/-! ### Clocks -/

/-- A clock is due exactly while it has fired less often than its rate gives (R150, R156). -/
theorem due_iff_lt_exactFirings {hz k t0 now : Nat} : due hz k t0 now = true ↔ k < exactFirings hz t0 now := by
  rw [due_iff, exactFirings, Nat.lt_iff_add_one_le, Nat.le_div_iff_mul_le (by decide)]

/-- Firing when due takes no clock past its rate (R156). -/
theorem fired_le_exactFirings {hz k t0 now : Nat} (h : k ≤ exactFirings hz t0 now) :
    (if due hz k t0 now then k + 1 else k) ≤ exactFirings hz t0 now := by
  split
  · exact due_iff_lt_exactFirings.mp ‹_›
  · exact h

theorem exactFirings_mono {hz t0 now now' : Nat} (h : now ≤ now') : exactFirings hz t0 now ≤ exactFirings hz t0 now' :=
  Nat.div_le_div_right (Nat.mul_le_mul_right hz (Nat.sub_le_sub_right h t0))

theorem timerPhase_kTimer_le {now : Nat} {s : State} (h : s.kTimer ≤ exactFirings s.cfg.timerHz s.t0 now) :
    (timerPhase now s).kTimer ≤ exactFirings s.cfg.timerHz s.t0 now := by
  rw [timerPhase_kTimer]; exact fired_le_exactFirings h

theorem framePhase_kFrame_le {now : Nat} {s : State} (h : s.kFrame ≤ exactFirings s.cfg.frameHz s.t0 now) :
    (framePhase now s).kFrame ≤ exactFirings s.cfg.frameHz s.t0 now := by
  rw [framePhase_kFrame]; exact fired_le_exactFirings h

/-- The cpu clock's part of a poll counts the cpu clock where it is due, and no other (R151). -/
theorem cpuPhase_counts {now : Nat} {s t : State} (h : cpuPhase now s = .next t) :
    t.kCpu = (if due s.cfg.cpuHz s.kCpu s.t0 now then s.kCpu + 1 else s.kCpu) ∧ t.kTimer = s.kTimer ∧
      t.kFrame = s.kFrame ∧ t.t0 = s.t0 ∧ t.cfg = s.cfg ∧ t.repaint = s.repaint := by
  obtain ⟨hd, h⟩ | ⟨hd, rfl⟩ := cpuPhase_next h
  · obtain ⟨u, hu, rfl⟩ := cycleAction_next h
    obtain ⟨-, -, -, kCpu, kTimer, kFrame, t0, -, -, cfg, -, repaint⟩ := tick_hidden hu
    simp [hd, kCpu, kTimer, kFrame, t0, cfg, repaint]
  · simp [hd]

/-! ### Edges -/

theorem EdgesFit.congr {s t : State} (h : EdgesFit s) (hd : t.down = s.down) (hp : t.pressedEdge = s.pressedEdge)
    (hr : t.releasedEdge = s.releasedEdge) : EdgesFit t := fun k => by
  simpa only [State.keyDown, State.keyPressed, State.keyReleased, hd, hp, hr] using h k

theorem EdgesFit.of_none {s : State} (h : ∀ k, s.keyPressed k = false ∧ s.keyReleased k = false) : EdgesFit s :=
  fun k => by simp [h k]

theorem EdgesFit.press {s : State} (h : EdgesFit s) (k : Nat) : EdgesFit (s.press k) := fun j => by
  obtain ⟨hp, hr⟩ := h j
  have hrel : (s.press k).keyReleased j = s.keyReleased j := by simp [State.keyReleased]
  rw [State.press_keyDown, State.press_keyPressed, hrel]
  by_cases hj : j = k
  · simp only [hj, if_true] at hr ⊢
    cases hdown : s.keyDown k <;> simp_all
  · simp only [hj, if_false]
    exact ⟨hp, hr⟩

theorem EdgesFit.release {s : State} (h : EdgesFit s) (k : Nat) : EdgesFit (s.release k) := fun j => by
  obtain ⟨hp, hr⟩ := h j
  have hpre : (s.release k).keyPressed j = s.keyPressed j := by simp [State.keyPressed]
  rw [State.release_keyDown, State.release_keyReleased, hpre]
  by_cases hj : j = k
  · simp only [hj, if_true] at hp ⊢
    cases hdown : s.keyDown k <;> simp_all
  · simp only [hj, if_false]
    exact ⟨hp, hr⟩

theorem cpuPhase_edgesFit {now : Nat} {s t : State} (hs : EdgesFit s) (h : cpuPhase now s = .next t) : EdgesFit t := by
  obtain ⟨-, h⟩ | ⟨-, rfl⟩ := cpuPhase_next h
  · obtain ⟨u, -, rfl⟩ := cycleAction_next h
    exact .of_none (State.resetEdges_edges u)
  · exact hs

/-! ### Repaint -/

/-- The frame clock's part of a poll emits the framebuffer as it stands, if it emits one (R154). -/
theorem framePhase_shows {now : Nat} {s : State} (h : s.repaint = none) (f : Framebuffer)
    (hf : (framePhase now s).repaint = some f) : f = (framePhase now s).fb ∧ (framePhase now s).dirty = false := by
  obtain ⟨-, -, he⟩ | ⟨-, -, he⟩ | ⟨-, he⟩ := framePhase_cases now s <;> rw [he] at hf ⊢
  · cases hf; exact ⟨rfl, rfl⟩
  · rw [State.countFrame_repaint, h] at hf; cases hf
  · rw [h] at hf; cases hf

end Sys2Proof.Machine
end

section
/-! PROOFS. The invariant: construction meets it, and each input of the host keeps it. -/

namespace Sys2Proof.Machine

theorem Inv.constructed {cfg : Params} (hm : 0 < cfg.memSize) (hf : cfg.flagReg < cfg.nRegs) : Inv (.constructed cfg) :=
  { Fits.constructed hm hf with
    time := Nat.le_refl 0
    cpu := Nat.zero_le _
    timer := Nat.zero_le _
    frame := Nat.zero_le _
    edges := .of_none (State.resetEdges_edges (.constructed cfg))
    repaint := fun _ h => by cases h }

/-- Settles O56: reset is a construction. -/
theorem resetMeetsTheInvariant : Obligations.ResetMeetsTheInvariant := .constructed (by decide) (by decide)

/-- The inputs still to come are no part of the invariant. -/
theorem Inv.setInputs {s : State} (h : Inv s) (inputs : List HostInput) : Inv (s.setInputs inputs) :=
  { h with
    sized := h.sized.congr rfl rfl rfl rfl rfl rfl rfl
    inRange := h.inRange.congr rfl rfl rfl rfl rfl
    edges := h.edges.congr rfl rfl rfl }

/-- A step starts with no repaint event. -/
theorem Inv.clearRepaint {s : State} (h : Inv s) : Inv s.clearRepaint :=
  { h with
    sized := h.sized.congr rfl rfl rfl rfl rfl rfl rfl
    inRange := h.inRange.congr rfl rfl rfl rfl rfl
    edges := h.edges.congr rfl rfl rfl
    repaint := fun _ hf => by cases hf }

/-- A change of the keypad alone that keeps its sizes and fits its edges. -/
theorem Inv.of_keypad {s t : State} (h : Inv s)
    (rest : t = { s with down := t.down, pressedEdge := t.pressedEdge, releasedEdge := t.releasedEdge })
    (hsized : Sized t) (hedges : EdgesFit t) : Inv t := by
  rw [rest] at hsized hedges ⊢
  exact { h with sized := hsized, inRange := h.inRange.congr rfl rfl rfl rfl rfl, edges := hedges }

theorem State.press_rest (s : State) (k : Nat) :
    s.press k = { s with down := (s.press k).down, pressedEdge := (s.press k).pressedEdge } := by
  unfold State.press; split <;> rfl

theorem State.release_rest (s : State) (k : Nat) :
    s.release k = { s with down := (s.release k).down, releasedEdge := (s.release k).releasedEdge } := by
  unfold State.release; split <;> rfl

theorem Inv.press {s : State} (h : Inv s) {k : Nat} (hk : k < s.cfg.nKeys) : Inv (s.press k) :=
  h.of_keypad ((s.press_rest k).trans (by simp)) (h.sized.press hk) (h.edges.press k)

theorem Inv.release {s : State} (h : Inv s) {k : Nat} (hk : k < s.cfg.nKeys) : Inv (s.release k) :=
  h.of_keypad ((s.release_rest k).trans (by simp)) (h.sized.release hk) (h.edges.release k)

theorem poll_keeps_inv {now : Nat} {s t : State} (hs : Inv s) (h : poll now s = .next t) : Inv t := by
  obtain ⟨hle, u, hu, rfl⟩ := poll_next h
  have hs := hs.clearRepaint
  have hcycle := cpuPhase_fits hs.fits hu
  obtain ⟨kCpu, kTimer, kFrame, t0, cfg, repaint⟩ := cpuPhase_counts hu
  have hfits : Fits ((framePhase now (timerPhase now u)).setLastNow now) := hcycle.congr
  exact { hfits with
    time := by simpa [t0] using hs.time.trans hle
    cpu := by simpa [kCpu, t0, cfg] using fired_le_exactFirings (hs.cpu.trans (exactFirings_mono hle))
    timer := by
      have hbefore : u.kTimer ≤ exactFirings u.cfg.timerHz u.t0 now := by
        rw [kTimer, t0, cfg]; exact hs.timer.trans (exactFirings_mono hle)
      simpa using timerPhase_kTimer_le hbefore
    frame := by
      have hbefore : u.kFrame ≤ exactFirings u.cfg.frameHz u.t0 now := by
        rw [kFrame, t0, cfg]; exact hs.frame.trans (exactFirings_mono hle)
      simpa using framePhase_kFrame_le (s := timerPhase now u) (by simpa using hbefore)
    edges := (cpuPhase_edgesFit hs.edges hu).congr (by simp) (by simp) (by simp)
    repaint := by
      have hnone : (timerPhase now u).repaint = none := by rw [timerPhase_repaint, repaint, State.clearRepaint_repaint]
      simpa only [State.setLastNow_repaint, State.setLastNow_fb, State.setLastNow_dirty] using framePhase_shows hnone }

/-- Settles O57: a step is a key event or a poll, and each of them keeps the invariant. -/
theorem everyStepKeepsTheInvariant : Obligations.EveryStepKeepsTheInvariant := by
  intro s t hs h
  obtain ⟨-, hcases⟩ := step_next h
  obtain ⟨-, hpoll⟩ | ⟨k, rest, -, hk, rfl⟩ | ⟨k, rest, -, hk, rfl⟩ | ⟨now, rest, -, hpoll⟩ := hcases
  · exact poll_keeps_inv hs hpoll
  · exact (hs.setInputs rest).clearRepaint.press hk
  · exact (hs.setInputs rest).clearRepaint.release hk
  · exact poll_keeps_inv (hs.setInputs rest) hpoll

end Sys2Proof.Machine
end

section
/-! PROOFS. The state after construction, read field by field (10_state.md R35, R36, R45). -/

namespace Sys2Proof.Machine

theorem constructed_reg (cfg : Params) (r : Nat) : (State.constructed cfg).reg r = 0 :=
  (congrArg (· % 2 ^ cfg.regW) (getD_replicate_self cfg.nRegs r 0)).trans (Nat.zero_mod _)

theorem constructed_stackAt (cfg : Params) (j : Nat) : (State.constructed cfg).stackAt j = 0 :=
  (congrArg (· % 2 ^ cfg.pcW) (getD_replicate_self cfg.stackDepth j 0)).trans (Nat.zero_mod _)

/-- A constructed screen is a cleared one. -/
theorem constructed_pixel (cfg : Params) (px py : Nat) : (State.constructed cfg).pixel px py = false :=
  (State.constructed cfg).clearFrame_pixel px py

theorem constructed_keyDown (cfg : Params) (k : Nat) : (State.constructed cfg).keyDown k = false :=
  getD_replicate_self cfg.nKeys k false

theorem initialByte_of_not_font {a : Nat} (h : a < 0x050 ∨ 0x0A0 ≤ a) : initialByte a = 0 :=
  if_neg (show ¬ (0x050 ≤ a ∧ a < 0x050 + 16 * 5) by omega)

/-- Settles O54: unlisted memory is the font and 0 elsewhere, and every array is one value repeated. -/
theorem resetIsAsConstructed : Obligations.ResetIsAsConstructed := by
  refine ⟨rfl, constructed_reg _, rfl, rfl, constructed_stackAt _, rfl, rfl, fun _ => initialByte_of_not_font, by decide,
    constructed_pixel _, rfl, fun k => ⟨constructed_keyDown _ k, ?_⟩, rfl, rfl, rfl, rfl⟩
  exact State.resetEdges_edges (.constructed _) k

end Sys2Proof.Machine
end

section
/-! PROOFS. The fetch (20_memory.md R53, R55, R57; 30_encoding.md R76, R80): the word it answers with, and the tick that it
faults. -/

namespace Sys2Proof.Machine

/-- The first byte of a word is its high one (R53). -/
theorem wordOfBytes_toNat (hi lo : Byte) : (wordOfBytes hi lo).toNat = hi.toNat * 256 + lo.toNat := by
  rw [wordOfBytes, BitVec.toNat_append, ← Nat.shiftLeft_add_eq_or_of_lt lo.isLt, Nat.shiftLeft_eq]

theorem State.memRead_of_outOfRange {s : State} {kind : AccessKind} {ia a : Nat} (hp : s.cfg.oobPolicy = .fault)
    (h : s.cfg.memSize ≤ a) : s.memRead kind ia a = .error (.memOutOfRange kind a ia none) := by
  rw [State.memRead, State.resolve_of_outOfRange hp h]

theorem State.fetch_of_accessible {s : State} (hhi : Accessible s s.pc) (hlo : Accessible s (s.pc + 1)) :
    s.fetch = .ok (wordOfBytes (s.byteAt (s.pc % s.cfg.memSize)) (s.byteAt ((s.pc + 1) % s.cfg.memSize))) := by
  simp only [State.fetch, State.memRead_of_accessible hhi, State.memRead_of_accessible hlo]

theorem State.fetch_of_high_outOfRange {s : State} (hp : s.cfg.oobPolicy = .fault) (h : s.cfg.memSize ≤ s.pc) :
    s.fetch = .error (.memOutOfRange .fetch s.pc s.pc none) := by
  rw [State.fetch, State.memRead_of_outOfRange hp h]

theorem State.fetch_of_low_outOfRange {s : State} (hp : s.cfg.oobPolicy = .fault) (h : s.pc + 1 = s.cfg.memSize) :
    s.fetch = .error (.memOutOfRange .fetch s.cfg.memSize s.pc none) := by
  have hhi : Accessible s s.pc := .inl (h ▸ Nat.lt_succ_self _)
  simp only [State.fetch, State.memRead_of_accessible hhi, h, State.memRead_of_outOfRange hp (Nat.le_refl _)]

theorem tick_of_fetch_error {s : State} {f : Fault} (h : s.fetch = .error f) : tick s = .fault f := by
  rw [tick, h]

/-- Settles O5: both addresses are in range, so each access reaches its own. -/
theorem fetchIsBigEndianAtAnyAddress : Obligations.FetchIsBigEndianAtAnyAddress := by
  intro s hlo
  have hhi : s.pc < s.cfg.memSize := Nat.lt_of_succ_lt hlo
  refine ⟨_, State.fetch_of_accessible (.inl hhi) (.inl hlo), ?_⟩
  rw [wordOfBytes_toNat, Nat.mod_eq_of_lt hhi, Nat.mod_eq_of_lt hlo]

/-- Settles O6: the byte at `pc` is checked first, and under `WRAP` every address is accessible. -/
theorem fetchOutOfRangeFaultsOrWraps : Obligations.FetchOutOfRangeFaultsOrWraps := fun _ =>
  ⟨fun hp h => tick_of_fetch_error (State.fetch_of_high_outOfRange hp h),
    fun hp h => tick_of_fetch_error (State.fetch_of_low_outOfRange hp h),
    fun hw => State.fetch_of_accessible (.inr hw) (.inr hw)⟩

end Sys2Proof.Machine
end

section
/-! PROOFS. The memory transfers out of range (44_index_memory.md R123 to R125; 20_memory.md R57). -/

namespace Sys2Proof.Machine

theorem execBcd_of_outOfRange (x : RegIdx) {s : State} (hp : s.cfg.oobPolicy = .fault)
    (h : s.cfg.memSize < s.index + 3) :
    execBcd x s = .fault (.memOutOfRange .write (max s.index s.cfg.memSize) s.ia none) :=
  congrArg finish (State.storeBytes_fault hp h (List.cons_ne_nil _ _))

theorem execStoreRegs_of_outOfRange {x : RegIdx} {s : State} (hp : s.cfg.oobPolicy = .fault)
    (h : s.cfg.memSize < s.index + (x.val + 1)) :
    execStoreRegs x s = .fault (.memOutOfRange .write (max s.index s.cfg.memSize) s.ia none) := by
  have hlen : ((regsUpTo x).map s.regByte).length = x.val + 1 := by simp
  have hfault := State.storeBytes_fault (a := s.indexPlus 0) hp (hlen ▸ h) (List.ne_nil_of_length_eq_add_one hlen)
  rw [execStoreRegs_eq, hfault]
  rfl

theorem execLoadRegs_of_outOfRange {x : RegIdx} {s : State} (hp : s.cfg.oobPolicy = .fault)
    (h : s.cfg.memSize < s.index + (x.val + 1)) :
    execLoadRegs x s = .fault (.memOutOfRange .read (max s.index s.cfg.memSize) s.ia none) := by
  have hlen := regsUpTo_length x
  have hfault := State.loadBytes_fault (a := s.indexPlus 0) hp (hlen ▸ h) (List.ne_nil_of_length_eq_add_one hlen)
  rw [execLoadRegs_eq, hfault]
  rfl

/-- Settles O31: each transfer begins at `I`, and its one-byte accesses fault at the first that is out of range. -/
theorem transfersOutOfRangeFault : Obligations.TransfersOutOfRangeFault := fun x _ hp =>
  ⟨execBcd_of_outOfRange x hp, fun h => ⟨execStoreRegs_of_outOfRange hp h, execLoadRegs_of_outOfRange hp h⟩⟩

end Sys2Proof.Machine
end

section
/-! PROOFS. The decoder and the encoder (30_encoding.md R65 to R74): a word put together from its fields, what each group's second
dispatch answers, and from these the two directions in which decoding and encoding agree. -/

namespace Sys2Proof

/-! ### The fields of a word as numbers (R12) -/

theorem fieldG_val (w : Word) : (fieldG w).val = w.toNat / 4096 := by
  have hlt : w.toNat < 65536 := w.isLt
  have hval : (fieldG w).val = w.toNat >>> 12 % 16 := BitVec.extractLsb'_toNat ..
  rw [hval, Nat.shiftRight_eq_div_pow]
  omega

theorem fieldN_val (w : Word) : (fieldN w).val = w.toNat % 16 := BitVec.extractLsb'_toNat ..

theorem fieldNN_toNat (w : Word) : (fieldNN w).toNat = w.toNat % 256 := BitVec.extractLsb'_toNat ..

theorem fieldG_eq_iff {w : Word} {g : Fin 16} : fieldG w = g ↔ w.toNat / 4096 = g.val := by
  rw [Fin.ext_iff, fieldG_val]

theorem fieldNN_eq_iff {w : Word} {nn : Byte} : fieldNN w = nn ↔ w.toNat % 256 = nn.toNat := by
  rw [← BitVec.toNat_inj, fieldNN_toNat]

/-! ### A word from fields that are known -/

/-- X is the top nibble of NNN (R93). -/
theorem fieldX_eq_topNibble (w : Word) : fieldX w = topNibble (fieldNNN w) := by
  conv_lhs => rw [eq_packA w, fieldX_packA]

section
variable {w : Word} {g : Fin 16}

theorem packA_of_fields (hg : fieldG w = g) : packA (BitVec.ofFin (w := 4) g) (fieldNNN w) = w :=
  hg ▸ (eq_packA w).symm

theorem packXK_of_fields {nn : Byte} (hg : fieldG w = g) (hnn : fieldNN w = nn) :
    packXK (BitVec.ofFin (w := 4) g) (fieldX w) nn = w :=
  hg ▸ hnn ▸ (eq_packXK w).symm

theorem packXYN_of_fields {n : Fin 16} (hg : fieldG w = g) (hn : fieldN w = n) :
    packXYN (BitVec.ofFin (w := 4) g) (fieldX w) (fieldY w) n = w :=
  hg ▸ hn ▸ (eq_packXYN w).symm

/-- A word under the mask that drops N (R72). -/
theorem packXYN_and_maskGXY (g : BitVec 4) (x y : RegIdx) (n : Fin 16) :
    packXYN g x y n &&& 0xFFF0 = packXYN g x y 0 := by
  have hmask : (0xFFF0 : Word) = 0xF#4 ++ (0xF#4 ++ (0xF#4 ++ 0x0#4)) := rfl
  rw [packXYN, hmask, and_append_append, and_append_append, and_append_append]
  simp [packXYN, nibble_and_full]

theorem packXYN_of_fieldG (hg : fieldG w = g) :
    packXYN (BitVec.ofFin (w := 4) g) (fieldX w) (fieldY w) 0 = w &&& 0xFFF0 := by
  conv_rhs => rw [← packXYN_of_fields hg rfl, packXYN_and_maskGXY]

theorem packXK_zero_of_fields {nn : Byte} (hg : fieldG w = g) (hnn : fieldNN w = nn) :
    packXK (BitVec.ofFin (w := 4) g) 0 nn = w &&& 0xF0FF := by
  conv_rhs => rw [← packXK_of_fields hg hnn, packXK_and_maskGNN]

end

/-! ### Decoding what was encoded -/

/-- Decoding undoes encoding: each format gives its fields back, and each selector its instruction. -/
theorem decode_encode (key : Group0Key) {i : Instr} (h : i.wellFormed = true) : decode key (encode i) = .instr i := by
  cases i
  case clearScreen | ret => cases key <;> rfl
  case jump nnn | call nnn | setIndex nnn => rw [encode, decode, fieldG_packA, fieldNNN_packA]; rfl
  case jumpOffset nnn x =>
    have hx : x = topNibble nnn := eq_of_beq h
    simp [encode, decode, fieldX_packA, hx]
  case skipEqImm x nn | skipNeqImm x nn | setImm x nn | addImm x nn | random x nn => simp [encode, decode]
  case skipEqReg x y | skipNeqReg x y | draw x y n => simp [encode, decode]
  case setReg x y | orReg x y | andReg x y | xorReg x y | addReg x y | subReg x y | shiftRight x y | subRegReversed x y
      | shiftLeft x y => simp [encode, decode, decodeGroup8]
  case skipIfKeyDown x | skipIfKeyUp x => simp [encode, decode, decodeGroupE]
  case getDelay x | waitKey x | setDelay x | setSound x | addIndex x | fontChar x | bcd x | storeRegs x | loadRegs x =>
    simp [encode, decode, decodeGroupF]

/-- Settles O1: under either key, decoding undoes encoding. -/
theorem decodeOfEncodeIsTheInstruction : Obligations.DecodeOfEncodeIsTheInstruction := fun key _ => decode_encode key

/-! ### The first dispatch -/

section
variable {w : Word} (key : Group0Key)

theorem decode_of_group0 (hg : fieldG w = 0) : decode key w = decodeGroup0 key w := by rw [decode, hg]; rfl

theorem decode_of_group8 (hg : fieldG w = 8) : decode key w = decodeGroup8 w := by rw [decode, hg]; rfl

theorem decode_of_groupE (hg : fieldG w = 0xE) : decode key w = decodeGroupE w := by rw [decode, hg]; rfl

theorem decode_of_groupF (hg : fieldG w = 0xF) : decode key w = decodeGroupF w := by rw [decode, hg]; rfl

/-- Every word of the twelve groups with no second dispatch has an instruction, which keeps all of the word but N in groups 5 and
9 (R68, R72). -/
theorem decode_of_other_group (h0 : fieldG w ≠ 0) (h8 : fieldG w ≠ 8) (hE : fieldG w ≠ 0xE) (hF : fieldG w ≠ 0xF) :
    ∃ i, decode key w = .instr i ∧ i.wellFormed = true ∧
      (encode i = w ∨ (∃ x y, i = .skipEqReg x y ∨ i = .skipNeqReg x y) ∧ encode i = w &&& 0xFFF0) := by
  unfold decode
  -- The arm of group G is number G + 1. The last is group F, the one nibble the others leave.
  split
  case h_1 hg => exact absurd hg h0
  case h_9 hg => exact absurd hg h8
  case h_15 hg => exact absurd hg hE
  case h_16 => exfalso; grind
  case h_2 hg | h_3 hg | h_11 hg => exact ⟨_, rfl, rfl, .inl (packA_of_fields hg)⟩
  case h_12 hg => exact ⟨_, rfl, beq_iff_eq.mpr (fieldX_eq_topNibble w), .inl (packA_of_fields hg)⟩
  case h_4 hg | h_5 hg | h_7 hg | h_8 hg | h_13 hg => exact ⟨_, rfl, rfl, .inl (packXK_of_fields hg rfl)⟩
  case h_14 hg => exact ⟨_, rfl, rfl, .inl (packXYN_of_fields hg rfl)⟩
  case h_6 hg => exact ⟨_, rfl, rfl, .inr ⟨⟨_, _, .inl rfl⟩, packXYN_of_fieldG hg⟩⟩
  case h_10 hg => exact ⟨_, rfl, rfl, .inr ⟨⟨_, _, .inr rfl⟩, packXYN_of_fieldG hg⟩⟩

end

/-! ### The second dispatch -/

theorem Byte.toWord_inj {a b : Byte} : a.toWord = b.toWord ↔ a = b :=
  ⟨fun h => by simpa [Byte.toWord] using congrArg (BitVec.setWidth 8) h, congrArg _⟩

/-- Under `GROUP0_KEY` = `NN` the key is the low byte (R71). -/
theorem decodeGroup0_nn (w : Word) : decodeGroup0 .nn w =
    if fieldNN w = 0xE0 then .instr .clearScreen else if fieldNN w = 0xEE then .instr .ret else .unassigned .group0 := by
  have hkey (b : Byte) : (fieldNN w).toWord = b.toWord ↔ fieldNN w = b := Byte.toWord_inj
  simp only [← hkey]; rfl

theorem decodeGroup0_fullWord (w : Word) : decodeGroup0 .fullWord w =
    if w = 0x00E0 then .instr .clearScreen else if w = 0x00EE then .instr .ret else .unassigned .group0 := rfl

section
variable {w : Word} {i : Instr}

theorem decodeGroup0_instr {key : Group0Key} (hg : fieldG w = 0) (h : decodeGroup0 key w = .instr i) :
    (i = .clearScreen ∨ i = .ret) ∧ (encode i = w ∨ key = .nn ∧ encode i = w &&& 0xF0FF) := by
  cases key
  case nn =>
    rw [decodeGroup0_nn] at h
    split_ifs at h with hE0 hEE <;> cases h
    · exact ⟨.inl rfl, .inr ⟨rfl, packXK_zero_of_fields hg hE0⟩⟩
    · exact ⟨.inr rfl, .inr ⟨rfl, packXK_zero_of_fields hg hEE⟩⟩
  case fullWord =>
    rw [decodeGroup0_fullWord] at h
    split_ifs at h with hE0 hEE <;> cases h
    · exact ⟨.inl rfl, .inl hE0.symm⟩
    · exact ⟨.inr rfl, .inl hEE.symm⟩

theorem decodeGroup8_instr (hg : fieldG w = 8) (h : decodeGroup8 w = .instr i) : i.wellFormed = true ∧ encode i = w := by
  unfold decodeGroup8 at h
  split at h <;> cases h <;> exact ⟨rfl, packXYN_of_fields hg ‹_›⟩

theorem decodeGroupE_instr (hg : fieldG w = 0xE) (h : decodeGroupE w = .instr i) : i.wellFormed = true ∧ encode i = w := by
  dsimp only [decodeGroupE] at h
  split_ifs at h <;> cases h <;> exact ⟨rfl, packXK_of_fields hg ‹_›⟩

theorem decodeGroupF_instr (hg : fieldG w = 0xF) (h : decodeGroupF w = .instr i) : i.wellFormed = true ∧ encode i = w := by
  dsimp only [decodeGroupF] at h
  split_ifs at h <;> cases h <;> exact ⟨rfl, packXK_of_fields hg ‹_›⟩

end

/-- Settles O2, by the first dispatch: a group with a second dispatch by what that answers, the others together. -/
theorem decodedWordIsEncodedButForUndecodedBits : Obligations.DecodedWordIsEncodedButForUndecodedBits := by
  intro key w i h
  by_cases h0 : fieldG w = 0
  · obtain ⟨hi, hw⟩ := decodeGroup0_instr h0 (decode_of_group0 key h0 ▸ h)
    exact ⟨by obtain rfl | rfl := hi <;> rfl, hw.imp_right fun ⟨hkey, hw⟩ => .inl ⟨hkey, hi, hw⟩⟩
  by_cases h8 : fieldG w = 8
  · exact (decodeGroup8_instr h8 (decode_of_group8 key h8 ▸ h)).imp_right .inl
  by_cases hE : fieldG w = 0xE
  · exact (decodeGroupE_instr hE (decode_of_groupE key hE ▸ h)).imp_right .inl
  by_cases hF : fieldG w = 0xF
  · exact (decodeGroupF_instr hF (decode_of_groupF key hF ▸ h)).imp_right .inl
  obtain ⟨j, hj, hwf, hw⟩ := decode_of_other_group key h0 h8 hE hF
  cases h.symm.trans hj
  exact ⟨hwf, hw.imp_right .inr⟩

/-! ### The unassigned words (R74) -/

theorem exists_unassigned_ite {c : Prop} [Decidable c] {i : Instr} {d : Decoded} :
    (∃ u, (if c then .instr i else d) = .unassigned u) ↔ ¬c ∧ ∃ u, d = .unassigned u := by
  split <;> simp [*]

section
variable (w : Word)

theorem decodeGroup0_unassigned_iff (key : Group0Key) : (∃ u, decodeGroup0 key w = .unassigned u) ↔
    (key = .nn ∧ w.toNat % 256 ≠ 0xE0 ∧ w.toNat % 256 ≠ 0xEE) ∨
    (key = .fullWord ∧ w.toNat ≠ 0x00E0 ∧ w.toNat ≠ 0x00EE) := by
  cases key
  case nn => simp [decodeGroup0_nn, exists_unassigned_ite, fieldNN_eq_iff]
  case fullWord => simp [decodeGroup0_fullWord, exists_unassigned_ite, ← BitVec.toNat_inj]

theorem decodeGroup8_unassigned_iff :
    (∃ u, decodeGroup8 w = .unassigned u) ↔ w.toNat % 16 ∈ [8, 9, 0xA, 0xB, 0xC, 0xD, 0xF] := by
  rw [← fieldN_val]
  unfold decodeGroup8
  generalize fieldN w = n
  fin_cases n <;> simp

theorem decodeGroupE_unassigned_iff : (∃ u, decodeGroupE w = .unassigned u) ↔ w.toNat % 256 ∉ [0x9E, 0xA1] := by
  simp [decodeGroupE, exists_unassigned_ite, fieldNN_eq_iff]

theorem decodeGroupF_unassigned_iff : (∃ u, decodeGroupF w = .unassigned u) ↔
    w.toNat % 256 ∉ [0x07, 0x0A, 0x15, 0x18, 0x1E, 0x29, 0x33, 0x55, 0x65] := by
  simp [decodeGroupF, exists_unassigned_ite, fieldNN_eq_iff]

end

/-- Settles O3: the groups differ in G, and each with a second dispatch has its own list. -/
theorem unassignedWordsAreThoseListed : Obligations.UnassignedWordsAreThoseListed := by
  intro key w
  by_cases h0 : fieldG w = 0
  · rw [decode_of_group0 key h0, decodeGroup0_unassigned_iff]
    simp [fieldG_eq_iff.mp h0]
  by_cases h8 : fieldG w = 8
  · rw [decode_of_group8 key h8, decodeGroup8_unassigned_iff]
    simp [fieldG_eq_iff.mp h8]
  by_cases hE : fieldG w = 0xE
  · rw [decode_of_groupE key hE, decodeGroupE_unassigned_iff]
    simp [fieldG_eq_iff.mp hE]
  by_cases hF : fieldG w = 0xF
  · rw [decode_of_groupF key hF, decodeGroupF_unassigned_iff]
    simp [fieldG_eq_iff.mp hF]
  obtain ⟨i, hi, -⟩ := decode_of_other_group key h0 h8 hE hF
  have hG {g : Fin 16} (h : fieldG w ≠ g) : w.toNat / 4096 ≠ g.val := mt fieldG_eq_iff.mpr h
  simp [hi, show w.toNat / 4096 ≠ 0 from hG h0, show w.toNat / 4096 ≠ 8 from hG h8, show w.toNat / 4096 ≠ 0xE from hG hE,
    show w.toNat / 4096 ≠ 0xF from hG hF]

/-- Settles O4: the decoder evaluates on each word. -/
theorem writtenOutWordsDecode : Obligations.WrittenOutWordsDecode := by
  unfold Obligations.WrittenOutWordsDecode
  decide

end Sys2Proof
end

section
/-! PROOFS. What an instruction faults with (60_exceptions.md R141), and what a tick and a step make of the word fetched
(30_encoding.md R73, R75 to R79). -/

namespace Sys2Proof.Machine

/-! ### The fault of an instruction -/

/-- A meaning that carries on what an operation answered with faults only where the operation did. -/
theorem finish_map_fault {α : Type} {o : Except Fault α} {g : α → State} {f : Fault} (h : finish (o.map g) = .fault f) :
    o = .error f := by
  cases o with
  | ok a => cases h
  | error e => cases h; rfl

theorem State.push_error {s : State} {f : Fault} (h : s.push = .error f) :
    s.cfg.stackDepth ≤ s.sp ∧ f = .stackOverflow s.ia none := by
  by_cases hsp : s.sp < s.cfg.stackDepth
  · rw [State.push_of_free hsp] at h; cases h
  · have hfull := Nat.le_of_not_lt hsp
    rw [State.push_of_full hfull] at h; cases h; exact ⟨hfull, rfl⟩

theorem State.pop_error {s : State} {f : Fault} (h : s.pop = .error f) : s.sp = 0 ∧ f = .stackUnderflow s.ia none := by
  cases hsp : s.sp with
  | zero => rw [State.pop_of_empty hsp] at h; cases h; exact ⟨rfl, rfl⟩
  | succ n => rw [State.pop_of_used hsp] at h; cases h

theorem State.keyOf_error {s : State} {x : RegIdx} {f : Fault} (h : s.keyOf x = .error f) :
    s.cfg.nKeys ≤ s.reg x ∧ f = .keyIndexOutOfRange (s.reg x) s.ia none := by
  unfold State.keyOf at h
  split at h
  · cases h
  · cases h; exact ⟨Nat.le_of_not_lt ‹_›, rfl⟩

theorem execDraw_fault {x y : RegIdx} {n : Fin 16} {s : State} {f : Fault} (h : execDraw x y n s = .fault f) :
    s.cfg.oobPolicy = .fault ∧ ∃ a, s.cfg.memSize ≤ a ∧ f = .memOutOfRange .read a s.ia none := by
  obtain ⟨col, hrows, -⟩ := execDraw_rows s x y n
  exact State.drawRows_error n.val 0 (spriteTop s y) (s.setFlag false) f (finish_fault (hrows.symm.trans h))

/-- The faults of R141 but that of a fetch, each with the instructions that raise it and when (decisions D3 to D6). -/
theorem exec_fault {i : Instr} {s : State} {f : Fault} (h : exec i s = .fault f) :
    ((∃ nnn, i = .call nnn) ∧ s.cfg.stackDepth ≤ s.sp ∧ f = .stackOverflow s.ia none) ∨
    (i = .ret ∧ s.sp = 0 ∧ f = .stackUnderflow s.ia none) ∨
    (∃ x, (i = .skipIfKeyDown x ∨ i = .skipIfKeyUp x) ∧ s.cfg.nKeys ≤ s.reg x ∧
      f = .keyIndexOutOfRange (s.reg x) s.ia none) ∨
    (s.cfg.oobPolicy = .fault ∧ ∃ a, s.cfg.memSize ≤ a ∧
      (((∃ x y n, i = .draw x y n) ∨ (∃ x, i = .loadRegs x)) ∧ f = .memOutOfRange .read a s.ia none ∨
        (∃ x, i = .bcd x ∨ i = .storeRegs x) ∧ f = .memOutOfRange .write a s.ia none)) := by
  cases i
  case call nnn =>
    exact .inl ⟨⟨nnn, rfl⟩, State.push_error (finish_map_fault ((execCall_eq nnn s).symm.trans h))⟩
  case ret => exact .inr (.inl ⟨rfl, State.pop_error (finish_fault h)⟩)
  case skipIfKeyDown x =>
    have hkey := State.keyOf_error (finish_map_fault ((execSkipIfKeyDown_eq x s).symm.trans h))
    exact .inr (.inr (.inl ⟨x, .inl rfl, hkey⟩))
  case skipIfKeyUp x =>
    have hkey := State.keyOf_error (finish_map_fault ((execSkipIfKeyUp_eq x s).symm.trans h))
    exact .inr (.inr (.inl ⟨x, .inr rfl, hkey⟩))
  case draw x y n =>
    obtain ⟨hp, a, ha, hf⟩ := execDraw_fault h
    exact .inr (.inr (.inr ⟨hp, a, ha, .inl ⟨.inl ⟨x, y, n, rfl⟩, hf⟩⟩))
  case loadRegs x =>
    obtain ⟨hp, a, ha, hf⟩ := State.loadBytes_error (finish_map_fault ((execLoadRegs_eq x s).symm.trans h))
    exact .inr (.inr (.inr ⟨hp, a, ha, .inl ⟨.inr ⟨x, rfl⟩, hf⟩⟩))
  case bcd x =>
    obtain ⟨hp, a, ha, hf⟩ := State.storeBytes_error (finish_fault h)
    exact .inr (.inr (.inr ⟨hp, a, ha, .inr ⟨⟨x, .inl rfl⟩, hf⟩⟩))
  case storeRegs x =>
    obtain ⟨hp, a, ha, hf⟩ := State.storeBytes_error (finish_map_fault ((execStoreRegs_eq x s).symm.trans h))
    exact .inr (.inr (.inr ⟨hp, a, ha, .inr ⟨⟨x, .inr rfl⟩, hf⟩⟩))
  -- Every other instruction answers a next state.
  all_goals cases h

/-! ### The tick of a fetched word -/

section
variable {s : State} {w : Word} (hw : s.fetch = .ok w)
include hw

theorem tick_of_unassigned {u : Unassigned} (hu : decode s.cfg.group0Key w = .unassigned u) : tick s = .next s.advance := by
  simp only [tick, hw, hu]

/-- The tick of an instruction that faults, with the word filled in (R141). -/
theorem tick_of_exec_fault {i : Instr} {f : Fault} (hi : decode s.cfg.group0Key w = .instr i)
    (hr : registersPresent s.cfg i = true) (h : exec i s.advance = .fault f) : tick s = .fault (f.withWord w) := by
  rw [tick_of_instr hw hi hr, h, recordWord]

end

theorem registersPresent_of_or {cfg : Params} {i : Instr} (h : 16 ≤ cfg.nRegs ∨ registersPresent cfg i = true) :
    registersPresent cfg i = true :=
  h.elim (registersPresent_of_le · i) id

/-- Settles O60: the address the instruction records is the `pc` of its fetch, and the tick fills in the word. -/
theorem faultRecordsItsAddressAndWord : Obligations.FaultRecordsItsAddressAndWord := by
  intro s w i f hw hi hr h
  have htick := tick_of_exec_fault hw hi (registersPresent_of_or hr) h
  have hcases := exec_fault h
  rw [State.ia_setPc_add_two] at hcases
  obtain ⟨-, -, rfl⟩ | ⟨-, -, rfl⟩ | ⟨x, -, -, rfl⟩ | ⟨-, a, -, ⟨-, rfl⟩ | ⟨-, rfl⟩⟩ := hcases
  · exact .inl ⟨rfl, htick⟩
  · exact .inr (.inl ⟨rfl, htick⟩)
  · exact .inr (.inr (.inl ⟨_, rfl, htick⟩))
  · exact .inr (.inr (.inr ⟨.read, a, by decide, rfl, htick⟩))
  · exact .inr (.inr (.inr ⟨.write, a, by decide, rfl, htick⟩))

/-- Settles O8: the tick is the advance of `pc`, which writes nothing else. -/
theorem unassignedWordIsANoOp : Obligations.UnassignedWordIsANoOp := by
  intro s w u hw hu
  exact ⟨s.advance, tick_of_unassigned hw hu, State.setPc_pc .., (Keeps.setPc (List.mem_singleton_self _) _).frame⟩

/-! ### The step of a fetched word -/

theorem State.setInputs_self (s : State) : s.setInputs s.hostInputs = s := rfl

/-- The step of a poll, whether it waits in the queue or is the model's own (log entries 10 and 11). -/
theorem step_of_poll {s : State} {now : Nat} {rest : List HostInput} (hf : s.fault = none)
    (hin : s.hostInputs = .poll now :: rest ∨ (s.hostInputs = [] ∧ rest = [] ∧ now = s.nextCpuTime)) :
    step s = poll now (s.setInputs rest) := by
  rw [step_of_no_fault hf]
  obtain hin | ⟨hin, rfl, rfl⟩ := hin
  · exact hostStep_of_poll hin
  · rw [hostStep_of_no_input hin, ← hin, State.setInputs_self]

/-- A poll in which the cpu clock is due is the tick, the end of the cycle action and the two other clocks' parts (R151). -/
theorem poll_of_cpu_due {now : Nat} {s : State} (hle : s.lastNow ≤ now)
    (hdue : due s.cfg.cpuHz s.kCpu s.t0 now = true) :
    poll now s =
      mapNext (fun t => (framePhase now (timerPhase now t.endCycle)).setLastNow now) (tick s.clearRepaint) := by
  have hcpu : cpuPhase now s.clearRepaint = cycleAction s.clearRepaint := if_pos hdue
  rw [poll_of_le hle, hcpu, cycleAction, mapNext_mapNext]

/-- Settles O7: the step is the poll, whose tick fetches from a state that differs from `s` in its queue and repaint event
alone. -/
theorem stepRunsTheDecodedInstruction : Obligations.StepRunsTheDecodedInstruction := by
  intro s now rest w i hf hin hle hdue hw hi
  have hfetch : (s.setInputs rest).clearRepaint.fetch = .ok w := (State.fetch_congr rfl rfl rfl).trans hw
  rw [step_of_poll hf hin, poll_of_cpu_due (s := s.setInputs rest) hle hdue]
  refine ⟨fun hr => ?_, fun hr => ?_⟩
  · rw [tick_of_instr hfetch hi (registersPresent_of_or hr)]; rfl
  · rw [tick_of_absent hfetch hi hr]; rfl

end Sys2Proof.Machine
end

section
/-! PROOFS. The jumps (41_flow.md R91, R93). -/

namespace Sys2Proof

theorem topNibble_val (nnn : BitVec 12) : (topNibble nnn).val = nnn.toNat / 256 := by
  have hlt : nnn.toNat < 4096 := nnn.isLt
  have hval : (topNibble nnn).val = nnn.toNat >>> 8 % 16 := BitVec.extractLsb'_toNat ..
  rw [hval, Nat.shiftRight_eq_div_pow]
  omega

namespace Machine

/-- The register that a jump-offset adds, read (R93, decision D7). -/
theorem State.reg_jumpRegister (s : State) (x : RegIdx) :
    s.reg (s.jumpRegister x) = if s.cfg.classicMode then s.reg 0 else s.reg x :=
  apply_ite s.reg ..

/-- Settles O18: the target is written to `pc` alone, and 12 bits fit a `pc` of 12 bits or more. -/
theorem jumpSetsPc : Obligations.JumpSetsPc := by
  intro nnn s
  have hjump : exec (.jump nnn) s = .next (s.setPc nnn.toNat) := rfl
  have hpc : (s.setPc nnn.toNat).pc = nnn.toNat % 2 ^ s.cfg.pcW := State.setPc_pc ..
  refine ⟨_, hjump, hpc, fun hw => ?_, (exec_keeps hjump).frame⟩
  have hfits : nnn.toNat < 2 ^ s.cfg.pcW := nnn.isLt.trans_le (Nat.pow_le_pow_right Nat.two_pos hw)
  rw [hpc, Nat.mod_eq_of_lt hfits]

/-- Settles O21: a well-formed term has the top nibble of NNN for X, and the sum is written to `pc` alone. -/
theorem jumpOffsetAddsTheSelectedRegister : Obligations.JumpOffsetAddsTheSelectedRegister := by
  intro nnn x s hwf
  have hx : x = topNibble nnn := eq_of_beq hwf
  have hjump : exec (.jumpOffset nnn x) s = .next (s.setPc (nnn.toNat + s.reg (s.jumpRegister x))) := rfl
  refine ⟨hx ▸ topNibble_val nnn, _, hjump, ?_, (exec_keeps hjump).frame⟩
  rw [State.setPc_pc, State.reg_jumpRegister]

end Machine
end Sys2Proof
end

section
/-! PROOFS. The skips (42_skips.md R97 to R103). -/

namespace Sys2Proof.Machine

variable {s : State}

@[simp] theorem State.skipIf_pc (s : State) (c : Bool) :
    (s.skipIf c).pc = if c then (s.pc + 2) % 2 ^ s.cfg.pcW else s.pc := by
  cases c
  · rfl
  · exact State.setPc_pc ..

/-! ### What an instruction that answers a skip leaves -/

section
variable {o : Host.Outcome State Fault Refusal} {c : Bool} {p : Prop} [Decidable p] (ho : o = .next (s.skipIf c))
include ho

theorem next_skipIf (hc : c = true ↔ p) :
    ∃ t, o = .next t ∧ t.pc = (if p then (s.pc + 2) % 2 ^ s.cfg.pcW else s.pc) ∧ Frame [.pc] [] s t := by
  refine ⟨_, ho, ?_, (Keeps.skipIf (List.mem_singleton_self _) c).frame⟩
  simp only [State.skipIf_pc, hc]

theorem next_skipIf_of_not (hc : c = true ↔ ¬p) :
    ∃ t, o = .next t ∧ t.pc = (if p then s.pc else (s.pc + 2) % 2 ^ s.cfg.pcW) ∧ Frame [.pc] [] s t := by
  simpa only [ite_not] using next_skipIf ho hc

end

/-! ### The key that a register numbers -/

theorem State.keyOf_of_lt {x : RegIdx} (h : s.reg x < s.cfg.nKeys) : s.keyOf x = .ok (s.reg x) := if_pos h

theorem State.keyOf_of_le {x : RegIdx} (h : s.cfg.nKeys ≤ s.reg x) :
    s.keyOf x = .error (.keyIndexOutOfRange (s.reg x) s.ia none) := if_neg (Nat.not_lt_of_le h)

theorem execSkipIfKeyDown_of_key {x : RegIdx} (h : s.reg x < s.cfg.nKeys) :
    execSkipIfKeyDown x s = .next (s.skipIf (s.keyDown (s.reg x))) := by
  rw [execSkipIfKeyDown_eq, State.keyOf_of_lt h]; rfl

theorem execSkipIfKeyUp_of_key {x : RegIdx} (h : s.reg x < s.cfg.nKeys) :
    execSkipIfKeyUp x s = .next (s.skipIf (!s.keyDown (s.reg x))) := by
  rw [execSkipIfKeyUp_eq, State.keyOf_of_lt h]; rfl

theorem execSkipIfKeyDown_of_no_key {x : RegIdx} (h : s.cfg.nKeys ≤ s.reg x) :
    execSkipIfKeyDown x s = .fault (.keyIndexOutOfRange (s.reg x) s.ia none) := by
  rw [execSkipIfKeyDown_eq, State.keyOf_of_le h]; rfl

theorem execSkipIfKeyUp_of_no_key {x : RegIdx} (h : s.cfg.nKeys ≤ s.reg x) :
    execSkipIfKeyUp x s = .fault (.keyIndexOutOfRange (s.reg x) s.ia none) := by
  rw [execSkipIfKeyUp_eq, State.keyOf_of_le h]; rfl

/-! ### The obligations -/

/-- Settles O23: each answers the skip on its comparison of V[X] with NN. -/
theorem skipsOnAnImmediate : Obligations.SkipsOnAnImmediate := by
  intro x nn s
  have heq : exec (.skipEqImm x nn) s = .next (s.skipIf (s.reg x == nn.toNat)) := rfl
  have hne : exec (.skipNeqImm x nn) s = .next (s.skipIf (s.reg x != nn.toNat)) := rfl
  exact ⟨next_skipIf heq beq_iff_eq, next_skipIf_of_not hne bne_iff_ne⟩

/-- Settles O24: each answers the skip on its comparison of V[X] with V[Y]. -/
theorem skipsOnTwoRegisters : Obligations.SkipsOnTwoRegisters := by
  intro x y s
  have heq : exec (.skipEqReg x y) s = .next (s.skipIf (s.reg x == s.reg y)) := rfl
  have hne : exec (.skipNeqReg x y) s = .next (s.skipIf (s.reg x != s.reg y)) := rfl
  exact ⟨next_skipIf heq beq_iff_eq, next_skipIf_of_not hne bne_iff_ne⟩

/-- Settles O25: a number below `NKEYS` gives the skip on `down`, and any other the fault. -/
theorem skipsOnAKey : Obligations.SkipsOnAKey := by
  intro x s
  refine ⟨fun hkey => ⟨?_, ?_⟩, fun hno => ⟨execSkipIfKeyDown_of_no_key hno, execSkipIfKeyUp_of_no_key hno⟩⟩
  · exact next_skipIf (execSkipIfKeyDown_of_key hkey) Iff.rfl
  · exact next_skipIf_of_not (execSkipIfKeyUp_of_key hkey) Bool.not_iff_not

end Sys2Proof.Machine
end

section
/-! PROOFS. Register arithmetic, logic and shifts (43_alu.md R105 to R117): what a write of V[X] alone leaves, then what a
result written with its flag reads as in each `VF_ORDER`, and the subtractions and shifts from that. -/

namespace Sys2Proof.Machine

variable {s : State} {x y : RegIdx}

/-! ### One register written -/

/-- What an instruction that writes V[X] alone leaves, its value given as the register holds it. -/
theorem next_setReg {o : Host.Outcome State Fault Refusal} {n r : Nat} (ho : o = .next (s.setReg x n))
    (hn : n % 2 ^ s.cfg.regW = r) : ∃ t, o = .next t ∧ t.reg x = r ∧ Frame [] [x.val] s t :=
  ⟨_, ho, by rw [State.setReg_reg, if_pos rfl, hn], (Keeps.setReg (List.mem_singleton_self _) n).frame⟩

/-- Settles O10: each writes V[X] alone, and an immediate fits a register of 8 bits or more. -/
theorem setImmAndAddImm : Obligations.SetImmAndAddImm := by
  intro x nn s
  obtain ⟨t, hset, hreg, hframe⟩ := next_setReg (show exec (.setImm x nn) s = _ from rfl) rfl
  refine ⟨⟨t, hset, hreg, fun hw => ?_, hframe⟩, next_setReg rfl rfl⟩
  have hfits : nn.toNat < 2 ^ s.cfg.regW := nn.isLt.trans_le (Nat.pow_le_pow_right Nat.two_pos hw)
  rw [hreg, Nat.mod_eq_of_lt hfits]

/-- Settles O11: a bitwise result of two registers fits a register, so the write does not truncate it. -/
theorem moveAndLogic : Obligations.MoveAndLogic := by
  intro x y s
  have hx := s.reg_lt x
  have hy := s.reg_lt y
  exact ⟨next_setReg rfl (s.reg_mod y), next_setReg rfl (Nat.mod_eq_of_lt (Nat.or_lt_two_pow hx hy)),
    next_setReg rfl (Nat.mod_eq_of_lt (Nat.and_lt_two_pow _ hy)),
    next_setReg rfl (Nat.mod_eq_of_lt (Nat.xor_lt_two_pow hx hy))⟩

/-! ### The sum and its carry -/

theorem carry_toNat (w a b : Nat) : (carry w a b).toNat = if 2 ^ w - 1 < a + b then 1 else 0 := Bool.cond_decide ..

/-- The carry fits a register of any width: two registers of width 0 have none. -/
theorem carry_toNat_mod {w a b : Nat} (ha : a < 2 ^ w) (hb : b < 2 ^ w) :
    (carry w a b).toNat % 2 ^ w = if 2 ^ w - 1 < a + b then 1 else 0 := by
  rw [carry_toNat]
  split
  case isTrue h => exact Nat.mod_eq_of_lt (by omega)
  case isFalse h => exact Nat.zero_mod _

/-- Settles O12: the carry is the last write, and a read of V[X] passes it where X is another register. -/
theorem addRegWritesSumThenCarry : Obligations.AddRegWritesSumThenCarry := by
  intro x y s
  have hadd : exec (.addReg x y) s =
      .next ((s.setReg x (s.reg x + s.reg y)).setFlag (carry s.cfg.regW (s.reg x) (s.reg y))) := rfl
  refine ⟨_, hadd, fun hx => ?_, ?_, (exec_keeps hadd).frame⟩
  · rw [State.setFlag_eq, State.setReg_cfg, State.setReg_reg, if_neg hx, State.setReg_reg, if_pos rfl]
  · rw [State.setFlag_eq, State.setReg_cfg, State.setReg_reg, if_pos rfl, State.setReg_cfg,
      carry_toNat_mod (s.reg_lt x) (s.reg_lt y)]

/-! ### A result written with its flag, read back (R106) -/

section
variable {result : State → Nat} {flag : State → Bool}

/-- VF holds the flag unless `TEXT_ORDER` has the result written over it. -/
theorem State.writeFlagged_reg_flagReg (h : s.cfg.vfOrder = .flagLast ∨ x.val ≠ s.cfg.flagReg) :
    (s.writeFlagged x result flag).reg s.cfg.flagReg = (flag s).toNat % 2 ^ s.cfg.regW := by
  obtain ⟨-, he⟩ | ⟨ho, he⟩ := s.writeFlagged_cases x result flag
  · rw [he, State.setReg_reg, if_pos rfl, State.setReg_cfg]
  · have hx : x.val ≠ s.cfg.flagReg := h.resolve_left (by simp [ho])
    rw [he, State.setReg_reg, if_neg hx.symm, State.setReg_reg, if_pos rfl]

theorem State.writeFlagged_reg_of_flagLast (ho : s.cfg.vfOrder = .flagLast) (hx : x.val ≠ s.cfg.flagReg) :
    (s.writeFlagged x result flag).reg x = result s % 2 ^ s.cfg.regW := by
  obtain ⟨-, he⟩ | ⟨ho', -⟩ := s.writeFlagged_cases x result flag
  · rw [he, State.setReg_reg, if_neg hx, State.setReg_reg, if_pos rfl]
  · simp [ho] at ho'

theorem State.writeFlagged_reg_of_textOrder (ho : s.cfg.vfOrder = .textOrder) :
    (s.writeFlagged x result flag).reg x =
      result (s.setReg s.cfg.flagReg (flag s).toNat) % 2 ^ s.cfg.regW := by
  obtain ⟨ho', -⟩ | ⟨-, he⟩ := s.writeFlagged_cases x result flag
  · simp [ho] at ho'
  · rw [he, State.setReg_reg, if_pos rfl, State.setReg_cfg]

end

/-! ### The two subtractions -/

/-- V[a] - V[b] written to V[x] with the no-borrow in VF: the form that the two subtractions share (R114, R116). -/
def State.writeDifference (s : State) (x a b : RegIdx) : State :=
  s.writeFlagged x (fun t => difference t.cfg.regW (t.reg a) (t.reg b)) (fun t => noBorrow (t.reg a) (t.reg b))

theorem exec_subReg (x y : RegIdx) (s : State) : exec (.subReg x y) s = .next (s.writeDifference x x y) := rfl

theorem exec_subRegReversed (x y : RegIdx) (s : State) :
    exec (.subRegReversed x y) s = .next (s.writeDifference x y x) := rfl

theorem noBorrow_toNat (a b : Nat) : (noBorrow a b).toNat = if b ≤ a then 1 else 0 := Bool.cond_decide ..

theorem difference_mod (w a b : Nat) : difference w a b % 2 ^ w = (a + 2 ^ w - b) % 2 ^ w := Nat.mod_mod ..

theorem State.writeDifference_reg_flagReg (a b : RegIdx) (h : s.cfg.vfOrder = .flagLast ∨ x.val ≠ s.cfg.flagReg) :
    (s.writeDifference x a b).reg s.cfg.flagReg = (if s.reg b ≤ s.reg a then 1 else 0) % 2 ^ s.cfg.regW := by
  rw [State.writeDifference, State.writeFlagged_reg_flagReg h, noBorrow_toNat]

theorem State.writeDifference_reg_of_flagLast (a b : RegIdx) (ho : s.cfg.vfOrder = .flagLast)
    (hx : x.val ≠ s.cfg.flagReg) :
    (s.writeDifference x a b).reg x = (s.reg a + 2 ^ s.cfg.regW - s.reg b) % 2 ^ s.cfg.regW := by
  rw [State.writeDifference, State.writeFlagged_reg_of_flagLast ho hx, difference_mod]

/-- Under `TEXT_ORDER` an operand that is VF is the flag just written (decision D9). -/
theorem State.writeDifference_reg_of_textOrder (a b : RegIdx) (ho : s.cfg.vfOrder = .textOrder) :
    let flag := (if s.reg b ≤ s.reg a then 1 else 0) % 2 ^ s.cfg.regW
    (s.writeDifference x a b).reg x =
      ((if a.val = s.cfg.flagReg then flag else s.reg a) + 2 ^ s.cfg.regW -
        (if b.val = s.cfg.flagReg then flag else s.reg b)) % 2 ^ s.cfg.regW := by
  rw [State.writeDifference, State.writeFlagged_reg_of_textOrder ho, State.setReg_cfg, difference_mod,
    State.setReg_reg, State.setReg_reg, noBorrow_toNat]

/-- Settles O13: the difference of V[X] and V[Y], read back in each order. -/
theorem subRegInBothOrders : Obligations.SubRegInBothOrders := fun x y s =>
  ⟨_, exec_subReg x y s, (exec_keeps (exec_subReg x y s)).frame,
    fun ho => ⟨State.writeDifference_reg_flagReg x y (.inl ho), State.writeDifference_reg_of_flagLast x y ho⟩,
    fun ho => ⟨fun hx => State.writeDifference_reg_flagReg x y (.inr hx), State.writeDifference_reg_of_textOrder x y ho⟩⟩

/-- Settles O14: the difference of V[Y] and V[X], read back in each order. -/
theorem subRegReversedInBothOrders : Obligations.SubRegReversedInBothOrders := fun x y s =>
  ⟨_, exec_subRegReversed x y s, (exec_keeps (exec_subRegReversed x y s)).frame,
    fun ho => ⟨State.writeDifference_reg_flagReg y x (.inl ho), State.writeDifference_reg_of_flagLast y x ho⟩,
    fun ho => ⟨fun hx => State.writeDifference_reg_flagReg y x (.inr hx), State.writeDifference_reg_of_textOrder y x ho⟩⟩

/-! ### The two shifts -/

/-- The operand of a shift, copied to V[x] in classic mode (decision D7), shifted into V[x] with the bit moved out in VF: the form
that the two shifts share (R115, R117). -/
def State.writeShifted (s : State) (x y : RegIdx) (shifted : Nat → Nat) (bitOut : Nat → Nat → Bool) : State :=
  (s.shiftCopy x y).writeFlagged x (fun t => shifted (t.reg x)) (fun t => bitOut t.cfg.regW (t.reg x))

theorem exec_shiftRight (x y : RegIdx) (s : State) :
    exec (.shiftRight x y) s = .next (s.writeShifted x y (· >>> 1) fun _ => bitOutRight) := rfl

theorem exec_shiftLeft (x y : RegIdx) (s : State) :
    exec (.shiftLeft x y) s = .next (s.writeShifted x y (· <<< 1) bitOutLeft) := rfl

theorem State.shiftCopy_reg_self (s : State) (x y : RegIdx) :
    (s.shiftCopy x y).reg x = if s.cfg.classicMode then s.reg y else s.reg x := by
  unfold State.shiftCopy
  split
  · rw [State.setReg_reg, if_pos rfl, State.reg_mod]
  · rfl

theorem State.shiftCopy_reg_lt (s : State) (x y : RegIdx) : (s.shiftCopy x y).reg x < 2 ^ s.cfg.regW := by
  rw [← State.shiftCopy_cfg s x y]
  exact State.reg_lt ..

section
variable {shifted : Nat → Nat} {bitOut : Nat → Nat → Bool}

theorem State.writeShifted_reg_flagReg (h : s.cfg.vfOrder = .flagLast ∨ x.val ≠ s.cfg.flagReg) :
    (s.writeShifted x y shifted bitOut).reg s.cfg.flagReg =
      (bitOut s.cfg.regW ((s.shiftCopy x y).reg x)).toNat % 2 ^ s.cfg.regW := by
  rw [← State.shiftCopy_cfg s x y] at h ⊢
  exact State.writeFlagged_reg_flagReg h

/-- A flag in another register leaves the operand alone, so the order does not show in V[x]. -/
theorem State.writeShifted_reg_of_ne (hx : x.val ≠ s.cfg.flagReg) :
    (s.writeShifted x y shifted bitOut).reg x = shifted ((s.shiftCopy x y).reg x) % 2 ^ s.cfg.regW := by
  rw [← State.shiftCopy_cfg s x y] at hx ⊢
  cases ho : (s.shiftCopy x y).cfg.vfOrder with
  | flagLast => exact State.writeFlagged_reg_of_flagLast ho hx
  | textOrder => rw [State.writeShifted, State.writeFlagged_reg_of_textOrder ho, State.setReg_reg, if_neg hx]

/-- Under `TEXT_ORDER` a shift of VF shifts the bit just written (decision D9). -/
theorem State.writeShifted_reg_flagReg_of_textOrder (hx : x.val = s.cfg.flagReg) (ho : s.cfg.vfOrder = .textOrder) :
    (s.writeShifted x y shifted bitOut).reg s.cfg.flagReg =
      shifted ((bitOut s.cfg.regW ((s.shiftCopy x y).reg x)).toNat % 2 ^ s.cfg.regW) % 2 ^ s.cfg.regW := by
  rw [← hx]
  rw [← State.shiftCopy_cfg s x y] at hx ho ⊢
  rw [State.writeShifted, State.writeFlagged_reg_of_textOrder ho, State.setReg_reg, if_pos hx]

end

/-! #### The bit moved out, as a register holds it -/

theorem bitOutRight_toNat_mod {w v : Nat} (hv : v < 2 ^ w) : (bitOutRight v).toNat % 2 ^ w = v % 2 := by
  rw [bitOutRight, Nat.toNat_testBit, pow_zero, Nat.div_one, Nat.mod_eq_of_lt ((Nat.mod_le v 2).trans_lt hv)]

/-- The highest bit of a register is all that is left of its value above the others; a register of width 0 holds 0. -/
theorem bitOutLeft_toNat_mod {w v : Nat} (hv : v < 2 ^ w) : (bitOutLeft w v).toNat % 2 ^ w = v / 2 ^ (w - 1) := by
  have hbit : v / 2 ^ (w - 1) < 2 :=
    Nat.div_lt_of_lt_mul (hv.trans_le (by rw [← Nat.pow_succ]; exact Nat.pow_le_pow_right Nat.two_pos (by omega)))
  rw [bitOutLeft, Nat.toNat_testBit, Nat.mod_eq_of_lt hbit, Nat.mod_eq_of_lt ((Nat.div_le_self ..).trans_lt hv)]

/-- Settles O15: half of the operand fits a register, and half of the bit moved out is 0. -/
theorem shiftRightInBothModesAndOrders : Obligations.ShiftRightInBothModesAndOrders := by
  intro x y s v
  have hv : (s.shiftCopy x y).reg x = v := s.shiftCopy_reg_self x y
  have hlt : v < 2 ^ s.cfg.regW := hv ▸ s.shiftCopy_reg_lt x y
  have hbit := bitOutRight_toNat_mod hlt
  refine ⟨_, exec_shiftRight x y s, (exec_keeps (exec_shiftRight x y s)).frame, fun hx => ⟨?_, ?_⟩, fun _ ho => ?_,
    fun hx ho => ?_⟩
  · rw [State.writeShifted_reg_of_ne hx, hv, Nat.shiftRight_one, Nat.mod_eq_of_lt ((Nat.div_le_self v 2).trans_lt hlt)]
  · rw [State.writeShifted_reg_flagReg (.inr hx), hv, hbit]
  · rw [State.writeShifted_reg_flagReg (.inl ho), hv, hbit]
  · have hhalf : v % 2 / 2 = 0 := Nat.div_eq_of_lt (Nat.mod_lt v Nat.two_pos)
    rw [State.writeShifted_reg_flagReg_of_textOrder hx ho, hv, hbit, Nat.shiftRight_one, hhalf, Nat.zero_mod]

/-- Settles O16: the write truncates the doubled operand, and the highest bit fits a register. -/
theorem shiftLeftInBothModesAndOrders : Obligations.ShiftLeftInBothModesAndOrders := by
  intro x y s v
  have hv : (s.shiftCopy x y).reg x = v := s.shiftCopy_reg_self x y
  have hlt : v < 2 ^ s.cfg.regW := hv ▸ s.shiftCopy_reg_lt x y
  have hbit := bitOutLeft_toNat_mod hlt
  have hdouble (n : Nat) : n <<< 1 = 2 * n := by rw [Nat.shiftLeft_eq, pow_one, Nat.mul_comm]
  refine ⟨_, exec_shiftLeft x y s, (exec_keeps (exec_shiftLeft x y s)).frame, fun hx => ⟨?_, ?_⟩, fun _ ho => ?_,
    fun hx ho => ?_⟩
  · rw [State.writeShifted_reg_of_ne hx, hv, hdouble]
  · rw [State.writeShifted_reg_flagReg (.inr hx), hv, hbit]
  · rw [State.writeShifted_reg_flagReg (.inl ho), hv, hbit]
  · rw [State.writeShifted_reg_flagReg_of_textOrder hx ho, hv, hbit, hdouble]

end Sys2Proof.Machine
end

section
/-! PROOFS. The index register and the memory transfers (44_index_memory.md R120 to R126): what each instruction leaves in `I`,
and what a transfer from `I` on leaves in memory or the registers where no access faults. -/

namespace Sys2Proof.Machine

variable {s t : State}

/-! ### The index register -/

/-- What an instruction that writes `I` alone leaves. -/
theorem next_setIndex {o : Host.Outcome State Fault Refusal} {a : Nat} (ho : o = .next (s.setIndex a)) :
    ∃ t, o = .next t ∧ t.index = a % 2 ^ s.cfg.iW ∧ Frame [.index] [] s t :=
  ⟨_, ho, State.setIndex_index s a, (Keeps.setIndex (List.mem_singleton_self _) a).frame⟩

/-- Settles O26: each writes `I` alone; 12 bits fit an `I` of 12 bits or more, and the sum at the defaults one of 16. -/
theorem setIndexAndFontChar : Obligations.SetIndexAndFontChar := by
  refine ⟨fun nnn s => ?_, fun x s => ?_⟩
  · obtain ⟨t, hset, hindex, hframe⟩ := next_setIndex (show exec (.setIndex nnn) s = _ from rfl)
    refine ⟨t, hset, hindex, fun hw => ?_, hframe⟩
    have hfits : nnn.toNat < 2 ^ s.cfg.iW := nnn.isLt.trans_le (Nat.pow_le_pow_right Nat.two_pos hw)
    rw [hindex, Nat.mod_eq_of_lt hfits]
  · obtain ⟨t, hfont, hindex, hframe⟩ := next_setIndex (show exec (.fontChar x) s = _ from rfl)
    refine ⟨t, hfont, hindex, fun hbase hglyph hregW hiW => ?_, hframe⟩
    have hreg : s.reg x < 2 ^ 8 := hregW ▸ s.reg_lt x
    rw [hindex, hbase, hglyph, hiW]
    omega

theorem and_aboveRange_iff {c : Bool} {a : Nat} : (c && aboveRange a) = true ↔ c = true ∧ 0xFFF < a := by
  rw [Bool.and_eq_true, aboveRange, decide_eq_true_iff]

/-- Settles O27: the sum is written to `I` in either case, and VF after it where the switch and the sum say so. -/
theorem addIndexWrapsAndFlagsAboveRange : Obligations.AddIndexWrapsAndFlagsAboveRange := by
  intro x s
  obtain ⟨t, hadd⟩ : ∃ t, exec (.addIndex x) s = .next t := ⟨_, rfl⟩
  have hframe := (exec_keeps hadd).frame
  obtain ⟨a, ha, ht⟩ := execAddIndex_next hadd
  have hsum : a % 2 ^ s.cfg.iW = a := by rw [ha, Nat.mod_mod]
  have hindex : t.index = a := by
    obtain ⟨-, rfl⟩ | ⟨-, rfl⟩ := ht
    · rw [State.setFlag_eq, State.setReg_index, State.setIndex_index, hsum]
    · rw [State.setIndex_index, hsum]
  refine ⟨t, hadd, hindex.trans ha, ?_, hframe⟩
  rw [hindex]
  obtain ⟨hflag, rfl⟩ | ⟨hflag, rfl⟩ := ht
  · rw [if_pos (and_aboveRange_iff.mp hflag), State.setFlag_eq, State.setIndex_cfg, State.setReg_reg, if_pos rfl,
      State.setIndex_cfg, Bool.toNat_true]
  · rw [if_neg (mt and_aboveRange_iff.mpr (Bool.eq_false_iff.mp hflag)), State.setIndex_reg]

/-! ### The transfers, from `I` on -/

/-- A store from `I` on (R54, R126). -/
theorem State.storeBytes_index {bs : List Byte} {n : Nat} (h : AccessibleFromIndex s n) (hlen : bs.length = n) :
    ∃ t, s.storeBytes (s.indexPlus 0) bs = .ok t ∧
      (n ≤ s.cfg.memSize → ∀ k (hk : k < n), t.byteAt (s.reached k) = bs[k]) ∧
      SameBytesExcept ((List.range n).map s.reached) s t := by
  subst hlen
  obtain ⟨t, ht⟩ := State.storeBytes_complete (a := s.indexPlus 0) h
  obtain ⟨-, -, other, stored, -⟩ := State.storeBytes_ok ht
  exact ⟨t, ht, stored, fun a ha => other a fun k hk he =>
    ha (List.mem_map.mpr ⟨k, List.mem_range.mpr hk, he.symm⟩)⟩

/-- A load of V[0] to V[x] from `I` on (R54, R126). -/
theorem State.loadBytes_index {x : RegIdx} (h : AccessibleFromIndex s (x.val + 1)) :
    ∃ t, s.loadBytes (s.indexPlus 0) (regsUpTo x) = .ok t ∧
      ∀ j, j ≤ x.val → t.reg j = (s.byteAt (s.reached j)).toNat % 2 ^ s.cfg.regW := by
  obtain ⟨t, ht⟩ := State.loadBytes_complete (xs := regsUpTo x) (a := s.indexPlus 0) (by rwa [regsUpTo_length])
  obtain ⟨-, -, -, loaded⟩ := State.loadBytes_ok ht (regsUpTo_nodup x)
  refine ⟨t, ht, fun j hj => ?_⟩
  have hlen : j < (regsUpTo x).length := by rw [regsUpTo_length]; omega
  calc t.reg j
    _ = t.reg (regsUpTo x)[j] := by rw [regsUpTo_getElem]
    _ = (s.byteAt (s.reached j)).toNat % 2 ^ s.cfg.regW := loaded j hlen

/-! ### The advance of `I` after a transfer (decision D7) -/

theorem State.classicAdvance_index (s : State) (x : RegIdx) :
    (s.classicAdvance x).index = if s.cfg.classicMode then (s.index + x.val + 1) % 2 ^ s.cfg.iW else s.index := by
  unfold State.classicAdvance
  split
  · exact State.setIndex_index ..
  · rfl

section
variable {parts : List Part} {regs : List Nat} (h : Keeps parts regs s t) (x : RegIdx)
include h

theorem Keeps.index_classicAdvance (hi : .index ∉ parts) : (t.classicAdvance x).index =
    if s.cfg.classicMode then (s.index + x.val + 1) % 2 ^ s.cfg.iW else s.index := by
  obtain ⟨-, -, index, -⟩ := h.frame
  rw [State.classicAdvance_index, h.hidden.cfg, index hi]

theorem Keeps.frame_classicAdvance : Frame (parts ++ [.index]) regs s (t.classicAdvance x) := by
  have hadv : Frame [.index] [] t (t.classicAdvance x) :=
    (Keeps.classicAdvance (fun _ => List.mem_singleton_self _) x).frame
  simpa only [List.append_nil] using h.frame.trans hadv

end

/-! ### The transfers -/

/-- Settles O28: a store of the three digits from `I` on; the tens and the units are below 10. -/
theorem bcdStoresThreeDigits : Obligations.BcdStoresThreeDigits := by
  intro x s hacc
  obtain ⟨t, ht, stored, other⟩ := State.storeBytes_index (bs := decimalDigits (s.reg x)) hacc rfl
  have hbcd : exec (.bcd x) s = .next t := congrArg finish ht
  refine ⟨t, hbcd, fun hsize => ?_, other, (exec_keeps hbcd).frame⟩
  have hundreds : t.byteAt (s.reached 0) = BitVec.ofNat 8 (s.reg x / 100) := stored hsize 0 (by decide)
  have tens : t.byteAt (s.reached 1) = BitVec.ofNat 8 (s.reg x / 10 % 10) := stored hsize 1 (by decide)
  have units : t.byteAt (s.reached 2) = BitVec.ofNat 8 (s.reg x % 10) := stored hsize 2 (by decide)
  rw [hundreds, tens, units, BitVec.toNat_ofNat, BitVec.toNat_ofNat, BitVec.toNat_ofNat]
  omega

/-- Settles O29: a store of V[0] to V[X] from `I` on, and the advance. -/
theorem storeRegsStoresV0ToVX : Obligations.StoreRegsStoresV0ToVX := by
  intro x s hacc
  have hlen : ((regsUpTo x).map s.regByte).length = x.val + 1 := by rw [List.length_map, regsUpTo_length]
  obtain ⟨t, ht, stored, other⟩ := State.storeBytes_index hacc hlen
  have keeps : Keeps [.memory] [] s t := .storeBytes (List.mem_singleton_self _) ht
  have hstore : exec (.storeRegs x) s = .next (t.classicAdvance x) := (execStoreRegs_eq x s).trans (by rw [ht]; rfl)
  refine ⟨_, hstore, fun hsize j hj => ?_, fun a ha => ?_, keeps.index_classicAdvance x (by decide),
    keeps.frame_classicAdvance x⟩
  · rw [State.classicAdvance_byteAt, stored hsize j (Nat.lt_succ_of_le hj), List.getElem_map, regsUpTo_getElem,
      State.regByte, BitVec.toNat_ofNat]
  · rw [State.classicAdvance_byteAt, other a ha]

/-- Settles O30: a load of V[0] to V[X] from `I` on, and the advance. -/
theorem loadRegsLoadsV0ToVX : Obligations.LoadRegsLoadsV0ToVX := by
  intro x s hacc
  obtain ⟨t, ht, loaded⟩ := State.loadBytes_index hacc
  have keeps : Keeps [] (regsUpTo x) s t := .loadBytes (regsUpTo_nodup x) (List.Subset.refl _) ht
  have hload : exec (.loadRegs x) s = .next (t.classicAdvance x) := (execLoadRegs_eq x s).trans (by rw [ht]; rfl)
  refine ⟨_, hload, fun j hj => ?_, fun j hj => ?_, keeps.index_classicAdvance x List.not_mem_nil,
    keeps.frame_classicAdvance x⟩
  · rw [State.classicAdvance_reg, loaded j hj]
  · have hother : j ∉ regsUpTo x := by rw [mem_regsUpTo]; omega
    rw [State.classicAdvance_reg, keeps.reg j hother]

end Sys2Proof.Machine
end

section
/-! PROOFS. The display (45_display.md R127 to R130): what a draw toggles, when every row it reads is accessible, and that an
equal draw after it toggles the same pixels. -/

namespace Sys2Proof.Machine

variable {s t : State} {x y : RegIdx} {n : Fin 16}

/-! ### Clear-screen -/

theorem exec_clearScreen (s : State) : exec .clearScreen s = .next s.clearFrame := rfl

/-- Settles O32: clear-screen is one update of the framebuffer and the dirty flag. -/
theorem clearScreenClearsEveryPixel : Obligations.ClearScreenClearsEveryPixel := fun s =>
  ⟨_, exec_clearScreen s, s.clearFrame_pixel, s.clearFrame_dirty, (exec_keeps (exec_clearScreen s)).frame⟩

/-! ### The rows a draw reads -/

/-- Under `OOB_POLICY` = `FAULT` the last of `n` addresses from `I` decides whether all are accessible (R57). -/
theorem accessibleFromIndex_iff_of_fault {n : Nat} (hp : s.cfg.oobPolicy = .fault) :
    AccessibleFromIndex s n ↔ n = 0 ∨ s.index + n ≤ s.cfg.memSize := by
  have hin (k : Nat) : Accessible s (s.indexPlus k) ↔ s.index + k < s.cfg.memSize := by simp [Accessible, hp]
  simp only [AccessibleFromIndex, hin]
  constructor
  · intro h
    by_cases hn : 0 < n
    · have := h (n - 1) (by omega)
      omega
    · omega
  · intro h k hk
    omega

/-- A draw whose rows are accessible completes; rows below the bottom edge are not read (R129, decision D3). -/
theorem exec_draw_of_accessible (h : AccessibleFromIndex s (spriteRowsRead s y n)) :
    ∃ t, exec (.draw x y n) s = .next t := by
  obtain ⟨col, hrows, -⟩ := execDraw_rows s x y n
  have hread : ∀ i, i < n.val → spriteTop s y + i < s.cfg.fbHeight → Accessible s (s.indexPlus (0 + i)) := by
    intro i hi hbottom
    rw [Nat.zero_add]
    exact h i (Nat.lt_min.mpr ⟨hi, Nat.lt_sub_iff_add_lt'.mpr hbottom⟩)
  obtain ⟨t, ht⟩ := State.drawRows_complete col n.val 0 (spriteTop s y) (s.setFlag false) hread
  exact ⟨t, hrows.trans (congrArg finish ht)⟩

/-- A draw that reads a row out of range faults at the first such address (R57, decision D3). -/
theorem exec_draw_of_outOfRange (hp : s.cfg.oobPolicy = .fault) (hpos : 0 < spriteRowsRead s y n)
    (hout : s.cfg.memSize < s.index + spriteRowsRead s y n) :
    exec (.draw x y n) s = .fault (.memOutOfRange .read (max s.index s.cfg.memSize) s.ia none) := by
  obtain ⟨col, hrows, -⟩ := execDraw_rows s x y n
  exact hrows.trans (congrArg finish (State.drawRows_fault col n.val 0 (spriteTop s y) (s.setFlag false) hp hpos hout))

/-- A draw that completes found every row it reads accessible. -/
theorem accessible_of_exec_draw (h : exec (.draw x y n) s = .next t) :
    AccessibleFromIndex s (spriteRowsRead s y n) := by
  cases hp : s.cfg.oobPolicy with
  | wrap => exact fun _ _ => .inr hp
  | fault =>
    rw [accessibleFromIndex_iff_of_fault hp]
    by_contra hne
    rw [exec_draw_of_outOfRange hp (by omega) (by omega)] at h
    cases h

/-- Settles O34: the rows that are read start at `I`, and whether they are accessible decides the outcome. -/
theorem drawOutOfRangeFaults : Obligations.DrawOutOfRangeFaults := fun _ _ _ _ hp =>
  ⟨exec_draw_of_outOfRange hp, fun h => exec_draw_of_accessible ((accessibleFromIndex_iff_of_fault hp).mpr h)⟩

/-! ### What a draw that completes toggles -/

/-- A draw resets VF and then toggles its touch set (R129, R130). -/
theorem exec_draw_toggles (h : exec (.draw x y n) s = .next t) : Toggled (spriteTouches s x y n) (s.setFlag false) t := by
  obtain ⟨col, hrows, hcol⟩ := execDraw_rows s x y n
  have hnone : Toggled (rowsBefore (s.setFlag false) (spriteTop s y) (spriteLeft s x (spriteTop s y)) 0)
      (s.setFlag false) (s.setFlag false) := Toggled.none _ fun _ _ ⟨_, _, i, hi, _⟩ => Nat.not_lt_zero i hi
  have htoggles := State.drawRows_toggles hcol n.val 0 _ t hnone (finish_next (hrows.symm.trans h))
  rw [Nat.zero_add] at htoggles
  exact htoggles.congr (rowsBefore_iff_touches s x y n)

theorem exec_draw_pixel (h : exec (.draw x y n) s = .next t) (px py : Nat) :
    t.pixel px py = true ↔ (s.pixel px py = true ↔ ¬ spriteTouches s x y n px py) := by
  have htoggled := exec_draw_toggles h
  by_cases hT : spriteTouches s x y n px py
  · simp [htoggled.inside px py hT, hT]
  · simp [htoggled.outside px py hT, hT]

theorem exec_draw_flag_of_collision (h : exec (.draw x y n) s = .next t)
    (hc : ∃ px py, spriteTouches s x y n px py ∧ s.pixel px py = true) : t.reg s.cfg.flagReg = 1 % 2 ^ s.cfg.regW :=
  (exec_draw_toggles h).flagOn (by simpa using hc)

theorem exec_draw_flag_of_no_collision (h : exec (.draw x y n) s = .next t)
    (hc : ∀ px py, spriteTouches s x y n px py → s.pixel px py = false) : t.reg s.cfg.flagReg = 0 := by
  simpa using (exec_draw_toggles h).flagKept (by simpa using hc)

/-- Settles O33: a draw that completes toggles its touch set, and VF and the dirty flag follow from that set. -/
theorem drawTogglesExactlyItsTouchSet : Obligations.DrawTogglesExactlyItsTouchSet := by
  intro x y n s hacc
  obtain ⟨t, ht⟩ := exec_draw_of_accessible (x := x) hacc
  exact ⟨t, ht, exec_draw_pixel ht, exec_draw_flag_of_collision ht, exec_draw_flag_of_no_collision ht,
    (exec_draw_toggles ht).dirty, (exec_keeps ht).frame⟩

/-! ### Two equal draws (90_conflicts.md C13) -/

theorem spriteTop_of_ne (hy : y.val ≠ s.cfg.flagReg) : spriteTop s y = s.startY y := by
  unfold spriteTop; split <;> simp [hy]

theorem spriteLeft_of_ne (hx : x.val ≠ s.cfg.flagReg) (top r : Nat) : spriteLeft s x top r = s.startX x := by
  unfold spriteLeft; split <;> simp [hx]

section
variable (h : exec (.draw x y n) s = .next t)
include h

/-- What a draw leaves for an equal draw after it to read. -/
theorem exec_draw_keeps_operands :
    t.cfg = s.cfg ∧ t.index = s.index ∧ t.mem = s.mem ∧ ∀ r, r ≠ s.cfg.flagReg → t.reg r = s.reg r := by
  have hkeeps : Keeps [.display] [s.cfg.flagReg] s t := exec_keeps h
  obtain ⟨-, -, hindex, -⟩ := hkeeps.frame
  exact ⟨hkeeps.hidden.cfg, hindex (by decide), hkeeps.memory (by decide),
    fun r hr => hkeeps.reg r (mt List.mem_singleton.mp hr)⟩

theorem spriteTop_exec_draw (hy : y.val ≠ s.cfg.flagReg) : spriteTop t y = spriteTop s y := by
  obtain ⟨hcfg, -, -, hreg⟩ := exec_draw_keeps_operands h
  rw [spriteTop_of_ne hy, spriteTop_of_ne (hcfg ▸ hy), State.startY, hreg y hy, hcfg, State.startY]

theorem spriteTouches_exec_draw (hx : x.val ≠ s.cfg.flagReg) (hy : y.val ≠ s.cfg.flagReg) (px py : Nat) :
    spriteTouches t x y n px py ↔ spriteTouches s x y n px py := by
  obtain ⟨hcfg, hindex, hmem, hreg⟩ := exec_draw_keeps_operands h
  have hbyte (r : Nat) : spriteByte t r = spriteByte s r := by
    simp only [spriteByte, State.byteAt, State.reached, State.indexPlus, hmem, hindex, hcfg]
  have hleft (top r : Nat) : spriteLeft t x top r = spriteLeft s x top r := by
    rw [spriteLeft_of_ne hx, spriteLeft_of_ne (hcfg ▸ hx), State.startX, hreg x hx, hcfg, State.startX]
  simp only [spriteTouches, spriteTop_exec_draw h hy, hbyte, hleft, hcfg]

/-- The equal draw after a draw reads the rows that the first one read. -/
theorem exec_draw_again (hy : y.val ≠ s.cfg.flagReg) : ∃ u, exec (.draw x y n) t = .next u := by
  obtain ⟨hcfg, hindex, -, -⟩ := exec_draw_keeps_operands h
  have hrows : spriteRowsRead t y n = spriteRowsRead s y n := by
    rw [spriteRowsRead, spriteTop_exec_draw h hy, hcfg, spriteRowsRead]
  apply exec_draw_of_accessible
  intro k hk
  have hacc := accessible_of_exec_draw h k (hrows ▸ hk)
  rwa [Accessible, State.indexPlus, hcfg, hindex]

end

/-- Settles O35: the second draw toggles the touch set of the first, so a pixel it finds on in that set is one the first turned
on. -/
theorem drawTwiceRestoresEveryPixel : Obligations.DrawTwiceRestoresEveryPixel := by
  intro x y n s t hx hy ht
  obtain ⟨u, hu⟩ := exec_draw_again ht hy
  obtain ⟨hcfg, -⟩ := exec_draw_keeps_operands ht
  have hfirst := exec_draw_pixel ht
  have hsame := spriteTouches_exec_draw ht hx hy
  -- A pixel the second draw collides with is one the first turned on.
  have hturned (px py : Nat) : (spriteTouches t x y n px py ∧ t.pixel px py = true) ↔
      (s.pixel px py = false ∧ t.pixel px py = true) := by
    rw [hsame, hfirst, ← Bool.not_eq_true]
    tauto
  refine ⟨u, hu, fun px py => ?_, fun hw => ⟨fun hflag => ?_, fun ⟨px, py, hon⟩ => ?_⟩⟩
  · rw [Bool.eq_iff_iff, exec_draw_pixel hu, hsame, hfirst]
    tauto
  · by_contra hnone
    have hclear : ∀ px py, spriteTouches t x y n px py → t.pixel px py = false := fun px py hT =>
      Bool.eq_false_iff.mpr fun hon => hnone ⟨px, py, (hturned px py).mp ⟨hT, hon⟩⟩
    have hzero := exec_draw_flag_of_no_collision hu hclear
    rw [hcfg, hflag] at hzero
    cases hzero
  · have hone := exec_draw_flag_of_collision hu ⟨px, py, (hturned px py).mpr hon⟩
    rw [hcfg] at hone
    rw [hone, Nat.mod_eq_of_lt (Nat.one_lt_two_pow hw.ne')]

end Sys2Proof.Machine
end

section
/-! PROOFS. The timers and the key wait (46_timers_keys.md R131 to R135). -/

namespace Sys2Proof.Machine

variable {s : State}

/-! ### The key wait -/

theorem State.leastPressed_of_least {k : Nat} (hk : k < s.cfg.nKeys) (hpressed : s.keyPressed k = true)
    (hleast : ∀ j, j < k → s.keyPressed j = false) : s.leastPressed = some k :=
  List.find?_range_eq_some.mpr ⟨hpressed, List.mem_range.mpr hk, fun j hj => by rw [hleast j hj, Bool.not_false]⟩

theorem State.leastPressed_of_none_pressed (h : ∀ k, k < s.cfg.nKeys → s.keyPressed k = false) :
    s.leastPressed = none :=
  List.find?_eq_none.mpr fun k hk => Bool.eq_false_iff.mp (h k (List.mem_range.mp hk))

theorem execWaitKey_of_key (x : RegIdx) {k : Nat} (h : s.leastPressed = some k) :
    execWaitKey x s = .next (s.setReg x k) := by
  rw [execWaitKey, h]

theorem execWaitKey_of_no_key (x : RegIdx) (h : s.leastPressed = none) : execWaitKey x s = .next (s.setPc s.ia) := by
  rw [execWaitKey, h]

/-- Settles O38: the search answers the least key, written to V[X] alone, or none, and the address of this instruction goes to
`pc` alone. -/
theorem waitKeyTakesTheLeastPressedKeyOrStays : Obligations.WaitKeyTakesTheLeastPressedKeyOrStays := by
  intro x s
  refine ⟨fun k hk hpressed hleast => ?_, fun hnone => ?_⟩
  · exact next_setReg (execWaitKey_of_key x (State.leastPressed_of_least hk hpressed hleast)) rfl
  · have hwait := execWaitKey_of_no_key x (State.leastPressed_of_none_pressed hnone)
    have hpc : (s.setPc s.ia).pc = s.ia := by rw [State.setPc_pc, State.ia_mod]
    exact ⟨_, hwait, hpc, (Keeps.setPc (List.mem_singleton_self _) _).frame⟩

/-! ### The timers -/

theorem State.regByte_toNat (s : State) (x : Nat) : (s.regByte x).toNat = s.reg x % 256 := BitVec.toNat_ofNat ..

/-- Settles O37: each writes its one register or timer alone, and a timer takes the register's low byte. -/
theorem timerTransfers : Obligations.TimerTransfers := by
  intro x s
  have hdelay : exec (.setDelay x) s = .next (s.setDt (s.regByte x)) := rfl
  have hsound : exec (.setSound x) s = .next (s.setSt (s.regByte x)) := rfl
  exact ⟨next_setReg rfl rfl, ⟨_, hdelay, s.regByte_toNat x, (exec_keeps hdelay).frame⟩,
    ⟨_, hsound, s.regByte_toNat x, (exec_keeps hsound).frame⟩⟩

theorem decayed_toNat (b : Byte) : (decayed b).toNat = b.toNat - 1 := by
  rw [decayed]
  split
  case isTrue hzero => rw [hzero]; rfl
  case isFalse hpos => bv_omega

theorem Keeps.decayTimers (s : State) : Keeps [.delay, .sound] [] s s.decayTimers :=
  have hdelay : Keeps [.delay, .sound] [] s (s.setDt (decayed s.dt)) := .setDt (by simp) _
  hdelay.trans (.setSt (by simp) (decayed s.st))

/-- Settles O39: the decay of a byte, once for each timer, and both timers are all it writes. -/
theorem decayTimersFloorsAtZero : Obligations.DecayTimersFloorsAtZero := fun s =>
  ⟨decayed_toNat s.dt, decayed_toNat s.st, (Keeps.decayTimers s).frame⟩

end Sys2Proof.Machine
end

section
/-! PROOFS. Polls and the three clocks (60_exceptions.md R150 to R156, R160): which polls complete, in what order a poll acts, when a
clock falls due, and the counts a poll leaves. -/

namespace Sys2Proof.Machine

variable {s t u : State} {now : Nat}

/-! ### The order of a poll -/

theorem poll_of_lt (h : now < s.lastNow) : poll now s = .refused (.hostTimeDecreased now s.lastNow) := if_pos h

/-- Settles O46: the comparison with the previous poll's time comes before any clock. -/
theorem decreasingTimeIsRefused : Obligations.DecreasingTimeIsRefused := fun _ _ => poll_of_lt

/-- A poll completes where its cycle action does, or is not due, and the other two clocks' parts follow it (R151). -/
theorem poll_of_cycle (hle : s.lastNow ≤ now)
    (hdue : due s.cfg.cpuHz s.kCpu s.t0 now = true → cycleAction s.clearRepaint = .next u)
    (hnot : due s.cfg.cpuHz s.kCpu s.t0 now = false → u = s.clearRepaint) :
    poll now s = .next ((framePhase now (timerPhase now u)).setLastNow now) := by
  cases hd : due s.cfg.cpuHz s.kCpu s.t0 now with
  | true =>
    have hcpu : cpuPhase now s.clearRepaint = .next u := (if_pos hd).trans (hdue hd)
    rw [poll_of_le hle, hcpu, mapNext]
  | false => rw [hnot hd, poll_of_cpu_not_due hle hd]

/-- The timer clock's part of a poll counts and decays both timers where that clock is due (R153). -/
theorem timerPhase_of_due (h : due u.cfg.timerHz u.kTimer u.t0 now = true) :
    (timerPhase now u).kTimer = u.kTimer + 1 ∧ (timerPhase now u).dt.toNat = u.dt.toNat - 1 ∧
      (timerPhase now u).st.toNat = u.st.toNat - 1 := by
  simp [timerPhase_kTimer, timerPhase_dt, timerPhase_st, h, decayed_toNat]

theorem timerPhase_of_not_due (h : due u.cfg.timerHz u.kTimer u.t0 now = false) : timerPhase now u = u :=
  if_neg (Bool.eq_false_iff.mp h)

/-- The frame clock's part of a poll counts and, where the framebuffer is dirty, repaints it and clears the flag (R154). -/
theorem framePhase_of_due (h : due u.cfg.frameHz u.kFrame u.t0 now = true) :
    (framePhase now u).kFrame = u.kFrame + 1 ∧ (framePhase now u).dirty = false ∧
      (framePhase now u).repaint = if u.dirty = true then some u.fb else u.repaint := by
  simp [framePhase_kFrame, framePhase_dirty, framePhase_repaint, h]

theorem framePhase_of_not_due (h : due u.cfg.frameHz u.kFrame u.t0 now = false) : framePhase now u = u :=
  if_neg (Bool.eq_false_iff.mp h)

/-- Settles O42: the poll is the cycle action's state through the timer clock's part and then the frame clock's, each of which
writes its own fields alone, so that the frame clock's test and its repaint see what the cycle action left. -/
theorem pollRunsCycleThenTimerThenFrame : Obligations.PollRunsCycleThenTimerThenFrame := by
  intro now s u hle hdue hnot
  refine ⟨_, poll_of_cycle hle hdue hnot, rfl, fun htimer => ?_, fun htimer => ?_, fun hframe => ?_, fun hframe => ?_,
    by simp⟩
  · simpa using timerPhase_of_due htimer
  · simp [timerPhase_of_not_due htimer]
  · simpa using framePhase_of_due (u := timerPhase now u) (by simpa using hframe)
  · have hkept := framePhase_of_not_due (u := timerPhase now u) (by simpa using hframe)
    simp [hkept]

/-! ### When the cpu clock falls due -/

/-- A clock is due once as many nanoseconds have passed as its next firing takes, rounded up (R150). -/
theorem due_iff_ceil_le {hz : Nat} (hpos : 0 < hz) (k t0 now : Nat) :
    due hz k t0 now = true ↔ ((k + 1) * Config.nsPerSecond + (hz - 1)) / hz ≤ now - t0 := by
  rw [due_iff, Nat.mul_comm (now - t0), ← Nat.add_sub_assoc hpos, ← Nat.ceilDiv_eq_add_pred_div,
    ceilDiv_le_iff_le_mul hpos]

/-- From the previous poll on, the cpu clock is due exactly from the model's own poll time on (log entry 10). -/
theorem cpu_due_iff_nextCpuTime_le (hpos : 0 < s.cfg.cpuHz) (ht0 : s.t0 ≤ s.lastNow) (hle : s.lastNow ≤ now) :
    due s.cfg.cpuHz s.kCpu s.t0 now = true ↔ s.nextCpuTime ≤ now := by
  rw [due_iff_ceil_le hpos, Nat.le_sub_iff_add_le' (ht0.trans hle), State.nextCpuTime, Nat.max_le, and_iff_right hle]

theorem State.lastNow_le_nextCpuTime (s : State) : s.lastNow ≤ s.nextCpuTime := Nat.le_max_left ..

/-- Settles O9: the times from the previous poll on at which the cpu clock is due are those not below the model's own. -/
theorem idleHostPollsWhenTheCpuFallsDue : Obligations.IdleHostPollsWhenTheCpuFallsDue := by
  intro s hpos ht0
  have hle := s.lastNow_le_nextCpuTime
  refine ⟨hle, (cpu_due_iff_nextCpuTime_le hpos ht0 hle).mpr (Nat.le_refl _), fun now hnow hlt => ?_⟩
  exact Bool.eq_false_iff.mpr fun hd => Nat.not_le.mpr hlt ((cpu_due_iff_nextCpuTime_le hpos ht0 hnow).mp hd)

/-! ### The counts a poll leaves -/

/-- A poll counts each clock where that clock was due before it, by the time since construction: no part of a poll changes another
clock's count or rate (R155). -/
theorem poll_counts (h : poll now s = .next t) :
    t.kCpu = (if due s.cfg.cpuHz s.kCpu s.t0 now then s.kCpu + 1 else s.kCpu) ∧
    t.kTimer = (if due s.cfg.timerHz s.kTimer s.t0 now then s.kTimer + 1 else s.kTimer) ∧
    t.kFrame = (if due s.cfg.frameHz s.kFrame s.t0 now then s.kFrame + 1 else s.kFrame) := by
  obtain ⟨-, u, hu, rfl⟩ := poll_next h
  obtain ⟨kCpu, kTimer, kFrame, t0, cfg, -⟩ := cpuPhase_counts hu
  refine ⟨?_, ?_, ?_⟩
  · rw [State.setLastNow_kCpu, framePhase_kCpu, timerPhase_kCpu]; exact kCpu
  · simp [timerPhase_kTimer, kTimer, t0, cfg]
  · simp [framePhase_kFrame, kFrame, t0, cfg]

/-- Settles O43: `due` is the integer test of R150. -/
theorem eachClockFiresOnceIffDue : Obligations.EachClockFiresOnceIffDue := by
  intro now s t h
  simpa only [due_iff, Config.nsPerSecond] using poll_counts h

/-- Within a period of a clock its exact count rises by at most one. -/
theorem exactFirings_le_add_one {hz t0 last now : Nat} (h : (now - last) * hz ≤ Config.nsPerSecond) :
    exactFirings hz t0 now ≤ exactFirings hz t0 last + 1 := by
  have hsplit : (now - t0) * hz ≤ (last - t0) * hz + Config.nsPerSecond :=
    calc (now - t0) * hz
      _ ≤ ((now - last) + (last - t0)) * hz := Nat.mul_le_mul_right hz tsub_le_tsub_add_tsub
      _ = (last - t0) * hz + (now - last) * hz := by rw [Nat.add_mul, Nat.add_comm]
      _ ≤ (last - t0) * hz + Config.nsPerSecond := Nat.add_le_add_left h _
  calc exactFirings hz t0 now
    _ ≤ ((last - t0) * hz + Config.nsPerSecond) / Config.nsPerSecond := Nat.div_le_div_right hsplit
    _ = exactFirings hz t0 last + 1 := Nat.add_div_right _ (by decide)

/-- A clock that was exact fires exactly where its exact count has risen, which within its period is by one at most (R156). -/
theorem fired_eq_exactFirings {hz k t0 last now : Nat} (hle : last ≤ now) (hk : k = exactFirings hz t0 last)
    (hperiod : (now - last) * hz ≤ Config.nsPerSecond) :
    (if due hz k t0 now then k + 1 else k) = exactFirings hz t0 now := by
  have hmono : k ≤ exactFirings hz t0 now := hk ▸ exactFirings_mono hle
  have hstep : exactFirings hz t0 now ≤ k + 1 := hk ▸ exactFirings_le_add_one hperiod
  simp only [due_iff_lt_exactFirings]
  split <;> omega

/-- Settles O44, by the same argument for each of the three clocks. -/
theorem punctualPollsKeepEveryClockExact : Obligations.PunctualPollsKeepEveryClockExact := by
  intro now s t h _
  obtain ⟨hle, -⟩ := poll_next h
  obtain ⟨kCpu, kTimer, kFrame⟩ := poll_counts h
  exact ⟨fun hk hp => kCpu.trans (fired_eq_exactFirings hle hk hp),
    fun hk hp => kTimer.trans (fired_eq_exactFirings hle hk hp),
    fun hk hp => kFrame.trans (fired_eq_exactFirings hle hk hp)⟩

end Sys2Proof.Machine
end

section
/-! PROOFS. How a fault ends things (60_exceptions.md R140 to R142, 70_reset_and_hazards.md R185): the instructions that raise one,
the poll and the step that end in it, the record that no later step changes, and the run and the claim that end with it. -/

namespace Sys2Proof.Machine

/-- Every arm ends a meaning in a next state or in `finish`, and neither is a refusal (R140). -/
theorem exec_not_refused (i : Instr) (s : State) (r : Refusal) : exec i s ≠ .refused r := by
  cases i
  case ret | call | skipIfKeyDown | skipIfKeyUp | bcd | storeRegs | loadRegs | draw => exact finish_not_refused _ r
  -- Every other instruction answers a next state.
  all_goals exact nofun

/-- Settles O53: the list of the faults is that of `exec_fault`. -/
theorem instructionsFaultOnlyAsListed : Obligations.InstructionsFaultOnlyAsListed := fun i s =>
  ⟨exec_not_refused i s, fun _ => exec_fault⟩

section
variable {s : State} {f : Fault}

theorem poll_of_tick_fault {now : Nat} (hle : s.lastNow ≤ now) (hdue : due s.cfg.cpuHz s.kCpu s.t0 now = true)
    (h : tick s.clearRepaint = .fault f) : poll now s = .fault f := by
  rw [poll_of_cpu_due hle hdue, h, mapNext]

/-! ### The record of a fault -/

theorem step_of_recorded (h : s.fault = some f) : step s = .fault f := by
  rw [step, h]

theorem State.afterStep_of_recorded (h : s.fault = some f) : s.afterStep = s := by
  simp only [State.afterStep, step_of_recorded h, h]

theorem State.afterSteps_of_recorded (h : s.fault = some f) (n : Nat) : s.afterSteps n = s := by
  induction n with
  | zero => rfl
  | succ n ih => rw [State.afterSteps, State.afterStep_of_recorded h, ih]

/-- A step that faults leaves its fault recorded: the one it raised, or the one that was recorded before it (log entry 14). -/
theorem State.afterStep_fault (h : step s = .fault f) : s.afterStep.fault = some f := by
  cases hrec : s.fault with
  | some g =>
    rw [step_of_recorded hrec] at h
    cases h
    rw [State.afterStep_of_recorded hrec, hrec]
  | none => simp only [State.afterStep, h, hrec]

/-! ### The run and the claim -/

theorem HostRun.outcome_add_of_fault {h : HostRun} {n : Nat} (hf : h.outcome s n = .fault f) (k : Nat) :
    h.outcome s (n + k) = .fault f := by
  induction k with
  | zero => exact hf
  | succ k ih => rw [← Nat.add_assoc, HostRun.outcome, ih]

/-- A run that faults before its end point refutes the claim, as a claim that holds allows a fault only after it (R185). -/
theorem Claim.not_holds_of_fault {c : Claim} {l : Launch} {h : HostRun} {n : Nat} (hpre : c.pre l)
    (hstart : l.start = .ok s) (hf : h.outcome s n = .fault f) (hend : ∀ m, m < n → ¬ h.atEnd s c.endPoint m) :
    ¬ c.Holds := fun hholds =>
  have ⟨m, hm, hat⟩ := (hholds l s h hpre hstart).noFault n f hf
  hend m hm hat

end

/-- Settles O45: the poll is its tick's fault, the step records it for good, and a run and a claim end with it. -/
theorem faultEndsThePollAndTheRun : Obligations.FaultEndsThePollAndTheRun :=
  ⟨fun _ _ _ => poll_of_tick_fault,
    fun _ _ h => have hrec := State.afterStep_fault h; ⟨hrec, State.afterSteps_of_recorded hrec⟩,
    fun _ _ _ _ => HostRun.outcome_add_of_fault,
    fun _ _ _ _ _ _ => Claim.not_holds_of_fault⟩

end Sys2Proof.Machine
end

section
/-! PROOFS. A parked machine (70_reset_and_hazards.md R181, R185): the tick of a jump to itself puts `pc` back where it stood, and
nothing else that a step does reaches the registers, `I`, the stack, memory or the framebuffer. -/

namespace Sys2Proof.Machine

/-- What the fetch reads is as before, and so is what a claim at `Parked(a)` speaks of (R181). The defaults are the laws of State for
the updates that touch none of it. -/
structure Unmoved (s t : State) : Prop where
  pc : t.pc = s.pc := by simp
  v : t.v = s.v := by simp
  index : t.index = s.index := by simp
  sp : t.sp = s.sp := by simp
  stack : t.stack = s.stack := by simp
  mem : t.mem = s.mem := by simp
  fb : t.fb = s.fb := by simp
  cfg : t.cfg = s.cfg := by simp

theorem Unmoved.refl (s : State) : Unmoved s s := {}

theorem Unmoved.trans {s t u : State} (h : Unmoved s t) (h' : Unmoved t u) : Unmoved s u where
  pc := h'.pc.trans h.pc
  v := h'.v.trans h.v
  index := h'.index.trans h.index
  sp := h'.sp.trans h.sp
  stack := h'.stack.trans h.stack
  mem := h'.mem.trans h.mem
  fb := h'.fb.trans h.fb
  cfg := h'.cfg.trans h.cfg

section
variable {a : BitVec 12} {s t : State}

theorem Parked.of_unmoved (hp : Parked a s) (h : Unmoved s t) : Parked a t :=
  ⟨h.pc.trans hp.1, (State.fetch_congr h.pc h.mem h.cfg).trans hp.2⟩

/-- A jump to where `pc` stands undoes the advance of the tick (R78, R91). -/
theorem Unmoved.setPc_advance {n : Nat} (h : s.pc = n) : Unmoved s (s.advance.setPc n) where
  pc := by
    rw [State.setPc_pc, ← h]
    exact Nat.mod_mod ..
  index := rfl

theorem tick_of_parked (hp : Parked a s) : tick s = .next (s.advance.setPc a.toNat) :=
  tick_of_instr hp.2 (decode_encode s.cfg.group0Key (i := .jump a) rfl) rfl

theorem cpuPhase_of_parked (now : Nat) (hp : Parked a s) : ∃ t, cpuPhase now s = .next t ∧ Unmoved s t := by
  cases hd : due s.cfg.cpuHz s.kCpu s.t0 now with
  | true =>
    have hcycle : cpuPhase now s = cycleAction s := if_pos hd
    have hend : Unmoved (s.advance.setPc a.toNat) (s.advance.setPc a.toNat).endCycle := {}
    exact ⟨_, hcycle.trans (cycleAction_of_next (tick_of_parked hp)), (Unmoved.setPc_advance hp.1).trans hend⟩
  | false => exact ⟨s, cpuPhase_of_not_due hd, .refl s⟩

/-- A poll of a parked machine at a time that does not decrease completes and moves nothing: its timer and frame parts reach
the timers, the dirty flag and the counts alone (R151, R160). -/
theorem poll_of_parked {now : Nat} (hp : Parked a s) (hle : s.lastNow ≤ now) :
    ∃ t, poll now s = .next t ∧ Unmoved s t := by
  have hstart : Unmoved s s.clearRepaint := {}
  obtain ⟨u, hu, hcpu⟩ := cpuPhase_of_parked now (hp.of_unmoved hstart)
  have hrest : Unmoved u ((framePhase now (timerPhase now u)).setLastNow now) := {}
  exact ⟨_, by rw [poll_of_le hle, hu, mapNext], hstart.trans (hcpu.trans hrest)⟩

theorem poll_unmoved {now : Nat} (hp : Parked a s) (h : poll now s = .next t) : Unmoved s t := by
  obtain ⟨hle, -⟩ := poll_next h
  obtain ⟨u, hu, hsu⟩ := poll_of_parked hp hle
  cases hu.symm.trans h
  exact hsu

/-- Whatever the host does next, a key event or a poll, it moves nothing of a parked machine (R159). -/
theorem step_unmoved (hp : Parked a s) (h : step s = .next t) : Unmoved s t := by
  obtain ⟨-, hcases⟩ := step_next h
  obtain ⟨-, hpoll⟩ | ⟨k, rest, -, -, rfl⟩ | ⟨k, rest, -, -, rfl⟩ | ⟨now, rest, -, hpoll⟩ := hcases
  · exact poll_unmoved hp hpoll
  · exact {}
  · exact {}
  · have htaken : Unmoved s (s.setInputs rest) := {}
    exact htaken.trans (poll_unmoved (hp.of_unmoved htaken) hpoll)

theorem SafeRun.unmoved {n : Nat} (hp : Parked a s) (h : SafeRun n s t) : Unmoved s t := by
  induction n generalizing s with
  | zero => cases h; exact .refl _
  | succ n ih =>
    obtain ⟨u, hstep, hrun⟩ := h.cons
    have hsu := step_unmoved hp hstep
    exact hsu.trans (ih (hp.of_unmoved hsu) hrun)

/-- Once a run of the host is parked, its further inputs move nothing (R185). -/
theorem HostRun.unmoved {h : HostRun} {u : State} {m k : Nat} (ht : h.outcome s m = .next t) (hp : Parked a t)
    (hu : h.outcome s (m + k) = .next u) : Unmoved t u := by
  induction k generalizing u with
  | zero => cases ht.symm.trans hu; exact .refl _
  | succ k ih =>
    obtain ⟨r, hr, hstep⟩ := HostRun.outcome_succ_next hu
    have hsupplied : Unmoved r (r.supplied (h.input (m + k)) (h.byte (m + k))) := {}
    have htr := (ih hr).trans hsupplied
    exact htr.trans (step_unmoved (hp.of_unmoved htr) hstep)

/-- What the claim at `Parked(a)` sees of a machine that has not moved. -/
theorem Parked.and_kept_of_unmoved (hp : Parked a s) (h : Unmoved s t) :
    Parked a t ∧ t.v = s.v ∧ t.index = s.index ∧ t.sp = s.sp ∧ t.stack = s.stack ∧ t.mem = s.mem ∧ t.fb = s.fb :=
  ⟨hp.of_unmoved h, h.v, h.index, h.sp, h.stack, h.mem, h.fb⟩

end

/-- Settles O58, by induction on the length of the run: no step of a parked machine moves it, and its polls complete. -/
theorem parkedStaysParked : Obligations.ParkedStaysParked :=
  ⟨fun _ _ _ _ hp hrun => hp.and_kept_of_unmoved (hrun.unmoved hp),
    fun _ _ _ hp hle => have ⟨t, ht, _⟩ := poll_of_parked hp hle; ⟨t, ht⟩,
    fun _ _ _ _ _ _ _ ht hp hu => hp.and_kept_of_unmoved (HostRun.unmoved ht hp hu)⟩

end Sys2Proof.Machine
end
